-- ==== Sys2Proof/Word.lean ====
section
/-! DEFINITION. The word types of the block (spec/00_scope.md R9): bytes of 8 bits and host registers of 32 bits. -/

namespace Sys2Proof

/-- A byte is 8 bits (R9). -/
abbrev Byte := BitVec 8

/-- A word is 32 bits (R9), the width of every host register (R7). -/
abbrev Word := BitVec 32

end Sys2Proof
end

