-- ==== Sys2Proof/Config.lean ====
section
/-! DEFINITION. The parameters of spec/00_scope.md R7: the fixed ones as constants, the open ones as the fields of
`Config`, and the values the spec leaves free ("any value; a model draws each byte", R17, R40) as opaque constants. -/

namespace Sys2Proof

/-- HDR_POLICY, the header acceptance test of spec/40_decompress.md R92. -/
inductive HdrPolicy where
  | fits    -- accept when 4 + size ≤ n (the default)
  | exact   -- accept when 4 + size = n
  deriving DecidableEq, Repr

/-- The parameters a model takes as configuration arguments (R7), and BLOCK_BASE (spec/20_memory.md R46). Fixed for a
machine: no step changes them (assumption 1). -/
structure Config where
  inCap     : Nat
  outCap    : Nat
  hdrPolicy : HdrPolicy
  maxDist   : Nat
  blockBase : Nat
  deriving DecidableEq, Repr

/-- N, the ring size (R7). -/
@[simp] abbrev ringSize : Nat := 4096
/-- F, the lookahead and longest match (R7). -/
@[simp] abbrev lookahead : Nat := 18
/-- MIN_MATCH, the shortest match (R7). -/
@[simp] abbrev minMatch : Nat := 3
/-- INIT_CURSOR = N − F (R7, R8), as the 12-bit ring address that RPOS takes. -/
@[simp] abbrev initCursor : BitVec 12 := 4078#12
/-- GROUP, the units of one flag byte (R7). -/
@[simp] abbrev groupUnits : Nat := 8
/-- HDR_BYTES (R7). -/
@[simp] abbrev hdrBytes : Nat := 4
/-- The largest value R7 allows for IN_CAP and OUT_CAP. -/
@[simp] abbrev capMax : Nat := 16777216

/-- The bytes of the REG space (spec/20_memory.md R45, R46). -/
@[simp] abbrev regSpan : Nat := 0x1000
/-- IN_BASE (R46). -/
@[simp] abbrev inBase : Nat := 0x01000000
/-- OUT_BASE (R46). -/
@[simp] abbrev outBase : Nat := 0x02000000
/-- The bytes of the block's region: block-relative addresses are 0 to 0xFFFF_FFFF (R46). -/
@[simp] abbrev regionSpan : Nat := 0x100000000

/-- The ranges R7 gives the open parameters. -/
abbrev Config.wf (c : Config) : Prop :=
  1 ≤ c.inCap ∧ c.inCap ≤ capMax ∧ 1 ≤ c.outCap ∧ c.outCap ≤ capMax ∧ 1 ≤ c.maxDist ∧ c.maxDist ≤ ringSize

/-- The parameters at which `State.reset` stands: FITS and 4078 are the spec's defaults (R7); the capacities are those of
spec/95_test_vectors.md section 2.7 and the base is 0 (DESIGN CHOICE, assumption 1). -/
def Config.default : Config :=
  { inCap := 65536, outCap := 65536, hdrPolicy := .fits, maxDist := 4078, blockBase := 0 }

/-- The free byte at an address under one draw (R17, R40, R129: "any value"; assumption 4). It has no body: nothing
can be proved of its value. -/
opaque Config.freeByte : Nat → Nat → Byte

/-- The content an implementation gives TREE at one draw (spec/10_state.md R36, implementation-defined; assumption 7). -/
opaque Config.freeTree : Nat → List Nat

end Sys2Proof
end

