-- ==== Sys2Proof/Syntax.lean ====
section
/-! DEFINITION. The instructions of the block, one constructor for each row of spec/opcode_table.json, and the encoded
objects they are read from: stream bytes, command words and host accesses. -/

namespace Sys2Proof

/-- The access widths of spec/42_control.md R121. -/
inductive Width where
  | w8
  | w16
  | w32
  deriving DecidableEq, Repr

/-- The bytes of an access of this width. -/
def Width.bytes : Width → Nat
  | .w8 => 1
  | .w16 => 2
  | .w32 => 4

/-- The mapped registers of the REG space (spec/20_memory.md R46). -/
inductive Reg where
  | ctrl     -- offset 0x000
  | cmd      -- offset 0x004
  | status   -- offset 0x008
  | inLen    -- offset 0x00C
  | outLen   -- offset 0x010
  deriving DecidableEq, Repr

/-- The two directions of an IN window access (R128). -/
inductive WindowOp where
  | read
  | write (v : Word)
  deriving DecidableEq, Repr

/-- The instructions: stream units, commands, host operations. -/
inductive Instr where
  /-- FLAG: the flag step, with the flag byte it fetches when a fetch is due (R84). -/
  | flag (f : Byte)
  /-- LIT: a literal unit (R85). -/
  | lit (c : Byte)
  /-- REF: a back-reference unit, ring address and length (R86; ranges R78). -/
  | ref (off len : Nat)
  /-- HDR: the header unit (R91). -/
  | hdr (size : Word)
  /-- DECOMPRESS, command 1 (R93). -/
  | decompress
  /-- DECOMPRESS_RAW, command 2 (R94). -/
  | decompressRaw
  /-- COMPRESS, command 3 (R101). -/
  | compress
  /-- A reserved command word (R77, R139). -/
  | badCommand (code : Word)
  /-- A CMD write while PHASE = IDLE (R122). -/
  | cmdWriteAccepted (v : Word)
  /-- A CMD write while PHASE = BUSY (R123). -/
  | cmdWriteRefused (v : Word)
  /-- A CTRL write (R124); with SRST = 1 it is read as `softReset`. -/
  | ctrlWrite (v : Word)
  /-- A CTRL write with SRST = 1 (R125). -/
  | softReset (v : Word)
  /-- A STATUS write (R126). -/
  | statusWrite (v : Word)
  /-- An IN_LEN write (R127). -/
  | inLenWrite (v : Word)
  /-- An IN window access at index i (R128). -/
  | inWindowAccess (op : WindowOp) (i : Nat) (w : Width)
  /-- An OUT window read at index i (R129). -/
  | outWindowRead (i : Nat) (w : Width)
  /-- A register read (R130). -/
  | registerRead (r : Reg)
  deriving DecidableEq, Repr

/-- A host access with a block-relative address (R121). -/
inductive Access where
  | read (addr : Word) (w : Width)
  | write (addr : Word) (w : Width) (v : Word)
  deriving DecidableEq, Repr

/-- What selects the kind of the next stream bytes: the header's place, a due flag fetch, or FLAGS[0]
(spec/30_encoding.md R67: no bit of a unit selects its kind). -/
inductive Selector where
  | hdr
  | flag
  | lit
  | ref
  deriving DecidableEq, Repr

/-- An encoded object: stream bytes under their selector, a command word, or a host access (spec/30_encoding.md). -/
inductive Code where
  | stream (sel : Selector) (bytes : List Byte)
  | command (word : Word)
  | bus (a : Access)
  deriving DecidableEq, Repr

/-- Why an encoded object is no instruction. The block gives each rejected access its effect: it reads 0 and writes
nothing (R47, R52, R53, R129, R130). -/
inductive Reject where
  | truncatedUnit      -- fewer stream bytes than the unit has (R88)
  | trailingBytes      -- more stream bytes than the unit has
  | reservedOffset     -- a reserved REG offset (R47)
  | unmapped           -- an unmapped address (R47)
  | misSized           -- an 8-bit or 16-bit access to REG (R52)
  | misaligned         -- a misaligned access (R52, R53)
  | overhangsWindow    -- a window access with a byte outside the window (R53)
  | readOnly           -- a write to OUT_LEN (R130) or to the OUT window (R129)
  deriving DecidableEq, Repr

end Sys2Proof
end

