-- ==== Sys2Proof/WellFormed.lean ====
section
/-! DEFINITION. Which instructions the encodings admit: the operand ranges of spec/30_encoding.md R76 to R78 and of
spec/42_control.md R121 to R130. -/

namespace Sys2Proof

/-- SRST, bit 1 of a CTRL write (R18). -/
def srstBit (v : Word) : Bool := v.getLsbD 1

/-- A window access lies at an index aligned to its width with all its bytes inside the window (R53). -/
def windowFits (cap i : Nat) (w : Width) : Bool :=
  decide (i % w.bytes = 0) && decide (i + w.bytes ≤ cap)

/-- The operand checks, one per row that has one. -/
def Instr.wellFormed (cfg : Config) : Instr → Bool
  | .flag _ => true
  | .lit _ => true
  | .ref off len => decide (off < ringSize) && decide (minMatch ≤ len) && decide (len ≤ lookahead)
  | .hdr _ => true
  | .decompress => true
  | .decompressRaw => true
  | .compress => true
  | .badCommand code => decide (code ≠ 1#32) && decide (code ≠ 2#32) && decide (code ≠ 3#32)
  | .cmdWriteAccepted _ => true
  | .cmdWriteRefused _ => true
  | .ctrlWrite v => !srstBit v
  | .softReset v => srstBit v
  | .statusWrite _ => true
  | .inLenWrite _ => true
  | .inWindowAccess _ i w => windowFits cfg.inCap i w
  | .outWindowRead i w => windowFits cfg.outCap i w
  | .registerRead _ => true

/-- The phase a row asks for: a CMD write is accepted while IDLE (R122) and refused while BUSY (R123). Every other row
stands in both. -/
def Instr.admitsPhase (busy : Bool) : Instr → Bool
  | .cmdWriteAccepted _ => !busy
  | .cmdWriteRefused _ => busy
  | .flag _ => true
  | .lit _ => true
  | .ref _ _ => true
  | .hdr _ => true
  | .decompress => true
  | .decompressRaw => true
  | .compress => true
  | .badCommand _ => true
  | .ctrlWrite _ => true
  | .softReset _ => true
  | .statusWrite _ => true
  | .inLenWrite _ => true
  | .inWindowAccess _ _ _ => true
  | .outWindowRead _ _ => true
  | .registerRead _ => true

end Sys2Proof
end

