-- ==== Sys2Proof/Decode.lean ====
section
/-! DEFINITION. Reading instructions from stream bytes, command words and host accesses, total and rejecting by name, and
after it the encoder (spec/30_encoding.md, spec/20_memory.md sections 2 to 4, spec/42_control.md). -/

namespace Sys2Proof

/-! ## Fields of the stream units -/

/-- The size field of a header, IN[0] least significant (R48, R64). -/
def hdrSize (b0 b1 b2 b3 : Byte) : Word :=
  b0.setWidth 32 ||| (b1.setWidth 32 <<< 8) ||| (b2.setWidth 32 <<< 16) ||| (b3.setWidth 32 <<< 24)

/-- offset = byte0 | byte1[7:4] << 8, an absolute 12-bit ring address (R70). -/
def refOffset (b0 b1 : Byte) : BitVec 12 :=
  b0.setWidth 12 ||| ((b1.extractLsb' 4 4).setWidth 12 <<< 8)

/-- length = byte1[3:0] + 3 (R71). -/
def refLength (b1 : Byte) : Nat := (b1.extractLsb' 0 4).toNat + minMatch

/-- byte0 of a back-reference: position_low (R69, R108). -/
def refByte0 (off : BitVec 12) : Byte := off.extractLsb' 0 8

/-- byte1 of a back-reference: p[11:8] << 4 | (L − 3) (R69, R108). -/
def refByte1 (off : BitVec 12) (len : Nat) : Byte :=
  ((off.extractLsb' 8 4).setWidth 8 <<< 4) ||| BitVec.ofNat 8 (len - minMatch)

def decodeFlag (b : Byte) : Instr := .flag b
def decodeLit (b : Byte) : Instr := .lit b
def decodeRef (b0 b1 : Byte) : Instr := .ref (refOffset b0 b1).toNat (refLength b1)
def decodeHdr (b0 b1 b2 b3 : Byte) : Instr := .hdr (hdrSize b0 b1 b2 b3)

/-- One stream instruction and the bytes after it (R66, R68, R69, R64; lengths R72). -/
def decodeStream : Selector → List Byte → Except Reject (Instr × List Byte)
  | .flag, b :: rest => .ok (decodeFlag b, rest)
  | .lit, b :: rest => .ok (decodeLit b, rest)
  | .ref, b0 :: b1 :: rest => .ok (decodeRef b0 b1, rest)
  | .hdr, b0 :: b1 :: b2 :: b3 :: rest => .ok (decodeHdr b0 b1 b2 b3, rest)
  | .flag, [] => .error .truncatedUnit
  | .lit, [] => .error .truncatedUnit
  | .ref, [] => .error .truncatedUnit
  | .ref, [_] => .error .truncatedUnit
  | .hdr, [] => .error .truncatedUnit
  | .hdr, [_] => .error .truncatedUnit
  | .hdr, [_, _] => .error .truncatedUnit
  | .hdr, [_, _, _] => .error .truncatedUnit

/-! ## Command words -/

/-- The command code is all 32 bits; every value other than 1, 2, 3 is reserved (R76, R77). -/
def decodeCommand (word : Word) : Instr :=
  if word = 1#32 then .decompress
  else if word = 2#32 then .decompressRaw
  else if word = 3#32 then .compress
  else .badCommand word

/-! ## Host accesses -/

/-- The register at a REG offset (R46). -/
def regAt (off : Nat) : Option Reg :=
  if off = 0x000 then some .ctrl
  else if off = 0x004 then some .cmd
  else if off = 0x008 then some .status
  else if off = 0x00C then some .inLen
  else if off = 0x010 then some .outLen
  else none

/-- The REG offset of a register (R46). -/
def Reg.offset : Reg → Nat
  | .ctrl => 0x000
  | .cmd => 0x004
  | .status => 0x008
  | .inLen => 0x00C
  | .outLen => 0x010

/-- A 32-bit write to a register: R122 to R127, and R130 for OUT_LEN. -/
def decodeRegWrite (busy : Bool) (r : Reg) (v : Word) : Except Reject Instr :=
  match r with
  | .ctrl => .ok (if srstBit v then .softReset v else .ctrlWrite v)
  | .cmd => .ok (if busy then .cmdWriteRefused v else .cmdWriteAccepted v)
  | .status => .ok (.statusWrite v)
  | .inLen => .ok (.inLenWrite v)
  | .outLen => .error .readOnly

/-- The REG space takes only aligned 32-bit accesses (R52); a reserved offset is no register (R47). -/
def decodeRegSpace (off : Nat) (w : Width) : Except Reject Reg :=
  if w ≠ .w32 then .error .misSized
  else if off % 4 ≠ 0 then .error .misaligned
  else match regAt off with
    | some r => .ok r
    | none => .error .reservedOffset

/-- A window takes accesses aligned to their width with every byte inside it (R53); past its end it is unmapped (R46). -/
def decodeWindow (cap i : Nat) (w : Width) : Except Reject Unit :=
  if cap ≤ i then .error .unmapped
  else if i % w.bytes ≠ 0 then .error .misaligned
  else if cap < i + w.bytes then .error .overhangsWindow
  else .ok ()

/-- Which part of the address map an address lies in (R46). -/
inductive Region where
  | reg (off : Nat)
  | inWindow (i : Nat)
  | outWindow (i : Nat)
  | nowhere
  deriving DecidableEq, Repr

/-- The address map of R46. -/
def regionOf (addr : Nat) : Region :=
  if addr < regSpan then .reg addr
  else if addr < inBase then .nowhere
  else if addr < outBase then .inWindow (addr - inBase)
  else .outWindow (addr - outBase)

/-- A host read (R121, R128 to R130). -/
def decodeRead (cfg : Config) (addr : Word) (w : Width) : Except Reject Instr :=
  match regionOf addr.toNat with
  | .reg off => (decodeRegSpace off w).map .registerRead
  | .inWindow i => (decodeWindow cfg.inCap i w).map fun _ => .inWindowAccess .read i w
  | .outWindow i => (decodeWindow cfg.outCap i w).map fun _ => .outWindowRead i w
  | .nowhere => .error .unmapped

/-- A host write (R121 to R129). The phase tells an accepted CMD write from a refused one. -/
def decodeWrite (cfg : Config) (busy : Bool) (addr : Word) (w : Width) (v : Word) : Except Reject Instr :=
  match regionOf addr.toNat with
  | .reg off => (decodeRegSpace off w).bind fun r => decodeRegWrite busy r v
  | .inWindow i => (decodeWindow cfg.inCap i w).map fun _ => .inWindowAccess (.write v) i w
  | .outWindow i => (decodeWindow cfg.outCap i w).bind fun _ => .error .readOnly
  | .nowhere => .error .unmapped

/-- A host access (R121). -/
def decodeAccess (cfg : Config) (busy : Bool) : Access → Except Reject Instr
  | .read addr w => decodeRead cfg addr w
  | .write addr w v => decodeWrite cfg busy addr w v

/-- Every encoded object: exactly one stream instruction, a command word, or a host access. -/
def decode (cfg : Config) (busy : Bool) : Code → Except Reject Instr
  | .stream sel bytes =>
    match decodeStream sel bytes with
    | .ok (i, []) => .ok i
    | .ok (_, _ :: _) => .error .trailingBytes
    | .error e => .error e
  | .command word => .ok (decodeCommand word)
  | .bus a => decodeAccess cfg busy a

/-! ## The encoder -/

/-- The bytes of a 32-bit value, least significant first (R48, R50). -/
def wordBytes (v : Word) : List Byte :=
  [v.extractLsb' 0 8, v.extractLsb' 8 8, v.extractLsb' 16 8, v.extractLsb' 24 8]

/-- The 32-bit write of a register (R121). -/
def regWrite (r : Reg) (v : Word) : Code := .bus (.write (BitVec.ofNat 32 r.offset) .w32 v)

/-- The encoding of an instruction (R64, R66, R68, R69, R76, R121 to R130). -/
def encode : Instr → Code
  | .flag f => .stream .flag [f]
  | .lit c => .stream .lit [c]
  | .ref off len => .stream .ref [refByte0 (BitVec.ofNat 12 off), refByte1 (BitVec.ofNat 12 off) len]
  | .hdr size => .stream .hdr (wordBytes size)
  | .decompress => .command 1#32
  | .decompressRaw => .command 2#32
  | .compress => .command 3#32
  | .badCommand code => .command code
  | .cmdWriteAccepted v => regWrite .cmd v
  | .cmdWriteRefused v => regWrite .cmd v
  | .ctrlWrite v => regWrite .ctrl v
  | .softReset v => regWrite .ctrl v
  | .statusWrite v => regWrite .status v
  | .inLenWrite v => regWrite .inLen v
  | .inWindowAccess .read i w => .bus (.read (BitVec.ofNat 32 (inBase + i)) w)
  | .inWindowAccess (.write v) i w => .bus (.write (BitVec.ofNat 32 (inBase + i)) w v)
  | .outWindowRead i w => .bus (.read (BitVec.ofNat 32 (outBase + i)) w)
  | .registerRead r => .bus (.read (BitVec.ofNat 32 r.offset) .w32)

/-! ## The opcode table's words -/

/-- A 32-bit word of spec/opcode_table.json. The table numbers two spaces over the same 32 bits: command words, and the
address word of a host access (whose data word is above it, hence 0). The commands 1, 2, 3 are read as commands; an
address that a 32-bit write of 0 can act on is read as that write; one that only a read can act on is read as that
read; every other word is a reserved command (assumption 9). -/
def decodeTable32 (w : Word) : Instr :=
  match decodeCommand w with
  | .badCommand code =>
    match decodeWrite Config.default false w .w32 0#32 with
    | .ok i => i
    | .error _ =>
      match decodeRead Config.default w .w32 with
      | .ok i => i
      | .error _ => .badCommand code
  | i => i

/-- The instruction the decoder reads from a word of the opcode table, bit 0 the least significant bit of the first byte.
8 bits are a flag byte (the first byte any payload has), 16 a back-reference, 32 a command or host word
(assumption 9). -/
def decodeTableWord (nbits w : Nat) : Option Instr :=
  if nbits = 8 then
    (decodeStream .flag [BitVec.ofNat 8 w]).toOption.map Prod.fst
  else if nbits = 16 then
    (decodeStream .ref [BitVec.ofNat 8 w, BitVec.ofNat 8 (w / 256)]).toOption.map Prod.fst
  else if nbits = 32 then some (decodeTable32 (BitVec.ofNat 32 w))
  else none

end Sys2Proof
end

