-- ==== Sys2Proof/Machine/State.lean ====
section
/-! DEFINITION. The state of the block (spec/10_state.md R15) as plain data, with the model's own fields beside it, and the
state after reset (R40). -/

namespace Sys2Proof.Machine

open Sys2Proof

/-! ## Reasons to stop -/

/-- The block has no trap, no bus error and no access fault (spec/60_exceptions.md R133, R147; spec/20_memory.md R47), and
no behaviour of it is "stuck" (spec/93_implementation_defined.md section 1). So there is no constructor. -/
inductive Fault where
  deriving DecidableEq, Repr

/-- Refusals. -/
inductive Refusal where
  /-- Raised by an arm of `exec` whose instruction has no meaning yet. Safe: the model stops. No arm raises it. -/
  | notModelled (mnemonic : String)
  deriving DecidableEq, Repr

/-! ## Buffers and the ring -/

/-- What the addresses a memory does not list read as: 0x00 (a ring that a command has zeroed, R82, R103), or a free byte
of one draw (R17, R40, R154). -/
inductive Fill where
  | zero
  | drawn (draw : Nat)
  deriving DecidableEq, Repr

/-- A byte array: the listed bytes, addresses strictly rising, over a fill. -/
structure Memory where
  fill  : Fill
  cells : List Host.Cell
  deriving DecidableEq, Repr

/-- A memory that lists nothing. -/
def Memory.blank (f : Fill) : Memory := { fill := f, cells := [] }

/-! ## The engine's working state (R26 to R31, R35, R36) -/

/-- The three points at which a decode stops (spec/40_decompress.md R87). -/
inductive StopPoint where
  | atFlag   -- (a) a flag fetch with IP = END
  | atLit    -- (b) a LIT with IP = END
  | atRef    -- (c) a REF with fewer than 2 bytes left
  deriving DecidableEq, Repr

/-- Which point of the loop of R81 comes next. The model's own (assumption 3). -/
inductive Seq where
  | start               -- no decode has begun for this command
  | flagStep            -- the flag step (R84)
  | unit                -- LIT or REF, by FLAGS[0] (R85, R86)
  | stopped (p : StopPoint)
  deriving DecidableEq, Repr

/-- Which reading of the input is being decoded (R93). The model's own (assumption 3). -/
inductive Attempt where
  | none
  | header
  | headerless
  deriving DecidableEq, Repr

/-- The working registers. -/
structure Engine where
  /-- RING (R26). -/
  ring     : Memory
  /-- RPOS (R27). -/
  rpos     : BitVec 12
  /-- FLAGS (R28). -/
  flags    : BitVec 16
  /-- IP, the block's program counter (R29). -/
  ip       : Nat
  /-- END (R30). -/
  endIdx   : Nat
  /-- OP (R31). -/
  op       : Nat
  /-- CPOS (R35). -/
  cpos     : Nat
  /-- GRP_IDX (R35). -/
  grpIdx   : Nat
  /-- GRP_BIT (R35). -/
  grpBit   : Nat
  /-- TREE (R36), implementation-defined content. -/
  tree     : List Nat
  /-- The model's own: the reading being decoded. -/
  attempt  : Attempt
  /-- The model's own: the next point of R81. -/
  seq      : Seq
  /-- The model's own: the sequence that `emit` appends to (R10), `out` of R81 and `s` of R101. -/
  produced : List Byte
  deriving DecidableEq, Repr

/-! ## Host registers -/

/-- The storage of STATUS (R20 to R25). BUSY is PHASE seen as a bit (R20) and the reserved bits read 0, so neither is
stored; `Status.word` is the 32-bit register (assumption 15). -/
structure Status where
  /-- DONE, bit 1 (R21). -/
  done    : Bool
  /-- ERR, bit 2 (R22). -/
  err     : Bool
  /-- OVR, bit 3 (R23). -/
  ovr     : Bool
  /-- ERRCODE, bits 11:8 (R24). -/
  errCode : BitVec 4
  /-- PATH, bits 13:12 (R25). -/
  path    : BitVec 2
  deriving DecidableEq, Repr

/-- STATUS = 0x0000_0000 (R40). -/
def Status.clear : Status := { done := false, err := false, ovr := false, errCode := 0#4, path := 0#2 }

/-- PHASE (R34). -/
inductive Phase where
  | idle
  | busy (code : Word) (n : Nat)
  deriving DecidableEq, Repr

/-! ## The outside world -/

/-- What happens next outside the engine, or that the engine is given a turn (assumption 2). -/
inductive Event where
  /-- A host read at a bus address (R121). -/
  | read (busAddr : Nat) (w : Width)
  /-- A host write at a bus address (R121). -/
  | write (busAddr : Nat) (w : Width) (v : Word)
  /-- The engine takes its one command step, if BUSY (R83). -/
  | command
  /-- The engine advances by one stream instruction inside its command, if BUSY (assumption 3). -/
  | unit
  /-- The platform asserts and releases RST (spec/70_reset_and_hazards.md R151 (a)). -/
  | hardReset
  deriving DecidableEq, Repr

/-! ## The state -/

/-- The state of R15, then the model's own fields. -/
structure State where
  /-- CTRL.IE, the one storage bit of CTRL (R18). -/
  ie      : Bool
  /-- STATUS (R20 to R25). -/
  status  : Status
  /-- IN_LEN (R32). -/
  inLen   : Nat
  /-- OUT_LEN (R33). -/
  outLen  : Nat
  /-- IN (R16). -/
  inBuf   : Memory
  /-- OUT (R17). -/
  outBuf  : Memory
  /-- PHASE (R34). -/
  phase   : Phase
  /-- RING, RPOS, FLAGS, IP, END, OP, CPOS, GRP_IDX, GRP_BIT, TREE (R26 to R36). -/
  engine  : Engine
  /-- The model's own: the parameters (R7), which no step changes. -/
  cfg     : Config
  /-- The model's own: what happens next, oldest first. -/
  pending : List Event
  /-- The model's own: the value the last host read returned. -/
  rdata   : Word
  /-- The model's own: the next draw of a free value. -/
  draws   : Nat
  deriving DecidableEq, Repr

/-- The working state at reset: R40 leaves every item unspecified. RING is a free draw; the registers take the named
value 0 (assumption 5) and TREE is empty (assumption 7). -/
def Engine.atReset (draw : Nat) : Engine :=
  { ring := Memory.blank (.drawn draw), rpos := 0#12, flags := 0#16, ip := 0, endIdx := 0, op := 0, cpos := 0,
    grpIdx := 0, grpBit := 0, tree := [], attempt := .none, seq := .start, produced := [] }

/-- The reset table of R40 for any parameters: IN, OUT and RING take the draws `draw`, `draw + 1` and `draw + 2`. -/
def State.resetWith (cfg : Config) (draw : Nat) : State :=
  { ie := false, status := Status.clear, inLen := 0, outLen := 0,
    inBuf := Memory.blank (.drawn draw), outBuf := Memory.blank (.drawn (draw + 1)),
    phase := .idle, engine := Engine.atReset (draw + 2),
    cfg := cfg, pending := [], rdata := 0#32, draws := draw + 3 }

/-- The machine right after reset (R40, R153). -/
def State.reset : State := State.resetWith Config.default 0

end Sys2Proof.Machine
end

