-- ==== Sys2Proof/Machine/Operands.lean ====
section
/-! DEFINITION. Operand forms: reading a memory's bytes, little-endian values of a window access, the command's length,
the stream bytes at IP. -/

namespace Sys2Proof.Machine

open Sys2Proof

/-! ## Bytes of a memory -/

/-- The byte an address has under a fill. -/
def Fill.byteAt : Fill → Nat → Byte
  | .zero, _ => 0#8
  | .drawn d, a => Config.freeByte d a

/-- The listed byte at an address. -/
def lookupCell : List Host.Cell → Nat → Option Byte
  | [], _ => none
  | (a, v) :: rest, b => if a = b then some v else lookupCell rest b

/-- What an address that a memory does not list reads as (assumption 4). -/
def Memory.unlisted (m : Memory) (a : Nat) : Byte := m.fill.byteAt a

/-- One byte of a memory. -/
def Memory.read (m : Memory) (a : Nat) : Byte :=
  match lookupCell m.cells a with
  | some v => v
  | none => m.unlisted a

/-- The `n` bytes from address `a` on, lowest address first. -/
def Memory.readBytes (m : Memory) : Nat → Nat → List Byte
  | _, 0 => []
  | a, n + 1 => m.read a :: m.readBytes (a + 1) n

/-! ## Little-endian values (R50) -/

/-- The bytes of a 32-bit value that an access of a width carries, least significant first. -/
def dataBytes (w : Width) (v : Word) : List Byte := (wordBytes v).take w.bytes

/-- Up to four bytes, least significant first, as a 32-bit value. -/
def assemble : List Byte → Word
  | [] => 0#32
  | b :: rest => (assemble rest <<< 8) ||| b.setWidth 32

/-! ## Command operands -/

/-- InByte(i) (R10). -/
def State.inByte (s : State) (i : Nat) : Byte := s.inBuf.read i

/-! ## Stream operands at IP (R29, R30) -/

/-- The stream byte `k` places after IP. At END and above nothing is read (R30) and the placeholder 0 stands
(assumption 14). -/
def Engine.peek (inB : Nat → Byte) (e : Engine) (k : Nat) : Byte :=
  if e.ip + k < e.endIdx then inB (e.ip + k) else 0#8

/-- FLAGS after the shift of the flag step (R84). -/
def Engine.shiftedFlags (e : Engine) : BitVec 16 := e.flags >>> 1

/-- A flag fetch is due when bit 8 is 0 after the shift (R84, R28). -/
def Engine.fetchDue (e : Engine) : Bool := !e.shiftedFlags.getLsbD 8

/-- The operand of the next flag step: the byte at IP when a fetch is due. -/
def Engine.flagOperand (inB : Nat → Byte) (e : Engine) : Byte :=
  if e.fetchDue then e.peek inB 0 else 0#8

/-- FLAGS[0]: 1 selects LIT, 0 selects REF (R84). -/
def Engine.selectsLit (e : Engine) : Bool := e.flags.getLsbD 0

end Sys2Proof.Machine
end

