-- ==== Sys2Proof/Machine/Flags.lean ====
section
/-! DEFINITION. The register words of CTRL and STATUS (spec/42_control.md R130), the IRQ output (spec/10_state.md R38), the
error codes, and every flag computation of STATUS. -/

namespace Sys2Proof.Machine

open Sys2Proof

/-- The errors of spec/60_exceptions.md R134. -/
inductive ErrorKind where
  | emptyInput
  | decodeEmptyOutput
  | outputOverflow
  | badCommand
  deriving DecidableEq, Repr

/-- The code of an error in STATUS.ERRCODE (R134). -/
def ErrorKind.code : ErrorKind → BitVec 4
  | .emptyInput => 1#4
  | .decodeEmptyOutput => 2#4
  | .outputOverflow => 3#4
  | .badCommand => 4#4

/-- The values PATH takes (R25). -/
inductive Path where
  | none
  | header
  | headerless
  deriving DecidableEq, Repr

/-- PATH as its two bits (R25). -/
def Path.bits : Path → BitVec 2
  | .none => 0#2
  | .header => 1#2
  | .headerless => 2#2

/-- STATUS.BUSY: 1 exactly when PHASE = BUSY (R20). -/
def State.busy (s : State) : Bool :=
  match s.phase with
  | .idle => false
  | .busy _ _ => true

/-- The STATUS register as read: PATH at 13:12, ERRCODE at 11:8, OVR, ERR, DONE, BUSY at 3:0, all else 0 (R130). -/
def Status.word (st : Status) (busy : Bool) : Word :=
  0#18 ++ st.path ++ st.errCode ++ 0#4 ++ BitVec.ofBool st.ovr ++ BitVec.ofBool st.err ++ BitVec.ofBool st.done
    ++ BitVec.ofBool busy

/-- STATUS of a state. -/
def State.statusWord (s : State) : Word := s.status.word s.busy

/-- The CTRL register as read: IE at bit 0, SRST reads 0, all else 0 (R130). -/
def State.ctrlWord (s : State) : Word := 0#31 ++ BitVec.ofBool s.ie

/-- IRQ = CTRL.IE & STATUS.DONE (R38, R142). -/
def State.irq (s : State) : Bool := s.ie && s.status.done

/-- Acceptance of a command: DONE, ERR, ERRCODE, PATH to 0, OVR kept (R122). -/
def Status.onAccept (st : Status) : Status :=
  { done := false, err := false, ovr := st.ovr, errCode := 0#4, path := 0#2 }

/-- Completion with a result (R83). -/
def Status.onSuccess (st : Status) (p : Path) : Status :=
  { done := true, err := false, ovr := st.ovr, errCode := 0#4, path := p.bits }

/-- Completion with an error (R83, R136). -/
def Status.onError (st : Status) (k : ErrorKind) : Status :=
  { done := true, err := true, ovr := st.ovr, errCode := k.code, path := 0#2 }

/-- A refused host write (R23). -/
def Status.onRefused (st : Status) : Status := { st with ovr := true }

/-- Write 1 to clear: bit 1 clears DONE, bit 2 clears ERR and ERRCODE, bit 3 clears OVR (R126). -/
def Status.writeOneToClear (st : Status) (v : Word) : Status :=
  { done := st.done && !v.getLsbD 1
    err := st.err && !v.getLsbD 2
    ovr := st.ovr && !v.getLsbD 3
    errCode := if v.getLsbD 2 then 0#4 else st.errCode
    path := st.path }

end Sys2Proof.Machine
end

