-- ==== Sys2Proof/Machine/Ops.lean ====
section
/-! DEFINITION. The named operations over memories and registers, completing a command with a result, ending it with an
error (the block's only "exception entry", spec/60_exceptions.md R136, R144) with the return from it beside it (R145),
command acceptance and reset. -/

namespace Sys2Proof.Machine

open Sys2Proof

/-! ## Memories -/

/-- Put a byte into a list of cells at its place. -/
def putCell : List Host.Cell → Nat → Byte → List Host.Cell
  | [], b, v => [(b, v)]
  | (a, u) :: rest, b, v =>
    if a < b then (a, u) :: putCell rest b v
    else if a = b then (b, v) :: rest
    else (b, v) :: (a, u) :: rest

/-- Take an address out of a list of cells. -/
def dropCell : List Host.Cell → Nat → List Host.Cell
  | [], _ => []
  | (a, u) :: rest, b => if a = b then dropCell rest b else (a, u) :: dropCell rest b

/-- Write one byte. A byte equal to a known fill is not listed. -/
def Memory.write (m : Memory) (a : Nat) (v : Byte) : Memory :=
  match m.fill with
  | .zero => if v = 0#8 then { m with cells := dropCell m.cells a } else { m with cells := putCell m.cells a v }
  | .drawn _ => { m with cells := putCell m.cells a v }

/-- Write bytes at rising addresses from `a` on. -/
def Memory.writeBytes (m : Memory) : Nat → List Byte → Memory
  | _, [] => m
  | a, v :: vs => (m.write a v).writeBytes (a + 1) vs

/-- Write bytes from `a` on, but none at `cap` or above (R31). -/
def Memory.writeBelow (m : Memory) (cap : Nat) : Nat → List Byte → Memory
  | _, [] => m
  | a, v :: vs => (if a < cap then m.write a v else m).writeBelow cap (a + 1) vs

/-- The cells are strictly rising in address. -/
def risingFrom : Nat → List Host.Cell → Bool
  | _, [] => true
  | lo, (a, _) :: rest => decide (lo ≤ a) && risingFrom (a + 1) rest

/-- The canonical form: addresses strictly rising, and no entry equal to what an unlisted address is known to read as. -/
def Memory.wf (m : Memory) : Bool :=
  risingFrom 0 m.cells &&
    match m.fill with
    | .zero => m.cells.all fun c => decide (c.2 ≠ 0#8)
    | .drawn _ => true

/-- Every listed address is below a bound. -/
def Memory.below (m : Memory) (cap : Nat) : Bool := m.cells.all fun c => decide (c.1 < cap)

/-! ## Completing a command (R83) -/

/-- What evaluating a command's operation answers: R83's Ok(bytes, path) or Err(e). -/
inductive Result where
  | ok (bytes : List Byte) (path : Path)
  | err (k : ErrorKind)
  deriving DecidableEq, Repr

/-- The end of a command with an error: what R136 and R144 say is saved. OUT takes any value (a fresh draw). -/
def State.raise (s : State) (k : ErrorKind) : State :=
  { s with
    status := s.status.onError k
    outLen := 0
    outBuf := Memory.blank (.drawn s.draws)
    phase := .idle
    draws := s.draws + 1 }

/-- The "return" from an error (R145): a STATUS write of ones to DONE and ERR. Any other value of `v` clears what R126
says. -/
def State.clearStatus (s : State) (v : Word) : State :=
  { s with status := s.status.writeOneToClear v }

/-- The commit of a result that fits (R83): OUT[0..len) is the result, the rest of OUT takes any value. -/
def State.commit (s : State) (bytes : List Byte) (p : Path) : State :=
  { s with
    status := s.status.onSuccess p
    outLen := bytes.length
    outBuf := (Memory.blank (.drawn s.draws)).writeBytes 0 bytes
    phase := .idle
    draws := s.draws + 1 }

/-- The one indivisible update of the engine step (R83), with the overflow of R95. -/
def State.complete (s : State) : Result → State
  | .ok bytes p => if s.cfg.outCap < bytes.length then s.raise .outputOverflow else s.commit bytes p
  | .err k => s.raise k

/-! ## Acceptance, refusal, reset -/

/-- Command acceptance (R122). The engine's sequencing restarts (assumption 3). -/
def State.accept (s : State) (v : Word) : State :=
  { s with
    phase := .busy v s.inLen
    status := s.status.onAccept
    outLen := 0
    engine := { s.engine with attempt := .none, seq := .start } }

/-- A host write refused because PHASE = BUSY (R23). -/
def State.refuse (s : State) : State := { s with status := s.status.onRefused }

/-- Hard and soft reset have the same effect (R151): the table of R40, with free draws not used before. What the outside
world does next, the last read value and the parameters are not the block's to reset. -/
def State.toReset (s : State) : State :=
  { State.resetWith s.cfg s.draws with pending := s.pending, rdata := s.rdata }

/-- The answer of a host read. -/
def State.answer (s : State) (v : Word) : State := { s with rdata := v }

end Sys2Proof.Machine
end

