-- ==== Sys2Proof/Machine/Decoder.lean ====
section
/-! DEFINITION. The core decoder over the engine's working registers (spec/40_decompress.md R81 to R90) and the two
decompression operations (R91 to R94). -/

namespace Sys2Proof.Machine

open Sys2Proof

/-- RingRead(a) (R10). -/
def Engine.ringRead (e : Engine) (a : Nat) : Byte := e.ring.read (a % ringSize)

/-- Produce(c): append to the output, store at RPOS, advance RPOS (R81, R89). -/
def Engine.produce (e : Engine) (c : Byte) : Engine :=
  { e with
    produced := e.produced ++ [c]
    op := e.op + 1
    ring := e.ring.write e.rpos.toNat c
    rpos := e.rpos + 1#12 }

/-- `stop` (R87). -/
def Engine.stopAt (e : Engine) (p : StopPoint) : Engine := { e with seq := .stopped p }

/-- Decode initialisation (R82), for the payload IN[lo..hi). -/
def Engine.beginDecode (e : Engine) (a : Attempt) (lo hi : Nat) : Engine :=
  { e with
    ring := Memory.blank .zero
    rpos := initCursor
    flags := 0#16
    ip := lo
    endIdx := hi
    op := 0
    attempt := a
    seq := .flagStep
    produced := [] }

/-- The flag step (R84) with the flag byte `f` that a due fetch takes. -/
def Engine.flagStep (e : Engine) (f : Byte) : Engine :=
  if e.fetchDue then
    if e.endIdx ≤ e.ip then ({ e with flags := e.shiftedFlags }).stopAt .atFlag
    else { e with flags := 0xFF00#16 ||| f.setWidth 16, ip := e.ip + 1, seq := .unit }
  else { e with flags := e.shiftedFlags, seq := .unit }

/-- The literal unit (R85). -/
def Engine.literal (e : Engine) (c : Byte) : Engine :=
  if e.endIdx ≤ e.ip then e.stopAt .atLit
  else { e.produce c with ip := e.ip + 1, seq := .flagStep }

/-- The copy loop of R86: for each k the ring is read, then written. `m` bytes from k on. -/
def Engine.copyRing (off : Nat) : Nat → Nat → Engine → Engine
  | _, 0, e => e
  | k, m + 1, e => Engine.copyRing off (k + 1) m (e.produce (e.ringRead (off + k)))

/-- The back-reference unit (R86, R88). -/
def Engine.backReference (e : Engine) (off len : Nat) : Engine :=
  if e.endIdx - e.ip < 2 then e.stopAt .atRef
  else { Engine.copyRing off 0 len e with ip := e.ip + 2, seq := .flagStep }

/-- One point of the loop of R81: the flag step, or the unit that FLAGS[0] selects. -/
def Engine.advance (inB : Nat → Byte) (e : Engine) : Engine :=
  match e.seq with
  | .start => e
  | .flagStep => e.flagStep (e.flagOperand inB)
  | .unit =>
    if e.selectsLit then e.literal (e.peek inB 0)
    else e.backReference (refOffset (e.peek inB 0) (e.peek inB 1)).toNat (refLength (e.peek inB 1))
  | .stopped _ => e

/-- `k` points of the loop. -/
def Engine.advanceBy (inB : Nat → Byte) : Nat → Engine → Engine
  | 0, e => e
  | k + 1, e => Engine.advanceBy inB k (e.advance inB)

/-- Decode(IN[lo..hi)) (R81). Each turn of the loop consumes a byte or stops (R90 (a)), so hi − lo + 1 turns of a flag
step and a unit reach the stop. -/
def Engine.decode (inB : Nat → Byte) (a : Attempt) (lo hi : Nat) (e : Engine) : Engine :=
  Engine.advanceBy inB (2 * (hi - lo) + 2) (e.beginDecode a lo hi)

/-- Decode(p) of a byte sequence (R81), on working registers of no account (R90 (c)). -/
def decodeBytes (p : List Byte) : List Byte :=
  (Engine.decode (fun i => p.getD i 0#8) .headerless 0 p.length (Engine.atReset 0)).produced

/-- HeaderAccept(size, n) (R92), in unbounded integers (R91). -/
def headerAccept (policy : HdrPolicy) (size n : Nat) : Bool :=
  match policy with
  | .fits => decide (hdrBytes ≤ n) && decide (hdrBytes + size ≤ n)
  | .exact => decide (hdrBytes ≤ n) && decide (hdrBytes + size = n)

/-- The header's size at IN[0..3] (R91). -/
def headerSize (inB : Nat → Byte) : Word := hdrSize (inB 0) (inB 1) (inB 2) (inB 3)

/-- The header attempt is made and accepted (R93). -/
def takesHeader (policy : HdrPolicy) (inB : Nat → Byte) (n : Nat) : Bool :=
  decide (hdrBytes ≤ n) && headerAccept policy (headerSize inB).toNat n

/-- The headerless reading, the fallback of R93. -/
def fallbackDecode (inB : Nat → Byte) (n : Nat) (e : Engine) : Result × Engine :=
  let e2 := Engine.decode inB .headerless 0 n e
  if e2.produced.isEmpty then (.err .decodeEmptyOutput, e2) else (.ok e2.produced .headerless, e2)

/-- DECOMPRESS (R93): the header reading first, then the headerless one. -/
def decompressOp (policy : HdrPolicy) (inB : Nat → Byte) (n : Nat) (e : Engine) : Result × Engine :=
  if n = 0 then (.err .emptyInput, e)
  else if takesHeader policy inB n then
    let e1 := Engine.decode inB .header hdrBytes (hdrBytes + (headerSize inB).toNat) e
    if e1.produced.isEmpty then fallbackDecode inB n e1 else (.ok e1.produced .header, e1)
  else fallbackDecode inB n e

/-- DECOMPRESS_RAW (R94). -/
def decompressRawOp (inB : Nat → Byte) (n : Nat) (e : Engine) : Result × Engine :=
  if n = 0 then (.err .emptyInput, e)
  else
    let e2 := Engine.decode inB .headerless 0 n e
    (.ok e2.produced .headerless, e2)

/-- The header unit on its own (R91, R92): an accepted header sets up the decode of its payload, a rejected one is an
attempt with an empty result, so the headerless reading is set up (R93). -/
def Engine.header (policy : HdrPolicy) (size : Word) (n : Nat) (e : Engine) : Engine :=
  if headerAccept policy size.toNat n then e.beginDecode .header hdrBytes (hdrBytes + size.toNat)
  else e.beginDecode .headerless 0 n

end Sys2Proof.Machine
end

