-- ==== Sys2Proof/Machine/Compressor.lean ====
section
/-! DEFINITION. The compressor (spec/41_compress.md R101 to R114): match selection, emission and the greedy loop. -/

namespace Sys2Proof.Machine

open Sys2Proof

/-- The ring address p(d) = (RPOS − d) mod 4096 (R104). -/
def Engine.matchAddr (e : Engine) (d : Nat) : BitVec 12 := e.rpos - BitVec.ofNat 12 d

/-- src(d, k) (R105): history, or for k ≥ d the bytes of this same unit. -/
def Engine.matchSource (inB : Nat → Byte) (e : Engine) (d k : Nat) : Byte :=
  if k < d then e.ringRead ((e.matchAddr d).toNat + k) else inB (e.cpos + k - d)

/-- How far the match goes on from position k, with `r` positions left. -/
def Engine.matchFrom (inB : Nat → Byte) (e : Engine) (d : Nat) : Nat → Nat → Nat
  | 0, k => k
  | r + 1, k => if e.matchSource inB d k = inB (e.cpos + k) then Engine.matchFrom inB e d r (k + 1) else k

/-- lim = min(18, n − CPOS) (R105). -/
def Engine.matchLimit (e : Engine) (n : Nat) : Nat := min lookahead (n - e.cpos)

/-- m(d), the match length of the candidate at distance d (R105). -/
def Engine.matchLength (inB : Nat → Byte) (n : Nat) (e : Engine) (d : Nat) : Nat :=
  Engine.matchFrom inB e d (e.matchLimit n) 0

/-- The longest of the lengths m(1) … m(D), and the smallest distance that has it (R106). -/
def longestNearest (m : Nat → Nat) : Nat → Nat × Nat
  | 0 => (0, 1)
  | d + 1 =>
    let best := longestNearest m d
    if best.1 < m (d + 1) then (m (d + 1), d + 1) else best

/-- Select(CPOS) (R104, R106). -/
def Engine.select (inB : Nat → Byte) (n maxDist : Nat) (e : Engine) : Nat × Nat :=
  longestNearest (e.matchLength inB n) maxDist

/-- Append bytes to the stream (R10 `emit`), OP counting them (R31). -/
def Engine.emit (e : Engine) (bs : List Byte) : Engine :=
  { e with produced := e.produced ++ bs, op := e.op + bs.length }

/-- Open a group with control byte 0x00 when none is open (R109). -/
def Engine.openGroup (e : Engine) : Engine :=
  if e.grpBit = groupUnits then ({ e with grpIdx := e.op, grpBit := 0 }).emit [0#8] else e

/-- Set the current unit's control bit to literal (R109). -/
def Engine.markLiteral (e : Engine) : Engine :=
  { e with produced := e.produced.set e.grpIdx (e.produced.getD e.grpIdx 0#8 ||| (1#8 <<< e.grpBit)) }

/-- Emit the unit of R107 and R108 for the selection (L, d). -/
def Engine.emitUnit (inB : Nat → Byte) (e : Engine) (len d : Nat) : Engine :=
  if minMatch ≤ len then e.emit [refByte0 (e.matchAddr d), refByte1 (e.matchAddr d) len]
  else e.markLiteral.emit [inB e.cpos]

/-- The input bytes a unit covers (R107). -/
def unitSpan (len : Nat) : Nat := if minMatch ≤ len then len else 1

/-- Write the `u` covered input bytes into RING at RPOS (R111). -/
def Engine.absorb (inB : Nat → Byte) : Nat → Nat → Engine → Engine
  | _, 0, e => e
  | i, u + 1, e => Engine.absorb inB (i + 1) u
      { e with ring := e.ring.write e.rpos.toNat (inB i), rpos := e.rpos + 1#12 }

/-- One turn of the loop of R101. -/
def Engine.compressUnit (inB : Nat → Byte) (n maxDist : Nat) (e : Engine) : Engine :=
  let sel := e.select inB n maxDist
  let u := unitSpan sel.1
  let e1 := e.openGroup.emitUnit inB sel.1 sel.2
  let e2 := Engine.absorb inB e.cpos u { e1 with grpBit := e1.grpBit + 1 }
  { e2 with cpos := e.cpos + u }

/-- The loop of R101: at most n turns (R112). -/
def Engine.compressLoop (inB : Nat → Byte) (n maxDist : Nat) : Nat → Engine → Engine
  | 0, e => e
  | k + 1, e => if n ≤ e.cpos then e else Engine.compressLoop inB n maxDist k (e.compressUnit inB n maxDist)

/-- The start of COMPRESS (R101, R103); TREE takes an implementation-defined content (R36). -/
def Engine.beginCompress (e : Engine) (tree : List Nat) : Engine :=
  { e with
    ring := Memory.blank .zero
    rpos := initCursor
    op := 0
    cpos := 0
    grpIdx := 0
    grpBit := groupUnits
    tree := tree
    produced := [] }

/-- COMPRESS of IN[0..n) (R101, R102, R113). -/
def compressOp (inB : Nat → Byte) (n maxDist : Nat) (tree : List Nat) (e : Engine) : Result × Engine :=
  if n = 0 then (.ok [] .none, e)
  else
    let e2 := Engine.compressLoop inB n maxDist n (e.beginCompress tree)
    (.ok e2.produced .none, e2)

/-- Compress(b) of a byte sequence, on working registers of no account (R118). -/
def compressBytes (maxDist : Nat) (b : List Byte) : List Byte :=
  (Engine.compressLoop (fun i => b.getD i 0#8) b.length maxDist b.length
    ((Engine.atReset 0).beginCompress [])).produced

end Sys2Proof.Machine
end

