-- ==== Sys2Proof/Machine/Commands.lean ====
section
/-! DEFINITION. The meanings of the commands: the engine command step of spec/40_decompress.md R83 for DECOMPRESS (R93),
DECOMPRESS_RAW (R94), COMPRESS (spec/41_compress.md R101) and a reserved code (spec/60_exceptions.md R139). The operand is
IN[0..n) with the n of PHASE (R34). While PHASE = IDLE the engine does nothing (R150; assumption 11). -/

namespace Sys2Proof.Machine

open Sys2Proof

/-- The update of R83: the working registers that the operation left, and its result committed. -/
def State.finish (s : State) (r : Result × Engine) : State := ({ s with engine := r.2 }).complete r.1

/-- DECOMPRESS (R93). DESIGN CHOICE: it does not look at the code in PHASE, by which R83 selects it: while BUSY with
another code the step never runs it, and it does the same (assumption 20). -/
def execDecompress (s : State) : Host.Outcome State Fault Refusal :=
  match s.phase with
  | .idle => .next s
  | .busy _ n => .next (s.finish (decompressOp s.cfg.hdrPolicy s.inByte n s.engine))

/-- DECOMPRESS_RAW (R94). DESIGN CHOICE: it does not look at the code in PHASE, by which R83 selects it: while BUSY with
another code the step never runs it, and it does the same (assumption 20). -/
def execDecompressRaw (s : State) : Host.Outcome State Fault Refusal :=
  match s.phase with
  | .idle => .next s
  | .busy _ n => .next (s.finish (decompressRawOp s.inByte n s.engine))

/-- COMPRESS (R101). DESIGN CHOICE: it does not look at the code in PHASE, by which R83 selects it: while BUSY with
another code the step never runs it, and it does the same (assumption 20). -/
def execCompress (s : State) : Host.Outcome State Fault Refusal :=
  match s.phase with
  | .idle => .next s
  | .busy _ n => .next (s.finish (compressOp s.inByte n s.cfg.maxDist (Config.freeTree s.draws) s.engine))

/-- A reserved command word fails with BAD_COMMAND and reads no IN byte (R77, R139). DESIGN CHOICE: it does not look at
the code in PHASE, by which R83 selects it: while BUSY with another code the step never runs it, and it does the same
(assumption 20); so also with a word that is not reserved (assumption 21). -/
def execBadCommand (_code : Word) (s : State) : Host.Outcome State Fault Refusal :=
  match s.phase with
  | .idle => .next s
  | .busy _ _ => .next (s.raise .badCommand)

end Sys2Proof.Machine
end

