-- ==== Sys2Proof/Machine/HostAccess.lean ====
section
/-! DEFINITION. The meanings of the host's operations (spec/42_control.md R122 to R130) and of the accesses that are no
operation (R47, R52, R53). -/

namespace Sys2Proof.Machine

open Sys2Proof

/-- CMD write, accepted (R122). The same write while BUSY is refused (R123; assumption 11). -/
def execCmdWriteAccepted (v : Word) (s : State) : Host.Outcome State Fault Refusal :=
  match s.phase with
  | .idle => .next (s.accept v)
  | .busy _ _ => .next s.refuse

/-- CMD write, refused (R123). The same write while IDLE is accepted (R122; assumption 11). -/
def execCmdWriteRefused (v : Word) (s : State) : Host.Outcome State Fault Refusal :=
  match s.phase with
  | .idle => .next (s.accept v)
  | .busy _ _ => .next s.refuse

/-- CTRL write: IE, then the soft reset if SRST = 1 (R124). -/
def execCtrlWrite (v : Word) (s : State) : Host.Outcome State Fault Refusal :=
  let s1 := { s with ie := v.getLsbD 0 }
  .next (if srstBit v then s1.toReset else s1)

/-- Soft reset (R125): every item of the reset table, the running command cancelled. A word with SRST = 0, which no
SOFT_RESET has, does the same (assumption 21). -/
def execSoftReset (_v : Word) (s : State) : Host.Outcome State Fault Refusal :=
  .next s.toReset

/-- STATUS write (R126). -/
def execStatusWrite (v : Word) (s : State) : Host.Outcome State Fault Refusal :=
  .next (s.clearStatus v)

/-- IN_LEN write: min(v, IN_CAP) while IDLE, refused while BUSY (R127, R32). -/
def execInLenWrite (v : Word) (s : State) : Host.Outcome State Fault Refusal :=
  match s.phase with
  | .idle => .next { s with inLen := min v.toNat s.cfg.inCap }
  | .busy _ _ => .next s.refuse

/-- IN window access (R128): a read in any phase, a write while IDLE; a write while BUSY is refused. An access
that does not fit the window (R53) is never decoded to this row (assumption 21). -/
def execInWindowAccess (op : WindowOp) (i : Nat) (w : Width) (s : State) : Host.Outcome State Fault Refusal :=
  match op with
  | .read => .next (s.answer (assemble (s.inBuf.readBytes i w.bytes)))
  | .write v =>
    match s.phase with
    | .idle => .next { s with inBuf := s.inBuf.writeBytes i (dataBytes w v) }
    | .busy _ _ => .next s.refuse

/-- OUT window read (R129): while BUSY each read returns any value (a fresh draw; two reads may differ). An
access that does not fit the window (R53) is never decoded to this row (assumption 21). -/
def execOutWindowRead (i : Nat) (w : Width) (s : State) : Host.Outcome State Fault Refusal :=
  match s.phase with
  | .idle => .next (s.answer (assemble (s.outBuf.readBytes i w.bytes)))
  | .busy _ _ =>
    .next { s.answer (assemble ((Memory.blank (.drawn s.draws)).readBytes i w.bytes)) with draws := s.draws + 1 }

/-- The value of a register as the host reads it (R130, R32, R33). -/
def State.regWord (s : State) : Reg → Word
  | .ctrl => s.ctrlWord
  | .cmd => 0#32
  | .status => s.statusWord
  | .inLen => BitVec.ofNat 32 s.inLen
  | .outLen => BitVec.ofNat 32 s.outLen

/-- Register read (R130): no other effect (R55). -/
def execRegisterRead (r : Reg) (s : State) : Host.Outcome State Fault Refusal :=
  .next (s.answer (s.regWord r))

/-- An access the decoder rejects: a read returns 0, a write does nothing (R47, R52, R53, R129, R130). -/
def State.ignoreAccess (s : State) : Access → State
  | .read _ _ => s.answer 0#32
  | .write _ _ _ => s

end Sys2Proof.Machine
end

