-- ==== Sys2Proof/Machine/Stream.lean ====
section
/-! DEFINITION. The meanings of the stream instructions FLAG, LIT, REF and HDR (spec/40_decompress.md R84 to R88, R91,
R92) over the working registers of a state. -/

namespace Sys2Proof.Machine

open Sys2Proof

/-- The effect of one stream unit on the state: the working registers after it, and each byte it produced at OUT[OP] when
OP < OUT_CAP (spec/10_state.md R31). A longer output fails at the command's completion (R95; assumption 3). -/
def State.runUnit (s : State) (e : Engine) : State :=
  { s with
    engine := e
    outBuf := s.outBuf.writeBelow s.cfg.outCap s.engine.op (e.produced.drop s.engine.produced.length) }

/-- FLAG (R84). DESIGN CHOICE: with no decode running (PHASE = IDLE among others), or inside one when a unit is due, the
step never runs it, and it acts on the working registers all the same (assumption 19). -/
def execFlag (f : Byte) (s : State) : Host.Outcome State Fault Refusal :=
  .next { s with engine := s.engine.flagStep f }

/-- LIT (R85). DESIGN CHOICE: with no decode running (PHASE = IDLE among others), or inside one when the flag step is due
or FLAGS[0] = 0, the step never runs it, and it acts on the working registers and OUT all the same (assumption 19). -/
def execLit (c : Byte) (s : State) : Host.Outcome State Fault Refusal :=
  .next (s.runUnit (s.engine.literal c))

/-- REF (R86, R88). DESIGN CHOICE: with no decode running (PHASE = IDLE among others), or inside one when the flag step is
due or FLAGS[0] = 1, the step never runs it, and it acts on the working registers and OUT all the same (assumption 19). An
offset or length outside the ranges of R78 is assumption 21. -/
def execRef (off len : Nat) (s : State) : Host.Outcome State Fault Refusal :=
  .next (s.runUnit (s.engine.backReference off len))

/-- HDR (R91, R92), for the command's length n; there is no header to read while PHASE = IDLE (assumption 11). DESIGN
CHOICE: while BUSY with a command other than DECOMPRESS (R91), or once the decode has begun, the step never runs it, and
it sets up a decode all the same (assumption 19). -/
def execHdr (size : Word) (s : State) : Host.Outcome State Fault Refusal :=
  match s.phase with
  | .idle => .next s
  | .busy _ n => .next { s with engine := s.engine.header s.cfg.hdrPolicy size n }

end Sys2Proof.Machine
end

