-- ==== Sys2Proof/Machine/Dispatch.lean ====
section
/-! DEFINITION. The meaning of every instruction, one arm per constructor. -/

namespace Sys2Proof.Machine

open Sys2Proof

def exec (i : Instr) (s : State) : Host.Outcome State Fault Refusal :=
  match i with
  | .flag f => Sys2Proof.Machine.execFlag f s
  | .lit c => Sys2Proof.Machine.execLit c s
  | .ref off len => Sys2Proof.Machine.execRef off len s
  | .hdr size => Sys2Proof.Machine.execHdr size s
  | .decompress => Sys2Proof.Machine.execDecompress s
  | .decompressRaw => Sys2Proof.Machine.execDecompressRaw s
  | .compress => Sys2Proof.Machine.execCompress s
  | .badCommand code => Sys2Proof.Machine.execBadCommand code s
  | .cmdWriteAccepted v => Sys2Proof.Machine.execCmdWriteAccepted v s
  | .cmdWriteRefused v => Sys2Proof.Machine.execCmdWriteRefused v s
  | .ctrlWrite v => Sys2Proof.Machine.execCtrlWrite v s
  | .softReset v => Sys2Proof.Machine.execSoftReset v s
  | .statusWrite v => Sys2Proof.Machine.execStatusWrite v s
  | .inLenWrite v => Sys2Proof.Machine.execInLenWrite v s
  | .inWindowAccess op idx w => Sys2Proof.Machine.execInWindowAccess op idx w s
  | .outWindowRead idx w => Sys2Proof.Machine.execOutWindowRead idx w s
  | .registerRead r => Sys2Proof.Machine.execRegisterRead r s

end Sys2Proof.Machine
end

