-- ==== Sys2Proof/Machine/Fetch.lean ====
section
/-! DEFINITION. What the next step runs: the oldest pending event, decoded to an instruction, or the quiet effect of an
event that is no instruction (assumptions 2 and 3). -/

namespace Sys2Proof.Machine

open Sys2Proof

/-- What a step does: run an instruction on a state, or go to a state with no instruction run. -/
inductive Fetched where
  | run (i : Instr) (s : State)
  | quiet (s : State)
  deriving DecidableEq, Repr

/-- The block-relative access of a bus address, if the address lies in the block's region (R46: BLOCK_BASE is the
platform's). -/
def blockAddress (cfg : Config) (busAddr : Nat) : Option Word :=
  if cfg.blockBase ≤ busAddr ∧ busAddr < cfg.blockBase + regionSpan then
    some (BitVec.ofNat 32 (busAddr - cfg.blockBase))
  else none

/-- A host access (R121): the instruction it decodes to, or its effect when it is none. -/
def State.fetchAccess (s : State) (a : Access) : Fetched :=
  match decodeAccess s.cfg s.busy a with
  | .ok i => .run i s
  | .error _ => .quiet (s.ignoreAccess a)

/-- The engine's command step (R83), if BUSY. -/
def State.fetchCommand (s : State) : Fetched :=
  match s.phase with
  | .idle => .quiet s
  | .busy code _ => .run (decodeCommand code) s

/-- The first flag step of the headerless reading IN[0..n), with the decode set up (R82, R93). -/
def State.fetchHeaderless (s : State) (n : Nat) : Fetched :=
  let e := s.engine.beginDecode .headerless 0 n
  .run (decodeFlag (e.flagOperand s.inByte)) { s with engine := e }

/-- The next stream instruction of the running command, fetched at IP; the command itself when no stream instruction
is left or it has none (assumption 3). -/
def State.fetchUnit (s : State) : Fetched :=
  match s.phase with
  | .idle => .quiet s
  | .busy code n =>
    match s.engine.seq with
    | .start =>
      if code = 1#32 ∧ hdrBytes ≤ n then
        .run (decodeHdr (s.inByte 0) (s.inByte 1) (s.inByte 2) (s.inByte 3)) s
      else if (code = 1#32 ∨ code = 2#32) ∧ n ≠ 0 then s.fetchHeaderless n
      else .run (decodeCommand code) s
    | .flagStep => .run (decodeFlag (s.engine.flagOperand s.inByte)) s
    | .unit =>
      if s.engine.selectsLit then .run (decodeLit (s.engine.peek s.inByte 0)) s
      else .run (decodeRef (s.engine.peek s.inByte 0) (s.engine.peek s.inByte 1)) s
    | .stopped _ =>
      if s.engine.attempt = .header ∧ s.engine.produced = [] then s.fetchHeaderless n
      else .run (decodeCommand code) s

/-- The next event, taken off the list. -/
def State.fetchEvent (s : State) : Event → Fetched
  | .read busAddr w =>
    match blockAddress s.cfg busAddr with
    | some addr => s.fetchAccess (.read addr w)
    | none => .quiet s
  | .write busAddr w v =>
    match blockAddress s.cfg busAddr with
    | some addr => s.fetchAccess (.write addr w v)
    | none => .quiet s
  | .command => s.fetchCommand
  | .unit => s.fetchUnit
  | .hardReset => .quiet s.toReset

/-- The oldest pending event; with none pending the engine has its turn (spec/70_reset_and_hazards.md R164: the step
happens after a finite time; R150: an idle block does nothing). -/
def fetch (s : State) : Fetched :=
  match s.pending with
  | [] => s.fetchCommand
  | ev :: rest => ({ s with pending := rest }).fetchEvent ev

/-! ## Placing one instruction where the next step fetches -/

/-- A state whose engine is BUSY with a headerless decode of the bytes `bs` placed in IN, at a point of the loop. -/
def State.withStream (s : State) (bs : List Byte) (q : Seq) : State :=
  { s with
    phase := .busy 2#32 bs.length
    inBuf := s.inBuf.writeBytes 0 bs
    engine := { s.engine.beginDecode .headerless 0 bs.length with seq := q }
    pending := .unit :: s.pending }

/-- A command accepted with IN_LEN as it stands, and the engine's turn next. -/
def State.withCommand (s : State) (code : Word) : State :=
  { s.accept code with pending := .command :: s.pending }

/-- A host access next. An accepted CMD write needs PHASE = IDLE. -/
def State.withBus (s : State) (a : Access) : State :=
  match a with
  | .read addr w => { s with pending := .read (s.cfg.blockBase + addr.toNat) w :: s.pending }
  | .write addr w v =>
    { s with
      phase := if addr = 4#32 then .idle else s.phase
      pending := .write (s.cfg.blockBase + addr.toNat) w v :: s.pending }

/-- Whether a table word is a command, a write or a read follows `decodeTable32`. -/
def State.withWord32 (s : State) (w : Word) : State :=
  match decodeTable32 w with
  | .decompress => s.withCommand w
  | .decompressRaw => s.withCommand w
  | .compress => s.withCommand w
  | .badCommand _ => s.withCommand w
  | .outWindowRead _ _ => s.withBus (.read w .w32)
  | .registerRead _ => s.withBus (.read w .w32)
  | .inWindowAccess .read _ _ => s.withBus (.read w .w32)
  | .inWindowAccess (.write _) _ _ => s.withBus (.write w .w32 0#32)
  | .cmdWriteAccepted _ => s.withBus (.write w .w32 0#32)
  | .cmdWriteRefused _ => s.withBus (.write w .w32 0#32)
  | .ctrlWrite _ => s.withBus (.write w .w32 0#32)
  | .softReset _ => s.withBus (.write w .w32 0#32)
  | .statusWrite _ => s.withBus (.write w .w32 0#32)
  | .inLenWrite _ => s.withBus (.write w .w32 0#32)
  | .flag _ => s
  | .lit _ => s
  | .ref _ _ => s
  | .hdr _ => s

/-- One instruction of the opcode table where the next step fetches (assumption 9). -/
def State.placeTableWord (s : State) (nbits w : Nat) : State :=
  if nbits = 8 then s.withStream [BitVec.ofNat 8 w] .flagStep
  else if nbits = 16 then s.withStream [BitVec.ofNat 8 w, BitVec.ofNat 8 (w / 256)] .unit
  else if nbits = 32 then s.withWord32 (BitVec.ofNat 32 w)
  else s

end Sys2Proof.Machine
end

