-- ==== Sys2Proof/Machine/Step.lean ====
section
/-! DEFINITION. One step: fetch, then run. -/

namespace Sys2Proof.Machine

open Sys2Proof

/-- Run what was fetched. -/
def Fetched.outcome : Fetched → Host.Outcome State Fault Refusal
  | .run i s => exec i s
  | .quiet s => .next s

/-- One step of the block: one host access, one engine turn, or a reset (R54, R83). -/
def step (s : State) : Host.Outcome State Fault Refusal := (fetch s).outcome

/-- The state with one table instruction where `step` fetches its next one. -/
def State.withFetchWord (s : State) (nbits w : Nat) : State := s.placeTableWord nbits w

end Sys2Proof.Machine
end

