-- ==== Sys2Proof/Safety.lean ====
section
/-! DEFINITION. What the statements call a good state: the invariant that every step keeps, and the rows of steps they
speak about. -/

namespace Sys2Proof.Machine

open Sys2Proof

/-- The three memories are canonical and stay inside their spaces (spec/20_memory.md R45). -/
abbrev State.memoriesGood (s : State) : Prop :=
  s.inBuf.wf = true ∧ s.inBuf.below s.cfg.inCap = true ∧
  s.outBuf.wf = true ∧ s.outBuf.below s.cfg.outCap = true ∧
  s.engine.ring.wf = true ∧ s.engine.ring.below ringSize = true

/-- STATUS as its rules leave it: ERRCODE is 0 while ERR = 0 (R24) and one of 1 to 4 while ERR = 1 (R134), PATH is never 3
and 0 while ERR = 1 (R25). -/
abbrev Status.good (st : Status) : Prop :=
  (st.err = false → st.errCode = 0#4) ∧
  (st.err = true → st.path = 0#2 ∧ (st.errCode = 1#4 ∨ st.errCode = 2#4 ∨ st.errCode = 3#4 ∨ st.errCode = 4#4)) ∧
  st.path ≠ 3#2

/-- The n of BUSY(code, n) (R34); 0 while IDLE. -/
def Phase.acceptedLength : Phase → Nat
  | .idle => 0
  | .busy _ n => n

/-- While BUSY: n is IN_LEN (R34, R57), DONE = ERR = 0, ERRCODE = PATH = 0 (R122) and OUT_LEN = 0 (R33), and a decode in
progress stays inside IN[0..n) (R97). -/
abbrev State.busyGood (s : State) : Prop :=
  s.busy = true →
    s.phase.acceptedLength = s.inLen ∧ s.status.done = false ∧ s.status.err = false ∧ s.status.errCode = 0#4 ∧
    s.status.path = 0#2 ∧ s.outLen = 0 ∧ (s.engine.seq ≠ .start → s.engine.endIdx ≤ s.phase.acceptedLength)

/-- The working registers stay in their ranges: IP never exceeds END (R29), OP counts the produced bytes (R31), GRP_BIT is
0..8 (R35). -/
abbrev Engine.good (e : Engine) : Prop :=
  e.ip ≤ e.endIdx ∧ e.op = e.produced.length ∧ e.grpBit ≤ groupUnits

/-- The invariant. -/
abbrev State.Inv (s : State) : Prop :=
  s.cfg.wf ∧ s.inLen ≤ s.cfg.inCap ∧ s.outLen ≤ s.cfg.outCap ∧
  s.memoriesGood ∧ s.status.good ∧ s.busyGood ∧ s.engine.good

/-- The instruction the next step runs, if it runs one. -/
def State.nextInstr (s : State) : Option Instr :=
  match fetch s with
  | .run i _ => some i
  | .quiet _ => none

/-- The next step is a hard reset (R151 (a)). -/
def State.hardResetNext (s : State) : Bool :=
  match s.pending with
  | .hardReset :: _ => true
  | .read _ _ :: _ => false
  | .write _ _ _ :: _ => false
  | .command :: _ => false
  | .unit :: _ => false
  | [] => false

/-- The next step is a soft reset (R125). -/
def State.softResetNext (s : State) : Prop := ∃ v, s.nextInstr = some (.softReset v)

/-- The next step is a reset of either source (R151). -/
def State.resetNext (s : State) : Prop := s.hardResetNext = true ∨ s.softResetNext

/-- The next step runs one of the engine's commands. -/
def State.commandNext (s : State) : Prop :=
  s.nextInstr = some .decompress ∨ s.nextInstr = some .decompressRaw ∨ s.nextInstr = some .compress ∨
  ∃ code, s.nextInstr = some (.badCommand code)

/-- What a command leaves when it ends with an error (R136): STATUS, OUT_LEN, PHASE, and OUT under a draw not used before
("any value"). Everything else but the working registers is as before. -/
def State.failedWith (s t : State) (code : BitVec 4) : Prop :=
  t = { s with
    status := { done := true, err := true, ovr := s.status.ovr, errCode := code, path := 0#2 }
    outLen := 0, outBuf := Memory.blank (.drawn s.draws), phase := .idle, engine := t.engine, draws := s.draws + 1 }

/-- What a command leaves when it ends with the result `bytes` (R83): they stand at OUT[0..len), and the rest of OUT is
under a draw not used before. -/
def State.succeededWith (s t : State) (bytes : List Byte) (path : BitVec 2) : Prop :=
  t = { s with
    status := { done := true, err := false, ovr := s.status.ovr, errCode := 0#4, path := path }
    outLen := bytes.length, outBuf := t.outBuf, phase := .idle, engine := t.engine, draws := s.draws + 1 } ∧
  t.outBuf.fill = .drawn s.draws ∧
  ∀ i (h : i < bytes.length), t.outBuf.read i = bytes[i]

/-- A result that fits is committed, a longer one overflows (R83, R95). -/
def State.endsWith (s t : State) (bytes : List Byte) (path : BitVec 2) : Prop :=
  (bytes.length ≤ s.cfg.outCap → s.succeededWith t bytes path) ∧
  (s.cfg.outCap < bytes.length → s.failedWith t 3#4)

end Sys2Proof.Machine
end

