-- ==== Sys2Proof/Certificates/Slice0/Obligations.lean ====
section
/-! DEFINITION. The statements for the provers. Each docstring names the rules of spec/ that the statement formalises, or
says that it is the model's choice and names the log entry. -/

open Sys2Proof Sys2Proof.Machine

/-! ## Encoding -/

/-- Decoding an encoded well-formed instruction gives it back, for every parameter set in range and both phases (a CMD
write decodes to its accepted or refused row by the phase). -/
def Obligations.DecodeOfEncodeIsIdentity : Prop :=
  ∀ (cfg : Config) (busy : Bool) (i : Instr), cfg.wf → i.wellFormed cfg = true → i.admitsPhase busy = true →
    decode cfg busy (encode i) = .ok i

/-- Whatever decodes is well-formed, fits the phase, and is exactly the encoding of what it decodes to. -/
def Obligations.EncodeOfDecodeIsIdentity : Prop :=
  ∀ (cfg : Config) (busy : Bool) (c : Code) (i : Instr), cfg.wf → decode cfg busy c = .ok i →
    encode i = c ∧ i.wellFormed cfg = true ∧ i.admitsPhase busy = true

/-- R48: the header is little-endian, IN[0] least significant, in both directions. -/
def Obligations.HeaderSizeIsLittleEndian : Prop :=
  (∀ b0 b1 b2 b3 : Byte,
    (hdrSize b0 b1 b2 b3).toNat = b0.toNat + 256 * b1.toNat + 65536 * b2.toNat + 16777216 * b3.toNat) ∧
  ∀ v : Word, decodeStream .hdr (wordBytes v) = .ok (.hdr v, [])

/-- The worked encodings of R80, read by the decoder, and the encoder's bytes for them. -/
def Obligations.WorkedEncodingsDecode : Prop :=
  decodeStream .ref [0xEE#8, 0xF0#8] = .ok (.ref 4078 3, []) ∧
  decodeStream .ref [0x00#8, 0x0F#8] = .ok (.ref 0 18, []) ∧
  decodeStream .ref [0xFF#8, 0xFF#8] = .ok (.ref 4095 18, []) ∧
  decodeStream .ref [0x23#8, 0x17#8] = .ok (.ref 0x123 10, []) ∧
  decodeStream .flag [0x03#8, 0x41#8] = .ok (.flag 0x03#8, [0x41#8]) ∧
  decodeStream .lit [0x41#8] = .ok (.lit 0x41#8, []) ∧
  decodeStream .hdr [0x03#8, 0x00#8, 0x00#8, 0x00#8] = .ok (.hdr 3#32, []) ∧
  encode (.ref 0x123 10) = .stream .ref [0x23#8, 0x17#8] ∧
  decodeCommand 2#32 = .decompressRaw ∧ decodeCommand 4#32 = .badCommand 4#32

/-! ## The stream units -/

/-- R84: the flag step, on every state. With IP above END it stops as with IP = END, which is the model's choice
(assumption 12), as is its effect where the step would not run it: with no decode running, or with a unit due (assumption
19). And each fetched flag byte f serves exactly 8 units: after j more flag steps (j = 1..7) FLAGS is (0xFF00 | f) >> j
and FLAGS[0] is bit j of f, and the eighth makes a fetch due. -/
def Obligations.FlagStepShiftsFetchesOrStops : Prop :=
  (∀ (f : Byte) (s : State),
    exec (.flag f) s = .next { s with engine :=
      if (s.engine.flags >>> 1).getLsbD 8 = true then { s.engine with flags := s.engine.flags >>> 1, seq := .unit }
      else if s.engine.ip < s.engine.endIdx then
        { s.engine with flags := 0xFF00#16 ||| f.setWidth 16, ip := s.engine.ip + 1, seq := .unit }
      else { s.engine with flags := s.engine.flags >>> 1, seq := .stopped .atFlag } }) ∧
  (∀ (f g : Byte) (e : Engine), e.fetchDue = true → e.ip < e.endIdx →
    (∀ j ≤ 7, ((fun x : Engine => x.flagStep g)^[j] (e.flagStep f)).flags = (0xFF00#16 ||| f.setWidth 16) >>> j ∧
      ((fun x : Engine => x.flagStep g)^[j] (e.flagStep f)).selectsLit = f.getLsbD j ∧
      ((fun x : Engine => x.flagStep g)^[j] (e.flagStep f)).ip = e.ip + 1) ∧
    ((fun x : Engine => x.flagStep g)^[7] (e.flagStep f)).fetchDue = true)

/-- R85: a literal with no byte left stops; otherwise it appends c, stores it in RING at RPOS and at OUT[OP] when OP <
OUT_CAP (R31), and advances RPOS modulo 4096, IP and OP. Nothing else changes. The model's choices: it stops also with IP
above END (assumption 12), it goes on with OP advanced at OP = OUT_CAP and above, the command failing at its completion
(assumption 3), and it has its effect where the step would not run it: with no decode running, or with FLAGS[0] = 0
(assumption 19). -/
def Obligations.LiteralStoresOneByte : Prop :=
  (∀ (c : Byte) (s : State), ∃ t, exec (.lit c) s = .next t ∧
    (s.engine.endIdx ≤ s.engine.ip → t = { s with engine := { s.engine with seq := .stopped .atLit } }) ∧
    (s.engine.ip < s.engine.endIdx →
      t = { s with
        engine := { s.engine with
          ring := t.engine.ring, rpos := s.engine.rpos + 1#12, ip := s.engine.ip + 1, op := s.engine.op + 1
          produced := s.engine.produced ++ [c], seq := .flagStep }
        outBuf := t.outBuf } ∧
      (∀ a, t.engine.ring.read a = if a = s.engine.rpos.toNat then c else s.engine.ring.read a) ∧
      (∀ a, t.outBuf.read a = if a = s.engine.op ∧ a < s.cfg.outCap then c else s.outBuf.read a))) ∧
  decodeBytes [0x01#8, 0x41#8] = [0x41#8]

/-- R86, R88: a back-reference with fewer than 2 bytes left stops; otherwise it produces len bytes. Byte k is the byte
this same unit produced d places earlier when 1 ≤ d ≤ k (d the distance (RPOS − off) mod 4096), else the ring's byte at
(off + k) mod 4096 before the unit. They stand in RING from RPOS on and at OUT[OP..] below OUT_CAP (R31); every other byte
and register is as before. The model's choices: it stops also with IP above END (assumption 12), the unit writes OUT
itself and goes on with OP advanced past OUT_CAP, the command failing at its completion (assumption 3), and it has its
effect where the step would not run it: with no decode running, or with FLAGS[0] = 1 (assumption 19). -/
def Obligations.BackReferenceCopiesWithOverlap : Prop :=
  (∀ (off len : Nat) (s : State), off < 4096 → 3 ≤ len → len ≤ 18 → ∃ t, exec (.ref off len) s = .next t ∧
    (s.engine.endIdx - s.engine.ip < 2 → t = { s with engine := { s.engine with seq := .stopped .atRef } }) ∧
    (2 ≤ s.engine.endIdx - s.engine.ip → ∃ bs : List Byte, bs.length = len ∧
      (∀ k < len, bs.getD k 0#8 =
        if 1 ≤ (s.engine.rpos.toNat + 4096 - off) % 4096 ∧ (s.engine.rpos.toNat + 4096 - off) % 4096 ≤ k then
          bs.getD (k - (s.engine.rpos.toNat + 4096 - off) % 4096) 0#8
        else s.engine.ring.read ((off + k) % 4096)) ∧
      t = { s with
        engine := { s.engine with
          ring := t.engine.ring, rpos := s.engine.rpos + BitVec.ofNat 12 len, ip := s.engine.ip + 2
          op := s.engine.op + len, produced := s.engine.produced ++ bs, seq := .flagStep }
        outBuf := t.outBuf } ∧
      (∀ k < len, t.engine.ring.read ((s.engine.rpos.toNat + k) % 4096) = bs.getD k 0#8) ∧
      (∀ a, 4096 ≤ a ∨ len ≤ (a + 4096 - s.engine.rpos.toNat) % 4096 →
        t.engine.ring.read a = s.engine.ring.read a) ∧
      (∀ a, t.outBuf.read a =
        if s.engine.op ≤ a ∧ a < s.engine.op + len ∧ a < s.cfg.outCap then bs.getD (a - s.engine.op) 0#8
        else s.outBuf.read a))) ∧
  decodeBytes [0x01#8, 0x41#8, 0xEE#8, 0xF3#8] = List.replicate 7 0x41#8

/-- R91, R92: the header unit of a command of length n sets up the decode of IN[4..4+size) when HDR_POLICY accepts the
size. When it rejects it, the model sets up the headerless reading at once (the model's choice, assumption 3). That it
does so whatever the command word, and also once a decode has begun, is the model's choice (assumption 19). -/
def Obligations.HeaderUnitSelectsPayload : Prop :=
  ∀ (size code : Word) (n : Nat) (s : State), s.phase = .busy code n →
    ∃ t, exec (.hdr size) s = .next t ∧
    ((4 ≤ n ∧ (s.cfg.hdrPolicy = .fits ∧ 4 + size.toNat ≤ n ∨ s.cfg.hdrPolicy = .exact ∧ 4 + size.toNat = n)) →
      t = { s with engine := { s.engine with
        ring := Memory.blank .zero, rpos := 4078#12, flags := 0#16, ip := 4, endIdx := 4 + size.toNat, op := 0
        attempt := .header, seq := .flagStep, produced := [] } }) ∧
    (¬ (4 ≤ n ∧ (s.cfg.hdrPolicy = .fits ∧ 4 + size.toNat ≤ n ∨ s.cfg.hdrPolicy = .exact ∧ 4 + size.toNat = n)) →
      t = { s with engine := { s.engine with
        ring := Memory.blank .zero, rpos := 4078#12, flags := 0#16, ip := 0, endIdx := n, op := 0
        attempt := .headerless, seq := .flagStep, produced := [] } })

/-! ## The decoder -/

/-- R82: what a decode starts from, and that nothing carries from an earlier evaluation into its output. -/
def Obligations.DecodeStartsAfresh : Prop :=
  (∀ (e : Engine) (a : Attempt) (lo hi : Nat),
    (∀ x, (e.beginDecode a lo hi).ring.read x = 0#8) ∧ (e.beginDecode a lo hi).rpos = 4078#12 ∧
    (e.beginDecode a lo hi).flags = 0#16 ∧ (e.beginDecode a lo hi).ip = lo ∧ (e.beginDecode a lo hi).endIdx = hi ∧
    (e.beginDecode a lo hi).produced = [] ∧ (e.beginDecode a lo hi).fetchDue = true) ∧
  ∀ (inB : Nat → Byte) (a : Attempt) (lo hi : Nat) (e e' : Engine),
    (Engine.decode inB a lo hi e).produced = (Engine.decode inB a lo hi e').produced

/-- R87, R90 (a): every decode stops, and only at an exhausted input: at a flag fetch or a literal with IP = END, or at a
back-reference with fewer than 2 bytes left. -/
def Obligations.DecodeStopsOnlyAtInputEnd : Prop :=
  ∀ (inB : Nat → Byte) (a : Attempt) (lo hi : Nat) (e : Engine), lo ≤ hi →
    (Engine.decode inB a lo hi e).endIdx = hi ∧
    ((Engine.decode inB a lo hi e).seq = .stopped .atFlag ∧ (Engine.decode inB a lo hi e).ip = hi ∨
     (Engine.decode inB a lo hi e).seq = .stopped .atLit ∧ (Engine.decode inB a lo hi e).ip = hi ∨
     (Engine.decode inB a lo hi e).seq = .stopped .atRef ∧
       (Engine.decode inB a lo hi e).ip ≤ hi ∧ hi < (Engine.decode inB a lo hi e).ip + 2)

/-- R90 (c), (e): the output depends on the payload's bytes alone, wherever it stands and whatever lies around it. -/
def Obligations.DecodeDependsOnPayloadAlone : Prop :=
  ∀ (inB inB' : Nat → Byte) (a a' : Attempt) (lo lo' n : Nat) (e e' : Engine),
    (∀ i < n, inB (lo + i) = inB' (lo' + i)) →
    (Engine.decode inB a lo (lo + n) e).produced = (Engine.decode inB' a' lo' (lo' + n) e').produced

/-- R90 (b): each payload byte yields at most 9 output bytes. -/
def Obligations.DecodeOutputAtMostNineTimes : Prop :=
  ∀ p : List Byte, (decodeBytes p).length ≤ 9 * p.length

/-- R90 (d): a longer payload only adds output at the end. -/
def Obligations.DecodeIsMonotoneInPayload : Prop :=
  ∀ p q : List Byte, p <+: q → decodeBytes p <+: decodeBytes q

/-- R137: the headerless decode is empty exactly for fewer than 2 bytes, or for 2 bytes whose flag bit 0 is 0. -/
def Obligations.DecodeEmptyOnlyForShortPayloads : Prop :=
  ∀ p : List Byte, decodeBytes p = [] ↔
    p.length ≤ 1 ∨ (p.length = 2 ∧ (p.getD 0 0#8).getLsbD 0 = false)

/-- R89: after any decode RPOS and OP count the output, and its last min(len(out), 4096) bytes stand in RING at
(4078 + j) mod 4096. -/
def Obligations.RingHoldsRecentOutput : Prop :=
  ∀ (inB : Nat → Byte) (a : Attempt) (lo hi : Nat) (e : Engine),
    (Engine.decode inB a lo hi e).rpos.toNat = (4078 + (Engine.decode inB a lo hi e).produced.length) % 4096 ∧
    (Engine.decode inB a lo hi e).op = (Engine.decode inB a lo hi e).produced.length ∧
    ∀ j < (Engine.decode inB a lo hi e).produced.length,
      (Engine.decode inB a lo hi e).produced.length ≤ j + 4096 →
      (Engine.decode inB a lo hi e).ring.read ((4078 + j) % 4096) = (Engine.decode inB a lo hi e).produced.getD j 0#8

/-! ## The compressor -/

/-- R105: m(d) is the largest m ≤ lim with src(d, k) = IN[CPOS + k] for every k < m, src being history for k < d and this
unit's own bytes from d on. -/
def Obligations.MatchLengthIsLargestAgreement : Prop :=
  ∀ (inB : Nat → Byte) (n d : Nat) (e : Engine), d ≤ 4096 →
    (∀ k, e.matchSource inB d k =
      if k < d then e.ring.read (((e.rpos.toNat + 4096 - d) % 4096 + k) % 4096) else inB (e.cpos + k - d)) ∧
    e.matchLength inB n d ≤ min 18 (n - e.cpos) ∧
    (∀ k < e.matchLength inB n d, e.matchSource inB d k = inB (e.cpos + k)) ∧
    (e.matchLength inB n d < min 18 (n - e.cpos) →
      e.matchSource inB d (e.matchLength inB n d) ≠ inB (e.cpos + e.matchLength inB n d))

/-- R104, R106: Select answers the longest match over the distances 1..MAX_DIST and the smallest distance that has it. -/
def Obligations.SelectIsLongestThenNearest : Prop :=
  ∀ (inB : Nat → Byte) (n maxDist : Nat) (e : Engine), 1 ≤ maxDist →
    (∀ d, 1 ≤ d → d ≤ maxDist → e.matchLength inB n d ≤ (e.select inB n maxDist).1) ∧
    1 ≤ (e.select inB n maxDist).2 ∧ (e.select inB n maxDist).2 ≤ maxDist ∧
    e.matchLength inB n (e.select inB n maxDist).2 = (e.select inB n maxDist).1 ∧
    ∀ d, 1 ≤ d → d < (e.select inB n maxDist).2 → e.matchLength inB n d < (e.select inB n maxDist).1

/-- R107 to R109, R111: one turn of the compressor. A new group opens with control byte 0x00 when none is open. For a match
of L ≥ 3 at distance d it appends the two bytes of (RPOS − d) mod 4096 and L − 3 and advances by L; otherwise it sets the
unit's control bit, appends the input byte and advances by 1. The covered input bytes go into RING at RPOS. -/
def Obligations.CompressTurnEmitsOneUnit : Prop :=
  ∀ (inB : Nat → Byte) (n maxDist : Nat) (e : Engine), 1 ≤ maxDist → maxDist ≤ 4096 → e.cpos < n →
    e.op = e.produced.length → e.grpBit ≤ 8 → (e.grpBit < 8 → e.grpIdx < e.produced.length) →
    ∀ L d u idx bit : Nat, ∀ opened : List Byte,
      (L, d) = e.select inB n maxDist → u = (if 3 ≤ L then L else 1) →
      idx = (if e.grpBit = 8 then e.produced.length else e.grpIdx) → bit = (if e.grpBit = 8 then 0 else e.grpBit) →
      opened = (if e.grpBit = 8 then e.produced ++ [0#8] else e.produced) →
      (3 ≤ L → (e.compressUnit inB n maxDist).produced = opened ++
        [BitVec.ofNat 8 ((e.rpos.toNat + 4096 - d) % 4096),
         BitVec.ofNat 8 ((e.rpos.toNat + 4096 - d) % 4096 / 256 * 16 + (L - 3))]) ∧
      (L < 3 → (e.compressUnit inB n maxDist).produced =
        opened.set idx (opened.getD idx 0#8 ||| BitVec.ofNat 8 (2 ^ bit)) ++ [inB e.cpos]) ∧
      (e.compressUnit inB n maxDist).cpos = e.cpos + u ∧
      (e.compressUnit inB n maxDist).grpBit = bit + 1 ∧ (e.compressUnit inB n maxDist).grpIdx = idx ∧
      (e.compressUnit inB n maxDist).op = (e.compressUnit inB n maxDist).produced.length ∧
      (e.compressUnit inB n maxDist).rpos = e.rpos + BitVec.ofNat 12 u ∧
      (∀ a, (e.compressUnit inB n maxDist).ring.read a =
        if a < 4096 ∧ (a + 4096 - e.rpos.toNat) % 4096 < u then inB (e.cpos + (a + 4096 - e.rpos.toNat) % 4096)
        else e.ring.read a)

/-- R112: the loop ends with CPOS = n. -/
def Obligations.CompressConsumesWholeInput : Prop :=
  ∀ (inB : Nat → Byte) (n maxDist : Nat) (tree : List Nat) (e : Engine), n ≠ 0 →
    (compressOp inB n maxDist tree e).2.cpos = n ∧
    (compressOp inB n maxDist tree e).2.op = (compressOp inB n maxDist tree e).2.produced.length

/-- R114: the output is at most n + ceil(n / 8) bytes. -/
def Obligations.CompressOutputIsBounded : Prop :=
  ∀ (maxDist : Nat) (b : List Byte), (compressBytes maxDist b).length ≤ b.length + (b.length + 7) / 8

/-- R119: Decode(Compress(b)) = b for every byte sequence and every MAX_DIST in range, b = [] included. -/
def Obligations.DecodeInvertsCompress : Prop :=
  ∀ (maxDist : Nat) (b : List Byte), 1 ≤ maxDist → maxDist ≤ 4096 → decodeBytes (compressBytes maxDist b) = b

/-- R119 as commands: COMPRESS on IN[0..n), its result copied to IN with IN_LEN = OUT_LEN, then DECOMPRESS_RAW, gives
IN[0..n) back with PATH = 2, when neither overflows. -/
def Obligations.CompressThenRawRestoresInput : Prop :=
  ∀ (s s2 t : State) (n : Nat), s.cfg.wf → s.phase = .busy 3#32 n → 1 ≤ n → exec .compress s = .next t →
    t.status.err = false → s2.phase = .busy 2#32 t.outLen → (∀ i < t.outLen, s2.inBuf.read i = t.outBuf.read i) →
    n ≤ s2.cfg.outCap →
    ∃ t2, exec .decompressRaw s2 = .next t2 ∧ t2.status.err = false ∧ t2.status.path = 2#2 ∧ t2.outLen = n ∧
      ∀ i < n, t2.outBuf.read i = s.inBuf.read i

/-- R120: DECOMPRESS of a compressor output gives the input back exactly when the header reading is not taken, or is
accepted but decodes to nothing or by chance to the input. -/
def Obligations.DecompressRoundTripCondition : Prop :=
  ∀ (maxDist : Nat) (b s o1 : List Byte) (policy : HdrPolicy) (e : Engine), 1 ≤ maxDist → maxDist ≤ 4096 → b ≠ [] →
    s = compressBytes maxDist b →
    o1 = decodeBytes ((s.drop 4).take (headerSize fun i => s.getD i 0#8).toNat) →
    ((∃ p, (decompressOp policy (fun i => s.getD i 0#8) s.length e).1 = .ok b p) ↔
      (s.length < 4 ∨ headerAccept policy (headerSize fun i => s.getD i 0#8).toNat s.length = false ∨
       o1 = [] ∨ o1 = b))

/-! ## The commands -/

/-- R93 (with R92, R95): DECOMPRESS fails on n = 0; takes the header reading when n ≥ 4, HDR_POLICY accepts the size and
its output is not empty; otherwise the headerless one, failing when that is empty. A result longer than OUT_CAP overflows,
without falling back. Nothing else but the working registers changes. That it does so whatever the code in PHASE is the
model's choice (assumption 20); R83 runs it for code 1. -/
def Obligations.DecompressTriesHeaderThenHeaderless : Prop :=
  ∀ (s : State) (code : Word) (n size : Nat) (o1 o2 : List Byte), s.phase = .busy code n →
    size = (s.inByte 0).toNat + 256 * (s.inByte 1).toNat + 65536 * (s.inByte 2).toNat +
      16777216 * (s.inByte 3).toNat →
    o1 = decodeBytes (s.inBuf.readBytes 4 size) → o2 = decodeBytes (s.inBuf.readBytes 0 n) →
    ∃ t, exec .decompress s = .next t ∧
      (n = 0 → s.failedWith t 1#4) ∧
      (n ≠ 0 →
        (4 ≤ n ∧ (s.cfg.hdrPolicy = .fits ∧ 4 + size ≤ n ∨ s.cfg.hdrPolicy = .exact ∧ 4 + size = n) ∧ o1 ≠ [] →
          s.endsWith t o1 1#2) ∧
        (¬ (4 ≤ n ∧ (s.cfg.hdrPolicy = .fits ∧ 4 + size ≤ n ∨ s.cfg.hdrPolicy = .exact ∧ 4 + size = n) ∧ o1 ≠ []) →
          (o2 = [] → s.failedWith t 2#4) ∧ (o2 ≠ [] → s.endsWith t o2 2#2)))

/-- R94: DECOMPRESS_RAW fails on n = 0; otherwise its result is the headerless decode, an empty one included. That it does
so whatever the code in PHASE is the model's choice (assumption 20); R83 runs it for code 2. -/
def Obligations.DecompressRawDecodesWholeInput : Prop :=
  ∀ (s : State) (code : Word) (n : Nat), s.phase = .busy code n →
    ∃ t, exec .decompressRaw s = .next t ∧ (n = 0 → s.failedWith t 1#4) ∧
      (n ≠ 0 → s.endsWith t (decodeBytes (s.inBuf.readBytes 0 n)) 2#2)

/-- R101, R102, R113: COMPRESS succeeds with the compressed stream and PATH = 0, with an empty one for n = 0, or
overflows. That it does so whatever the code in PHASE is the model's choice (assumption 20); R83 runs it for code 3. -/
def Obligations.CompressCommitsStream : Prop :=
  ∀ (s : State) (code : Word) (n : Nat), s.phase = .busy code n →
    ∃ t, exec .compress s = .next t ∧
      (n = 0 → s.succeededWith t [] 0#2) ∧
      s.endsWith t (compressBytes s.cfg.maxDist (s.inBuf.readBytes 0 n)) 0#2

/-- R139: a reserved command word decodes to BAD_COMMAND, whose step fails with code 4 and reads no IN byte: with any
other IN content it does the same. That the working registers stay as they were is the model's choice (assumption 6), and
that it does so whatever the code in PHASE (assumption 20). -/
def Obligations.ReservedCommandFails : Prop :=
  ∀ (s : State) (code c : Word) (n : Nat), code ≠ 1#32 → code ≠ 2#32 → code ≠ 3#32 → s.phase = .busy c n →
    decodeCommand code = .badCommand code ∧
    ∃ t, exec (.badCommand code) s = .next t ∧ s.failedWith t 4#4 ∧ t.engine = s.engine ∧
      ∀ m : Memory, exec (.badCommand code) { s with inBuf := m } = .next { t with inBuf := m }

/-- R136: what an error commits, as fields and as the STATUS word. Of the working registers nothing is stated, and the
model's count of draws goes up by the one that OUT takes. -/
def Obligations.ErrorEntryCommitsErrorState : Prop :=
  ∀ (s : State) (k : ErrorKind),
    s.failedWith (s.complete (.err k)) k.code ∧
    (s.complete (.err k)).statusWord =
      0x006#32 ||| (k.code.setWidth 32 <<< 8) ||| (if s.status.ovr then 0x008#32 else 0#32)

/-- R145: the host returns from an error by writing ones to DONE and ERR; then STATUS holds at most OVR. -/
def Obligations.AcknowledgeClearsError : Prop :=
  ∀ (s : State) (k : ErrorKind),
    ∃ t, exec (.statusWrite 0x6#32) (s.raise k) = .next t ∧
      t.statusWord = (if s.status.ovr then 0x008#32 else 0#32) ∧ t.irq = false ∧ t.phase = .idle ∧ t.outLen = 0

/-- R37, R97, R118: a command's result depends on IN[0..n) and the parameters alone, not on the working registers, OUT, or
IN bytes at or above n. That this holds whatever the code in PHASE rests on the model's choice (assumption 20). -/
def Obligations.CommandResultIgnoresHistory : Prop :=
  ∀ (i : Instr) (s1 s2 t1 t2 : State) (code : Word) (n : Nat), i = .decompress ∨ i = .decompressRaw ∨ i = .compress →
    s1.phase = .busy code n → s2.phase = .busy code n → s1.cfg = s2.cfg →
    (∀ k < n, s1.inBuf.read k = s2.inBuf.read k) → exec i s1 = .next t1 → exec i s2 = .next t2 →
    t1.outLen = t2.outLen ∧ t1.status = { t2.status with ovr := s1.status.ovr } ∧
    ∀ k < t1.outLen, t1.outBuf.read k = t2.outBuf.read k

/-- R36, R45: only COMPRESS touches TREE and the compressor's registers; DECOMPRESS and DECOMPRESS_RAW leave them. That
these registers have a value between commands, and keep it, is the model's choice (assumption 6), as is holding TREE as a
content (assumption 7), and that they do so whatever the code in PHASE (assumption 20). -/
def Obligations.DecodingLeavesCompressorState : Prop :=
  ∀ (i : Instr) (s t : State), i = .decompress ∨ i = .decompressRaw → exec i s = .next t →
    t.engine.tree = s.engine.tree ∧ t.engine.cpos = s.engine.cpos ∧ t.engine.grpIdx = s.engine.grpIdx ∧
    t.engine.grpBit = s.engine.grpBit

/-! ## Host operations -/

/-- R122: an accepted CMD write. Of the model's own sequencing fields (assumption 3) nothing is stated. -/
def Obligations.CommandWriteAcceptedStartsCommand : Prop :=
  ∀ (v : Word) (s : State), s.phase = .idle →
    ∃ t, exec (.cmdWriteAccepted v) s = .next t ∧
      t = { s with
        phase := .busy v s.inLen
        status := { done := false, err := false, ovr := s.status.ovr, errCode := 0#4, path := 0#2 }
        outLen := 0
        engine := { s.engine with attempt := t.engine.attempt, seq := t.engine.seq } } ∧
      t.statusWord = (if s.status.ovr then 0x009#32 else 0x001#32) ∧ t.irq = false

/-- R123: a refused CMD write sets OVR and changes nothing else. -/
def Obligations.CommandWriteRefusedSetsOverrun : Prop :=
  ∀ (v c : Word) (n : Nat) (s : State), s.phase = .busy c n →
    exec (.cmdWriteRefused v) s = .next { s with status := { s.status with ovr := true } }

/-- R124: a CTRL write sets IE to bit 0; with bit 1 set it does the soft reset instead, whatever bit 0 was. -/
def Obligations.ControlWriteSetsEnableOrResets : Prop :=
  ∀ (v : Word) (s : State),
    (v.getLsbD 1 = false → exec (.ctrlWrite v) s = .next { s with ie := v.getLsbD 0 }) ∧
    (v.getLsbD 1 = true → exec (.ctrlWrite v) s = exec (.softReset v) s ∧
      ∃ t, exec (.ctrlWrite v) s = .next t ∧ t.ie = false ∧ t.irq = false)

/-- R125, R40: a soft reset in any phase gives every register its reset value and IDLE, cancels the command with no DONE
and no IRQ, and puts IN and OUT under draws not used before ("any value"). The working registers' values are the model's
(assumption 5) and are not stated here. That a word with bit 1 = 0, which no SOFT_RESET has, does the same is the model's
choice (assumption 21). -/
def Obligations.SoftResetGivesResetTable : Prop :=
  ∀ (v : Word) (s : State), ∃ t, exec (.softReset v) s = .next t ∧
    t.ctrlWord = 0#32 ∧ t.statusWord = 0#32 ∧ t.inLen = 0 ∧ t.outLen = 0 ∧ t.phase = .idle ∧ t.irq = false ∧
    (∃ d1 d2 : Nat, s.draws ≤ d1 ∧ s.draws ≤ d2 ∧ d1 ≠ d2 ∧ d1 < t.draws ∧ d2 < t.draws ∧
      (∀ a, t.inBuf.read a = Config.freeByte d1 a) ∧ (∀ a, t.outBuf.read a = Config.freeByte d2 a))

/-- R126: the STATUS word after a write of v: bits 1 to 3 of v clear DONE, ERR, OVR, and bit 2 clears ERRCODE too. -/
def Obligations.StatusWriteClearsByOnes : Prop :=
  ∀ (v : Word) (s : State), ∃ t, exec (.statusWrite v) s = .next t ∧ t = { s with status := t.status } ∧
    t.statusWord = s.statusWord &&& ~~~(v &&& 0x00E#32) &&& (if v.getLsbD 2 then ~~~0xF00#32 else ~~~0#32)

/-- R127: an IN_LEN write stores min(v, IN_CAP) while IDLE and sets OVR while BUSY. -/
def Obligations.InputLengthWriteIsBounded : Prop :=
  ∀ (v : Word) (s : State),
    (s.phase = .idle → exec (.inLenWrite v) s = .next { s with inLen := min v.toNat s.cfg.inCap }) ∧
    (∀ (c : Word) (n : Nat), s.phase = .busy c n →
      exec (.inLenWrite v) s = .next { s with status := { s.status with ovr := true } })

/-- R128: an IN window read returns the bytes little-endian in any phase; a write stores exactly its bytes while IDLE, and
sets OVR while BUSY. That the bits above a narrow read's width are 0 (assumption 8), and that a narrow write takes the low
bytes of v (assumption 16), is the model's choice. -/
def Obligations.InWindowAccessIsLittleEndian : Prop :=
  ∀ (i : Nat) (w : Width) (s : State), windowFits s.cfg.inCap i w = true →
    (∃ t, exec (.inWindowAccess .read i w) s = .next t ∧ t = { s with rdata := t.rdata } ∧
      ∀ k < 4, t.rdata.extractLsb' (8 * k) 8 = if k < w.bytes then s.inBuf.read (i + k) else 0#8) ∧
    (∀ v : Word, s.phase = .idle → ∃ t, exec (.inWindowAccess (.write v) i w) s = .next t ∧
      t = { s with inBuf := t.inBuf } ∧
      ∀ a, t.inBuf.read a =
        if i ≤ a ∧ a < i + w.bytes then v.extractLsb' (8 * (a - i)) 8 else s.inBuf.read a) ∧
    (∀ (v c : Word) (n : Nat), s.phase = .busy c n →
      exec (.inWindowAccess (.write v) i w) s = .next { s with status := { s.status with ovr := true } })

/-- R129: an OUT window read returns OUT's bytes little-endian while IDLE; while BUSY it returns some value, of which
nothing is stated, and nothing else is observable; a write to the window is ignored and sets no OVR. That the bits above a
narrow read's width are 0 is the model's choice (assumption 8). -/
def Obligations.OutWindowIsReadOnly : Prop :=
  ∀ (i : Nat) (w : Width) (s : State), s.cfg.wf → windowFits s.cfg.outCap i w = true →
    (s.phase = .idle → ∃ t, exec (.outWindowRead i w) s = .next t ∧ t = { s with rdata := t.rdata } ∧
      ∀ k < 4, t.rdata.extractLsb' (8 * k) 8 = if k < w.bytes then s.outBuf.read (i + k) else 0#8) ∧
    (∀ (c : Word) (n : Nat), s.phase = .busy c n →
      ∃ t, exec (.outWindowRead i w) s = .next t ∧ t = { s with rdata := t.rdata, draws := t.draws }) ∧
    (∀ (v : Word) (rest : List Event),
      step { s with pending := .write (s.cfg.blockBase + 0x02000000 + i) w v :: rest } =
        .next { s with pending := rest })

/-- R130: the register words, with no other effect; a write to OUT_LEN is ignored and sets no OVR. -/
def Obligations.RegisterReadsReturnWords : Prop :=
  ∀ s : State,
    exec (.registerRead .ctrl) s = .next { s with rdata := if s.ie then 1#32 else 0#32 } ∧
    exec (.registerRead .cmd) s = .next { s with rdata := 0#32 } ∧
    exec (.registerRead .status) s = .next { s with rdata :=
      (s.status.path.setWidth 32 <<< 12) ||| (s.status.errCode.setWidth 32 <<< 8) |||
      (if s.status.ovr then 8#32 else 0#32) ||| (if s.status.err then 4#32 else 0#32) |||
      (if s.status.done then 2#32 else 0#32) ||| (if s.phase = .idle then 0#32 else 1#32) } ∧
    exec (.registerRead .inLen) s = .next { s with rdata := BitVec.ofNat 32 s.inLen } ∧
    exec (.registerRead .outLen) s = .next { s with rdata := BitVec.ofNat 32 s.outLen } ∧
    ∀ (v : Word) (rest : List Event),
      step { s with pending := .write (s.cfg.blockBase + 0x010) .w32 v :: rest } = .next { s with pending := rest }

/-- R47, R52, R53: an access to a reserved REG offset or an unmapped address, a narrow or misaligned REG access, a
misaligned window access or one with a byte outside its window: a read returns 0, a write does nothing, and OVR is not
set. -/
def Obligations.IgnoredAccessesDoNothing : Prop :=
  ∀ (s : State) (addr : Word) (w : Width) (rest : List Event), s.cfg.wf →
    ((addr.toNat < 0x1000 ∧ (w ≠ .w32 ∨ addr.toNat % 4 ≠ 0 ∨ 0x010 < addr.toNat)) ∨
     (0x1000 ≤ addr.toNat ∧ addr.toNat < 0x01000000) ∨
     (0x01000000 ≤ addr.toNat ∧ addr.toNat < 0x02000000 ∧
       ((addr.toNat - 0x01000000) % w.bytes ≠ 0 ∨ s.cfg.inCap < addr.toNat - 0x01000000 + w.bytes)) ∨
     (0x02000000 ≤ addr.toNat ∧
       ((addr.toNat - 0x02000000) % w.bytes ≠ 0 ∨ s.cfg.outCap < addr.toNat - 0x02000000 + w.bytes))) →
    step { s with pending := .read (s.cfg.blockBase + addr.toNat) w :: rest } =
      .next { s with pending := rest, rdata := 0#32 } ∧
    ∀ v : Word, step { s with pending := .write (s.cfg.blockBase + addr.toNat) w v :: rest } =
      .next { s with pending := rest }

/-! ## The machine -/

/-- A step runs the decoded instruction: a host access that decodes, the accepted command at the engine's turn, and at a
stream-unit turn, in this order below: the header of DECOMPRESS; the first flag byte of the headerless reading when no
header is to be read; the command when it has no stream unit; the flag byte at IP; a flag step with no byte to fetch,
whatever its operand; the literal at IP; a literal with no byte left; the back-reference at IP; a back-reference with
fewer than 2 bytes left; after a stop, the first flag byte of the headerless reading when the header reading gave nothing,
else the command. That `pending` holds these turns, and that the engine has its turn when nothing is pending, is the
model's choice (assumptions 2 and 3). -/
def Obligations.StepRunsDecodedInstruction : Prop :=
  ∀ (s : State) (rest : List Event),
    (∀ (addr : Word) (w : Width) (i : Instr), decodeAccess s.cfg s.busy (.read addr w) = .ok i →
      step { s with pending := .read (s.cfg.blockBase + addr.toNat) w :: rest } = exec i { s with pending := rest }) ∧
    (∀ (addr v : Word) (w : Width) (i : Instr), decodeAccess s.cfg s.busy (.write addr w v) = .ok i →
      step { s with pending := .write (s.cfg.blockBase + addr.toNat) w v :: rest } =
        exec i { s with pending := rest }) ∧
    (∀ (code : Word) (n : Nat), s.phase = .busy code n →
      step { s with pending := .command :: rest } = exec (decodeCommand code) { s with pending := rest } ∧
      step { s with pending := [] } = exec (decodeCommand code) { s with pending := [] } ∧
      (s.engine.seq = .start → code = 1#32 → 4 ≤ n → ∀ i : Instr,
        decodeStream .hdr [s.inBuf.read 0, s.inBuf.read 1, s.inBuf.read 2, s.inBuf.read 3] = .ok (i, []) →
          step { s with pending := .unit :: rest } = exec i { s with pending := rest }) ∧
      (s.engine.seq = .start → (code = 1#32 ∧ n < 4 ∨ code = 2#32) → n ≠ 0 →
        step { s with pending := .unit :: rest } = exec (.flag (s.inBuf.read 0))
          { s with pending := rest, engine := s.engine.beginDecode .headerless 0 n }) ∧
      (s.engine.seq = .start → (code ≠ 1#32 ∧ code ≠ 2#32 ∨ n = 0) →
        step { s with pending := .unit :: rest } = exec (decodeCommand code) { s with pending := rest }) ∧
      (s.engine.seq = .flagStep → s.engine.fetchDue = true → s.engine.ip < s.engine.endIdx →
        step { s with pending := .unit :: rest } = exec (.flag (s.inBuf.read s.engine.ip)) { s with pending := rest }) ∧
      (s.engine.seq = .flagStep → (s.engine.fetchDue = false ∨ s.engine.endIdx ≤ s.engine.ip) → ∀ f : Byte,
        step { s with pending := .unit :: rest } = exec (.flag f) { s with pending := rest }) ∧
      (s.engine.seq = .unit → s.engine.flags.getLsbD 0 = true → s.engine.ip < s.engine.endIdx →
        step { s with pending := .unit :: rest } = exec (.lit (s.inBuf.read s.engine.ip)) { s with pending := rest }) ∧
      (s.engine.seq = .unit → s.engine.flags.getLsbD 0 = true → s.engine.endIdx ≤ s.engine.ip → ∀ c : Byte,
        step { s with pending := .unit :: rest } = exec (.lit c) { s with pending := rest }) ∧
      (s.engine.seq = .unit → s.engine.flags.getLsbD 0 = false → s.engine.ip + 1 < s.engine.endIdx →
        ∀ i : Instr, decodeStream .ref [s.inBuf.read s.engine.ip, s.inBuf.read (s.engine.ip + 1)] = .ok (i, []) →
          step { s with pending := .unit :: rest } = exec i { s with pending := rest }) ∧
      (s.engine.seq = .unit → s.engine.flags.getLsbD 0 = false → s.engine.endIdx ≤ s.engine.ip + 1 → ∀ off len : Nat,
        step { s with pending := .unit :: rest } = exec (.ref off len) { s with pending := rest }) ∧
      (∀ p : StopPoint, s.engine.seq = .stopped p →
        (s.engine.attempt = .header ∧ s.engine.produced = [] → n ≠ 0 →
          step { s with pending := .unit :: rest } = exec (.flag (s.inBuf.read 0))
            { s with pending := rest, engine := s.engine.beginDecode .headerless 0 n }) ∧
        (¬ (s.engine.attempt = .header ∧ s.engine.produced = []) →
          step { s with pending := .unit :: rest } = exec (decodeCommand code) { s with pending := rest })))

/-- No step faults or refuses: every access and every command has an effect (R133, R141, R147). -/
def Obligations.EveryStepAnswersNext : Prop :=
  ∀ s : State, ∃ t, step s = .next t

/-- The invariant: memories canonical and inside their spaces, lengths within the capacities, STATUS as R24, R25 and R134
leave it, a BUSY block with DONE = ERR = 0, OUT_LEN = 0 and its decode inside IN[0..n), IP ≤ END, OP the count of the
produced bytes, GRP_BIT ≤ 8. Every step keeps it. The clauses on IP, OP and GRP_BIT after a reset rest on the zeros the
model names (assumption 5), between commands on the values it keeps (assumption 6), and the clause on a decode in progress
on its stream-unit turns (assumption 3): these are the model's choice. -/
def Obligations.EveryStepKeepsInvariant : Prop :=
  ∀ s t : State, s.Inv → step s = .next t → t.Inv

/-- The invariant holds after reset, for every parameter set in range. Its clauses on IP, END, OP and GRP_BIT rest on the
zeros that the model names (assumption 5), and State.reset stands at the parameters that it names (assumption 1): the
model's choice. -/
def Obligations.ResetMeetsInvariant : Prop :=
  State.reset.Inv ∧ ∀ (cfg : Config) (d : Nat), cfg.wf → (State.resetWith cfg d).Inv

/-- R40, R153: the register values after reset, for every parameter set. -/
def Obligations.ResetRegistersAreClear : Prop :=
  ∀ (cfg : Config) (d : Nat),
    (State.resetWith cfg d).ctrlWord = 0#32 ∧ (State.resetWith cfg d).statusWord = 0#32 ∧
    (State.resetWith cfg d).inLen = 0 ∧ (State.resetWith cfg d).outLen = 0 ∧
    (State.resetWith cfg d).phase = .idle ∧ (State.resetWith cfg d).irq = false

/-- R151, R152: a hard reset has the effect of a soft reset, in any phase; the command it cancels sets no DONE and raises
no IRQ. That it leaves the model's own parameters, pending list and read value is the model's choice (assumption 13), and
so is the effect of a soft reset word with bit 1 = 0 (assumption 21). -/
def Obligations.HardResetEqualsSoftReset : Prop :=
  ∀ (s : State) (v : Word) (rest : List Event),
    step { s with pending := .hardReset :: rest } = exec (.softReset v) { s with pending := rest } ∧
    ∃ t, step { s with pending := .hardReset :: rest } = .next t ∧ t.phase = .idle ∧ t.status.done = false ∧
      t.irq = false ∧ t.cfg = s.cfg ∧ t.pending = rest ∧ t.rdata = s.rdata

/-- R150: an idle block with nothing pending keeps everything; an engine turn does nothing to it. -/
def Obligations.IdleBlockKeepsState : Prop :=
  ∀ (s : State) (rest : List Event), s.phase = .idle →
    step { s with pending := [] } = .next { s with pending := [] } ∧
    step { s with pending := .command :: rest } = .next { s with pending := rest } ∧
    step { s with pending := .unit :: rest } = .next { s with pending := rest }

/-- R83, R58: a BUSY block at the engine's turn goes to IDLE with DONE set in one step, whatever the command word. That the
turn comes when nothing else is pending is the model's reading of the fairness of R164 (assumption 2). -/
def Obligations.EngineTurnCompletesCommand : Prop :=
  ∀ (s : State) (code : Word) (n : Nat) (rest : List Event), s.phase = .busy code n →
    (∃ t, step { s with pending := .command :: rest } = .next t ∧ t.phase = .idle ∧ t.status.done = true ∧
      t.pending = rest ∧ t.irq = s.ie) ∧
    ∃ t, step { s with pending := [] } = .next t ∧ t.phase = .idle ∧ t.status.done = true ∧ t.irq = s.ie

/-- R132: PHASE changes only by an accepted CMD write, by a command's completion, or by a reset, and IN does not change
while BUSY but by a reset (a soft reset gives IN any value, R125). -/
def Obligations.PhaseChangesOnlyThreeWays : Prop :=
  ∀ s t : State, step s = .next t →
    (t.phase ≠ s.phase →
      (s.phase = .idle ∧ ∃ v, s.nextInstr = some (.cmdWriteAccepted v) ∧ t.phase = .busy v s.inLen) ∨
      (s.busy = true ∧ t.phase = .idle ∧ s.commandNext) ∨
      (t.phase = .idle ∧ s.resetNext)) ∧
    (s.busy = true → t.inBuf ≠ s.inBuf → s.resetNext)

/-- R57: while BUSY, short of a reset, no step changes IN, IN_LEN, or the command and length accepted. -/
def Obligations.BusyInputIsFrozen : Prop :=
  ∀ s t : State, s.busy = true → ¬ s.resetNext → step s = .next t →
    t.inBuf = s.inBuf ∧ t.inLen = s.inLen ∧ (t.phase = s.phase ∨ t.phase = .idle)

/-- R16: an engine turn, whole command or stream unit, never writes IN. -/
def Obligations.EngineNeverWritesInput : Prop :=
  ∀ (s t : State) (rest : List Event), s.pending = .command :: rest ∨ s.pending = .unit :: rest ∨ s.pending = [] →
    step s = .next t → t.inBuf = s.inBuf ∧ t.inLen = s.inLen

/-- R23: OVR is set exactly by a refused write while BUSY (CMD, IN_LEN or the IN window), and cleared exactly by a STATUS
write with bit 3 = 1 or a reset. -/
def Obligations.OverrunIsSticky : Prop :=
  ∀ s t : State, step s = .next t →
    (s.status.ovr = false → t.status.ovr = true → s.busy = true ∧
      ∃ v : Word, s.nextInstr = some (.cmdWriteRefused v) ∨ s.nextInstr = some (.inLenWrite v) ∨
        ∃ (i : Nat) (w : Width), s.nextInstr = some (.inWindowAccess (.write v) i w)) ∧
    (∀ v : Word, s.busy = true →
      (s.nextInstr = some (.cmdWriteRefused v) ∨ s.nextInstr = some (.inLenWrite v) ∨
        ∃ (i : Nat) (w : Width), s.nextInstr = some (.inWindowAccess (.write v) i w)) → t.status.ovr = true) ∧
    (s.status.ovr = true → t.status.ovr = false →
      (∃ v : Word, s.nextInstr = some (.statusWrite v) ∧ v.getLsbD 3 = true) ∨ s.resetNext) ∧
    ((∃ v : Word, s.nextInstr = some (.statusWrite v) ∧ v.getLsbD 3 = true) ∨ s.resetNext → t.status.ovr = false)

/-- R38, R142, R143: IRQ rises only when a command completes or IE is set while DONE, and falls exactly when DONE is
cleared by a STATUS write, a command is accepted, IE is cleared, or by reset. -/
def Obligations.InterruptFollowsDoneAndEnable : Prop :=
  ∀ s t : State, step s = .next t →
    (s.irq = false → t.irq = true → s.commandNext ∨
      ∃ v : Word, s.nextInstr = some (.ctrlWrite v) ∧ v.getLsbD 0 = true ∧ s.status.done = true) ∧
    (s.irq = true → (t.irq = false ↔
      (∃ v : Word, s.nextInstr = some (.statusWrite v) ∧ v.getLsbD 1 = true) ∨
      (∃ v : Word, s.nextInstr = some (.cmdWriteAccepted v)) ∨
      (∃ v : Word, s.nextInstr = some (.ctrlWrite v) ∧ v.getLsbD 0 = false) ∨ s.resetNext))

/-- R7, R15: no step changes the parameters. -/
def Obligations.ParametersNeverChange : Prop :=
  ∀ s t : State, step s = .next t → t.cfg = s.cfg

/-- Running a decompression one stream unit at a time (the model's finer schedule, assumption 3) ends at the working
registers of the command's operation (R93, R94), changes nothing a host can read before the commit (R54), and commits
exactly what the one command step commits (R83). -/
def Obligations.UnitStepsComputeTheCommand : Prop :=
  ∀ (s : State) (code : Word) (n : Nat) (rest : List Event), s.phase = .busy code n → s.engine.seq = .start → n ≠ 0 →
    code = 1#32 ∨ code = 2#32 →
    ∃ (k : Nat) (u : State),
      Host.Core.run Sys2Proof.core k { s with pending := List.replicate k .unit ++ rest } = .next u ∧
      u = { s with pending := rest, engine := u.engine, outBuf := u.outBuf } ∧
      u.engine = (if code = 1#32 then decompressOp s.cfg.hdrPolicy s.inByte n s.engine
        else decompressRawOp s.inByte n s.engine).2 ∧
      step { u with pending := .unit :: rest } = exec (decodeCommand code) { s with pending := rest }

/-- R155: the host sequence for COMPRESS on an idle block: write the bytes, write IN_LEN, write CMD, give the engine its
turn. The result is the compressed stream of exactly those bytes, or an overflow. -/
def Obligations.HostSequenceCompressesBuffer : Prop :=
  ∀ (s : State) (b : List Byte) (rest : List Event), s.cfg.wf → s.phase = .idle → b.length ≤ s.cfg.inCap →
    s.pending = (b.zipIdx.map fun c => Event.write (s.cfg.blockBase + 0x01000000 + c.2) .w8 (c.1.setWidth 32)) ++
      [.write (s.cfg.blockBase + 0x00C) .w32 (BitVec.ofNat 32 b.length),
       .write (s.cfg.blockBase + 0x004) .w32 3#32, .command] ++ rest →
    ∃ t : State, Host.Core.run Sys2Proof.core (b.length + 3) s = .next t ∧ t.pending = rest ∧ t.phase = .idle ∧
      t.status.done = true ∧ t.inLen = b.length ∧
      ((compressBytes s.cfg.maxDist b).length ≤ s.cfg.outCap → t.status.err = false ∧ t.status.path = 0#2 ∧
        t.outLen = (compressBytes s.cfg.maxDist b).length ∧
        ∀ i < t.outLen, t.outBuf.read i = (compressBytes s.cfg.maxDist b).getD i 0#8) ∧
      (s.cfg.outCap < (compressBytes s.cfg.maxDist b).length → t.status.err = true ∧ t.status.errCode = 3#4 ∧
        t.outLen = 0)
end

