-- ==== Sys2Proof/Laws/Memory.lean ====
section
/-! SUPPORT. The laws of byte memories: a read after a write, what a run of bytes stores, and that every operation keeps the
canonical form. -/

namespace Sys2Proof.Machine

open Sys2Proof

/-! ## Cells -/

@[simp] theorem lookupCell_putCell_same (cs : List Host.Cell) (a : Nat) (v : Byte) :
    lookupCell (putCell cs a v) a = some v := by
  induction cs with
  | nil => simp [putCell, lookupCell]
  | cons c rest ih =>
    obtain ⟨b, u⟩ := c
    unfold putCell
    split
    · next h => simp [lookupCell, ih, Nat.ne_of_lt h]
    · split <;> simp [lookupCell]

theorem lookupCell_putCell_other (cs : List Host.Cell) {a b : Nat} (v : Byte) (h : b ≠ a) :
    lookupCell (putCell cs a v) b = lookupCell cs b := by
  induction cs with
  | nil => simp [putCell, lookupCell, h.symm]
  | cons c rest ih =>
    obtain ⟨d, u⟩ := c
    unfold putCell
    split
    · simp [lookupCell, ih]
    · split
      · next h2 => subst h2; simp [lookupCell, h.symm]
      · simp [lookupCell, h.symm]

@[simp] theorem lookupCell_dropCell_same (cs : List Host.Cell) (a : Nat) : lookupCell (dropCell cs a) a = none := by
  induction cs with
  | nil => rfl
  | cons c rest ih =>
    obtain ⟨b, u⟩ := c
    unfold dropCell
    split
    · exact ih
    · next h => simp [lookupCell, h, ih]

theorem lookupCell_dropCell_other (cs : List Host.Cell) {a b : Nat} (h : b ≠ a) :
    lookupCell (dropCell cs a) b = lookupCell cs b := by
  induction cs with
  | nil => rfl
  | cons c rest ih =>
    obtain ⟨d, u⟩ := c
    unfold dropCell
    split
    · next h2 => subst h2; simp [lookupCell, h.symm, ih]
    · simp [lookupCell, ih]

/-! ## One byte -/

@[simp] theorem Memory.write_fill (m : Memory) (a : Nat) (v : Byte) : (m.write a v).fill = m.fill := by
  unfold Memory.write
  split
  · split <;> simp_all
  · simp_all

@[simp] theorem Memory.read_write_same (m : Memory) (a : Nat) (v : Byte) : (m.write a v).read a = v := by
  unfold Memory.write
  split
  · next h =>
    split
    · next hv => simp [Memory.read, Memory.unlisted, h, hv, Fill.byteAt]
    · simp [Memory.read]
  · simp [Memory.read]

theorem Memory.read_write_other (m : Memory) {a b : Nat} (v : Byte) (h : b ≠ a) :
    (m.write a v).read b = m.read b := by
  unfold Memory.write
  split
  · split
    · simp [Memory.read, Memory.unlisted, lookupCell_dropCell_other _ h]
    · simp [Memory.read, Memory.unlisted, lookupCell_putCell_other _ _ h]
  · simp [Memory.read, Memory.unlisted, lookupCell_putCell_other _ _ h]

/-- The read after a write, at every address. -/
theorem Memory.read_write (m : Memory) (a b : Nat) (v : Byte) :
    (m.write a v).read b = if b = a then v else m.read b := by
  split
  · next h => subst h; simp
  · next h => exact Memory.read_write_other m v h

@[simp] theorem Memory.read_blank_zero (a : Nat) : (Memory.blank .zero).read a = 0#8 := rfl

@[simp] theorem Memory.read_blank_drawn (d a : Nat) : (Memory.blank (.drawn d)).read a = Config.freeByte d a := rfl

/-! ## Runs of bytes -/

@[simp] theorem Memory.writeBytes_fill (m : Memory) (a : Nat) (bs : List Byte) :
    (m.writeBytes a bs).fill = m.fill := by
  induction bs generalizing m a with
  | nil => rfl
  | cons v vs ih => simp [Memory.writeBytes, ih]

/-- A run of bytes changes exactly its own addresses. -/
theorem Memory.read_writeBytes (m : Memory) (a : Nat) (bs : List Byte) (b : Nat) :
    (m.writeBytes a bs).read b = if h : a ≤ b ∧ b < a + bs.length then bs[b - a] else m.read b := by
  induction bs generalizing m a with
  | nil =>
    have h0 : ¬ (a ≤ b ∧ b < a + ([] : List Byte).length) := by simp only [List.length_nil]; omega
    simp only [Memory.writeBytes, dif_neg h0]
  | cons v vs ih =>
    rw [Memory.writeBytes, ih]
    by_cases h : a + 1 ≤ b ∧ b < a + 1 + vs.length
    · have h' : a ≤ b ∧ b < a + (v :: vs).length := by simp only [List.length_cons]; omega
      rw [dif_pos h, dif_pos h', List.getElem_cons, dif_neg (by omega)]
      congr 1
    · rw [dif_neg h, Memory.read_write]
      by_cases hb : b = a
      · subst hb
        have h' : b ≤ b ∧ b < b + (v :: vs).length := by simp
        rw [if_pos rfl, dif_pos h']
        simp
      · have h' : ¬ (a ≤ b ∧ b < a + (v :: vs).length) := by simp only [List.length_cons]; omega
        rw [if_neg hb, dif_neg h']

/-- A bounded run of bytes changes exactly its own addresses below the bound. -/
theorem Memory.read_writeBelow (m : Memory) (cap a : Nat) (bs : List Byte) (b : Nat) :
    (m.writeBelow cap a bs).read b =
      if h : (a ≤ b ∧ b < a + bs.length) ∧ b < cap then bs[b - a]'(by omega) else m.read b := by
  induction bs generalizing m a with
  | nil =>
    have h0 : ¬ ((a ≤ b ∧ b < a + ([] : List Byte).length) ∧ b < cap) := by simp only [List.length_nil]; omega
    simp only [Memory.writeBelow, dif_neg h0]
  | cons v vs ih =>
    have hd : (if a < cap then m.write a v else m).read b = if b = a ∧ b < cap then v else m.read b := by
      by_cases hc : a < cap
      · rw [if_pos hc, Memory.read_write]
        by_cases hb : b = a
        · rw [if_pos hb, if_pos ⟨hb, by omega⟩]
        · rw [if_neg hb, if_neg (fun h => hb h.1)]
      · rw [if_neg hc, if_neg (by omega)]
    rw [Memory.writeBelow, ih]
    by_cases h : (a + 1 ≤ b ∧ b < a + 1 + vs.length) ∧ b < cap
    · have h' : (a ≤ b ∧ b < a + (v :: vs).length) ∧ b < cap := by simp only [List.length_cons]; omega
      rw [dif_pos h, dif_pos h', List.getElem_cons, dif_neg (by omega)]
      congr 1
    · rw [dif_neg h, hd]
      by_cases hb : b = a ∧ b < cap
      · have h' : (a ≤ b ∧ b < a + (v :: vs).length) ∧ b < cap := by simp only [List.length_cons]; omega
        rw [if_pos hb, dif_pos h', List.getElem_cons, dif_pos (by omega)]
      · have h' : ¬ ((a ≤ b ∧ b < a + (v :: vs).length) ∧ b < cap) := by simp only [List.length_cons]; omega
        rw [if_neg hb, dif_neg h']

@[simp] theorem Memory.writeBelow_fill (m : Memory) (cap a : Nat) (bs : List Byte) :
    (m.writeBelow cap a bs).fill = m.fill := by
  induction bs generalizing m a with
  | nil => rfl
  | cons v vs ih =>
    rw [Memory.writeBelow, ih]
    split <;> simp

@[simp] theorem Memory.length_readBytes (m : Memory) (a n : Nat) : (m.readBytes a n).length = n := by
  induction n generalizing a with
  | zero => rfl
  | succ n ih => simp [Memory.readBytes, ih]

theorem Memory.getElem_readBytes (m : Memory) (a n i : Nat) (h : i < (m.readBytes a n).length) :
    (m.readBytes a n)[i] = m.read (a + i) := by
  induction n generalizing a i with
  | zero => simp [Memory.readBytes] at h
  | succ n ih =>
    cases i with
    | zero => simp [Memory.readBytes]
    | succ i =>
      simp only [Memory.readBytes, List.getElem_cons_succ]
      rw [ih]
      congr 1
      omega

/-! ## The canonical form -/

theorem risingFrom_mono {lo lo' : Nat} (cs : List Host.Cell) (h : lo' ≤ lo) (hr : risingFrom lo cs = true) :
    risingFrom lo' cs = true := by
  cases cs with
  | nil => rfl
  | cons c rest =>
    obtain ⟨a, u⟩ := c
    simp only [risingFrom, Bool.and_eq_true, decide_eq_true_eq] at hr ⊢
    exact ⟨by omega, hr.2⟩

theorem risingFrom_putCell (cs : List Host.Cell) (lo a : Nat) (v : Byte) (hlo : lo ≤ a)
    (hr : risingFrom lo cs = true) : risingFrom lo (putCell cs a v) = true := by
  induction cs generalizing lo with
  | nil => simp [putCell, risingFrom, hlo]
  | cons c rest ih =>
    obtain ⟨b, u⟩ := c
    simp only [risingFrom, Bool.and_eq_true, decide_eq_true_eq] at hr
    unfold putCell
    split
    · next h => simp only [risingFrom, Bool.and_eq_true, decide_eq_true_eq]; exact ⟨hr.1, ih (b + 1) (by omega) hr.2⟩
    · split
      · next h => subst h; simp only [risingFrom, Bool.and_eq_true, decide_eq_true_eq]; exact hr
      · next h1 h2 =>
        simp only [risingFrom, Bool.and_eq_true, decide_eq_true_eq]
        exact ⟨hlo, by omega, hr.2⟩

theorem risingFrom_dropCell (cs : List Host.Cell) (lo a : Nat) (hr : risingFrom lo cs = true) :
    risingFrom lo (dropCell cs a) = true := by
  induction cs generalizing lo with
  | nil => rfl
  | cons c rest ih =>
    obtain ⟨b, u⟩ := c
    simp only [risingFrom, Bool.and_eq_true, decide_eq_true_eq] at hr
    unfold dropCell
    split
    · exact risingFrom_mono _ (by omega) (ih (b + 1) hr.2)
    · simp only [risingFrom, Bool.and_eq_true, decide_eq_true_eq]; exact ⟨hr.1, ih (b + 1) hr.2⟩

theorem all_putCell (p : Host.Cell → Bool) (cs : List Host.Cell) (a : Nat) (v : Byte) (hp : p (a, v) = true)
    (h : cs.all p = true) : (putCell cs a v).all p = true := by
  induction cs with
  | nil => simp [putCell, hp]
  | cons c rest ih =>
    obtain ⟨b, u⟩ := c
    simp only [List.all_cons, Bool.and_eq_true] at h
    unfold putCell
    split
    · simp [h.1, ih h.2]
    · split
      · simp only [List.all_cons, Bool.and_eq_true]; exact ⟨hp, h.2⟩
      · simp only [List.all_cons, Bool.and_eq_true]; exact ⟨hp, h⟩

theorem all_dropCell (p : Host.Cell → Bool) (cs : List Host.Cell) (a : Nat) (h : cs.all p = true) :
    (dropCell cs a).all p = true := by
  induction cs with
  | nil => rfl
  | cons c rest ih =>
    obtain ⟨b, u⟩ := c
    simp only [List.all_cons, Bool.and_eq_true] at h
    unfold dropCell
    split
    · exact ih h.2
    · simp [h.1, ih h.2]

@[simp] theorem Memory.wf_blank (f : Fill) : (Memory.blank f).wf = true := by
  cases f <;> rfl

@[simp] theorem Memory.below_blank (f : Fill) (cap : Nat) : (Memory.blank f).below cap = true := rfl

/-- A write keeps the canonical form. -/
theorem Memory.wf_write (m : Memory) (a : Nat) (v : Byte) (h : m.wf = true) : (m.write a v).wf = true := by
  simp only [Memory.wf, Bool.and_eq_true] at h
  obtain ⟨hr, hf⟩ := h
  unfold Memory.write
  split
  · next hz =>
    simp only [hz] at hf
    split
    · simp only [Memory.wf, hz, Bool.and_eq_true]
      exact ⟨risingFrom_dropCell _ _ _ hr, all_dropCell _ _ _ hf⟩
    · next hv =>
      simp only [Memory.wf, hz, Bool.and_eq_true]
      exact ⟨risingFrom_putCell _ _ _ _ (Nat.zero_le a) hr, all_putCell _ _ _ _ (by simpa using hv) hf⟩
  · next d hz =>
    simp only [Memory.wf, hz, Bool.and_eq_true]
    exact ⟨risingFrom_putCell _ _ _ _ (Nat.zero_le a) hr, trivial⟩

/-- A write below a bound keeps the memory below it. -/
theorem Memory.below_write (m : Memory) (cap a : Nat) (v : Byte) (ha : a < cap) (h : m.below cap = true) :
    (m.write a v).below cap = true := by
  unfold Memory.below at h
  unfold Memory.write
  split
  · split
    · exact all_dropCell _ _ _ h
    · exact all_putCell _ _ _ _ (by simpa using ha) h
  · exact all_putCell _ _ _ _ (by simpa using ha) h

theorem Memory.wf_writeBytes (m : Memory) (a : Nat) (bs : List Byte) (h : m.wf = true) :
    (m.writeBytes a bs).wf = true := by
  induction bs generalizing m a with
  | nil => exact h
  | cons v vs ih => exact ih _ _ (Memory.wf_write m a v h)

theorem Memory.below_writeBytes (m : Memory) (cap a : Nat) (bs : List Byte) (ha : a + bs.length ≤ cap)
    (h : m.below cap = true) : (m.writeBytes a bs).below cap = true := by
  induction bs generalizing m a with
  | nil => exact h
  | cons v vs ih =>
    simp only [List.length_cons] at ha
    exact ih _ _ (by omega) (Memory.below_write m cap a v (by omega) h)

theorem Memory.wf_writeBelow (m : Memory) (cap a : Nat) (bs : List Byte) (h : m.wf = true) :
    (m.writeBelow cap a bs).wf = true := by
  induction bs generalizing m a with
  | nil => exact h
  | cons v vs ih =>
    rw [Memory.writeBelow]
    refine ih _ _ ?_
    split
    · exact Memory.wf_write m a v h
    · exact h

theorem Memory.below_writeBelow (m : Memory) (cap a : Nat) (bs : List Byte) (h : m.below cap = true) :
    (m.writeBelow cap a bs).below cap = true := by
  induction bs generalizing m a with
  | nil => exact h
  | cons v vs ih =>
    rw [Memory.writeBelow]
    refine ih _ _ ?_
    split
    · next ha => exact Memory.below_write m cap a v ha h
    · exact h

end Sys2Proof.Machine
end

