-- ==== Sys2Proof/Laws/State.lean ====
section
/-! SUPPORT. One lemma per field per update of a state or of the engine's working registers, true by rfl, so that no proof
unfolds a record update. -/

namespace Sys2Proof.Machine

open Sys2Proof

@[simp] theorem State.refuse_ie (s : State) : (s.refuse).ie = s.ie := rfl
@[simp] theorem State.refuse_status (s : State) : (s.refuse).status = s.status.onRefused := rfl
@[simp] theorem State.refuse_inLen (s : State) : (s.refuse).inLen = s.inLen := rfl
@[simp] theorem State.refuse_outLen (s : State) : (s.refuse).outLen = s.outLen := rfl
@[simp] theorem State.refuse_inBuf (s : State) : (s.refuse).inBuf = s.inBuf := rfl
@[simp] theorem State.refuse_outBuf (s : State) : (s.refuse).outBuf = s.outBuf := rfl
@[simp] theorem State.refuse_phase (s : State) : (s.refuse).phase = s.phase := rfl
@[simp] theorem State.refuse_engine (s : State) : (s.refuse).engine = s.engine := rfl
@[simp] theorem State.refuse_cfg (s : State) : (s.refuse).cfg = s.cfg := rfl
@[simp] theorem State.refuse_pending (s : State) : (s.refuse).pending = s.pending := rfl
@[simp] theorem State.refuse_rdata (s : State) : (s.refuse).rdata = s.rdata := rfl
@[simp] theorem State.refuse_draws (s : State) : (s.refuse).draws = s.draws := rfl

@[simp] theorem State.raise_ie (s : State) (k : ErrorKind) : (s.raise k).ie = s.ie := rfl
@[simp] theorem State.raise_status (s : State) (k : ErrorKind) : (s.raise k).status = s.status.onError k := rfl
@[simp] theorem State.raise_inLen (s : State) (k : ErrorKind) : (s.raise k).inLen = s.inLen := rfl
@[simp] theorem State.raise_outLen (s : State) (k : ErrorKind) : (s.raise k).outLen = 0 := rfl
@[simp] theorem State.raise_inBuf (s : State) (k : ErrorKind) : (s.raise k).inBuf = s.inBuf := rfl
@[simp] theorem State.raise_outBuf (s : State) (k : ErrorKind) : (s.raise k).outBuf = Memory.blank (.drawn s.draws) := rfl
@[simp] theorem State.raise_phase (s : State) (k : ErrorKind) : (s.raise k).phase = .idle := rfl
@[simp] theorem State.raise_engine (s : State) (k : ErrorKind) : (s.raise k).engine = s.engine := rfl
@[simp] theorem State.raise_cfg (s : State) (k : ErrorKind) : (s.raise k).cfg = s.cfg := rfl
@[simp] theorem State.raise_pending (s : State) (k : ErrorKind) : (s.raise k).pending = s.pending := rfl
@[simp] theorem State.raise_rdata (s : State) (k : ErrorKind) : (s.raise k).rdata = s.rdata := rfl
@[simp] theorem State.raise_draws (s : State) (k : ErrorKind) : (s.raise k).draws = s.draws + 1 := rfl

@[simp] theorem State.commit_ie (s : State) (bs : List Byte) (p : Path) : (s.commit bs p).ie = s.ie := rfl
@[simp] theorem State.commit_status (s : State) (bs : List Byte) (p : Path) : (s.commit bs p).status = s.status.onSuccess p := rfl
@[simp] theorem State.commit_inLen (s : State) (bs : List Byte) (p : Path) : (s.commit bs p).inLen = s.inLen := rfl
@[simp] theorem State.commit_outLen (s : State) (bs : List Byte) (p : Path) : (s.commit bs p).outLen = bs.length := rfl
@[simp] theorem State.commit_inBuf (s : State) (bs : List Byte) (p : Path) : (s.commit bs p).inBuf = s.inBuf := rfl
@[simp] theorem State.commit_outBuf (s : State) (bs : List Byte) (p : Path) : (s.commit bs p).outBuf = (Memory.blank (.drawn s.draws)).writeBytes 0 bs := rfl
@[simp] theorem State.commit_phase (s : State) (bs : List Byte) (p : Path) : (s.commit bs p).phase = .idle := rfl
@[simp] theorem State.commit_engine (s : State) (bs : List Byte) (p : Path) : (s.commit bs p).engine = s.engine := rfl
@[simp] theorem State.commit_cfg (s : State) (bs : List Byte) (p : Path) : (s.commit bs p).cfg = s.cfg := rfl
@[simp] theorem State.commit_pending (s : State) (bs : List Byte) (p : Path) : (s.commit bs p).pending = s.pending := rfl
@[simp] theorem State.commit_rdata (s : State) (bs : List Byte) (p : Path) : (s.commit bs p).rdata = s.rdata := rfl
@[simp] theorem State.commit_draws (s : State) (bs : List Byte) (p : Path) : (s.commit bs p).draws = s.draws + 1 := rfl

@[simp] theorem State.clearStatus_ie (s : State) (v : Word) : (s.clearStatus v).ie = s.ie := rfl
@[simp] theorem State.clearStatus_status (s : State) (v : Word) : (s.clearStatus v).status = s.status.writeOneToClear v := rfl
@[simp] theorem State.clearStatus_inLen (s : State) (v : Word) : (s.clearStatus v).inLen = s.inLen := rfl
@[simp] theorem State.clearStatus_outLen (s : State) (v : Word) : (s.clearStatus v).outLen = s.outLen := rfl
@[simp] theorem State.clearStatus_inBuf (s : State) (v : Word) : (s.clearStatus v).inBuf = s.inBuf := rfl
@[simp] theorem State.clearStatus_outBuf (s : State) (v : Word) : (s.clearStatus v).outBuf = s.outBuf := rfl
@[simp] theorem State.clearStatus_phase (s : State) (v : Word) : (s.clearStatus v).phase = s.phase := rfl
@[simp] theorem State.clearStatus_engine (s : State) (v : Word) : (s.clearStatus v).engine = s.engine := rfl
@[simp] theorem State.clearStatus_cfg (s : State) (v : Word) : (s.clearStatus v).cfg = s.cfg := rfl
@[simp] theorem State.clearStatus_pending (s : State) (v : Word) : (s.clearStatus v).pending = s.pending := rfl
@[simp] theorem State.clearStatus_rdata (s : State) (v : Word) : (s.clearStatus v).rdata = s.rdata := rfl
@[simp] theorem State.clearStatus_draws (s : State) (v : Word) : (s.clearStatus v).draws = s.draws := rfl

@[simp] theorem State.accept_ie (s : State) (v : Word) : (s.accept v).ie = s.ie := rfl
@[simp] theorem State.accept_status (s : State) (v : Word) : (s.accept v).status = s.status.onAccept := rfl
@[simp] theorem State.accept_inLen (s : State) (v : Word) : (s.accept v).inLen = s.inLen := rfl
@[simp] theorem State.accept_outLen (s : State) (v : Word) : (s.accept v).outLen = 0 := rfl
@[simp] theorem State.accept_inBuf (s : State) (v : Word) : (s.accept v).inBuf = s.inBuf := rfl
@[simp] theorem State.accept_outBuf (s : State) (v : Word) : (s.accept v).outBuf = s.outBuf := rfl
@[simp] theorem State.accept_phase (s : State) (v : Word) : (s.accept v).phase = .busy v s.inLen := rfl
@[simp] theorem State.accept_engine (s : State) (v : Word) : (s.accept v).engine = { s.engine with attempt := .none, seq := .start } := rfl
@[simp] theorem State.accept_cfg (s : State) (v : Word) : (s.accept v).cfg = s.cfg := rfl
@[simp] theorem State.accept_pending (s : State) (v : Word) : (s.accept v).pending = s.pending := rfl
@[simp] theorem State.accept_rdata (s : State) (v : Word) : (s.accept v).rdata = s.rdata := rfl
@[simp] theorem State.accept_draws (s : State) (v : Word) : (s.accept v).draws = s.draws := rfl

@[simp] theorem State.answer_ie (s : State) (v : Word) : (s.answer v).ie = s.ie := rfl
@[simp] theorem State.answer_status (s : State) (v : Word) : (s.answer v).status = s.status := rfl
@[simp] theorem State.answer_inLen (s : State) (v : Word) : (s.answer v).inLen = s.inLen := rfl
@[simp] theorem State.answer_outLen (s : State) (v : Word) : (s.answer v).outLen = s.outLen := rfl
@[simp] theorem State.answer_inBuf (s : State) (v : Word) : (s.answer v).inBuf = s.inBuf := rfl
@[simp] theorem State.answer_outBuf (s : State) (v : Word) : (s.answer v).outBuf = s.outBuf := rfl
@[simp] theorem State.answer_phase (s : State) (v : Word) : (s.answer v).phase = s.phase := rfl
@[simp] theorem State.answer_engine (s : State) (v : Word) : (s.answer v).engine = s.engine := rfl
@[simp] theorem State.answer_cfg (s : State) (v : Word) : (s.answer v).cfg = s.cfg := rfl
@[simp] theorem State.answer_pending (s : State) (v : Word) : (s.answer v).pending = s.pending := rfl
@[simp] theorem State.answer_rdata (s : State) (v : Word) : (s.answer v).rdata = v := rfl
@[simp] theorem State.answer_draws (s : State) (v : Word) : (s.answer v).draws = s.draws := rfl

@[simp] theorem State.toReset_ie (s : State) : (s.toReset).ie = false := rfl
@[simp] theorem State.toReset_status (s : State) : (s.toReset).status = Status.clear := rfl
@[simp] theorem State.toReset_inLen (s : State) : (s.toReset).inLen = 0 := rfl
@[simp] theorem State.toReset_outLen (s : State) : (s.toReset).outLen = 0 := rfl
@[simp] theorem State.toReset_inBuf (s : State) : (s.toReset).inBuf = Memory.blank (.drawn s.draws) := rfl
@[simp] theorem State.toReset_outBuf (s : State) : (s.toReset).outBuf = Memory.blank (.drawn (s.draws + 1)) := rfl
@[simp] theorem State.toReset_phase (s : State) : (s.toReset).phase = .idle := rfl
@[simp] theorem State.toReset_engine (s : State) : (s.toReset).engine = Engine.atReset (s.draws + 2) := rfl
@[simp] theorem State.toReset_cfg (s : State) : (s.toReset).cfg = s.cfg := rfl
@[simp] theorem State.toReset_pending (s : State) : (s.toReset).pending = s.pending := rfl
@[simp] theorem State.toReset_rdata (s : State) : (s.toReset).rdata = s.rdata := rfl
@[simp] theorem State.toReset_draws (s : State) : (s.toReset).draws = s.draws + 3 := rfl

@[simp] theorem State.runUnit_ie (s : State) (e : Engine) : (s.runUnit e).ie = s.ie := rfl
@[simp] theorem State.runUnit_status (s : State) (e : Engine) : (s.runUnit e).status = s.status := rfl
@[simp] theorem State.runUnit_inLen (s : State) (e : Engine) : (s.runUnit e).inLen = s.inLen := rfl
@[simp] theorem State.runUnit_outLen (s : State) (e : Engine) : (s.runUnit e).outLen = s.outLen := rfl
@[simp] theorem State.runUnit_inBuf (s : State) (e : Engine) : (s.runUnit e).inBuf = s.inBuf := rfl
@[simp] theorem State.runUnit_outBuf (s : State) (e : Engine) : (s.runUnit e).outBuf = s.outBuf.writeBelow s.cfg.outCap s.engine.op (e.produced.drop s.engine.produced.length) := rfl
@[simp] theorem State.runUnit_phase (s : State) (e : Engine) : (s.runUnit e).phase = s.phase := rfl
@[simp] theorem State.runUnit_engine (s : State) (e : Engine) : (s.runUnit e).engine = e := rfl
@[simp] theorem State.runUnit_cfg (s : State) (e : Engine) : (s.runUnit e).cfg = s.cfg := rfl
@[simp] theorem State.runUnit_pending (s : State) (e : Engine) : (s.runUnit e).pending = s.pending := rfl
@[simp] theorem State.runUnit_rdata (s : State) (e : Engine) : (s.runUnit e).rdata = s.rdata := rfl
@[simp] theorem State.runUnit_draws (s : State) (e : Engine) : (s.runUnit e).draws = s.draws := rfl

@[simp] theorem Engine.produce_ring (e : Engine) (c : Byte) : (e.produce c).ring = e.ring.write e.rpos.toNat c := rfl
@[simp] theorem Engine.produce_rpos (e : Engine) (c : Byte) : (e.produce c).rpos = e.rpos + 1#12 := rfl
@[simp] theorem Engine.produce_flags (e : Engine) (c : Byte) : (e.produce c).flags = e.flags := rfl
@[simp] theorem Engine.produce_ip (e : Engine) (c : Byte) : (e.produce c).ip = e.ip := rfl
@[simp] theorem Engine.produce_endIdx (e : Engine) (c : Byte) : (e.produce c).endIdx = e.endIdx := rfl
@[simp] theorem Engine.produce_op (e : Engine) (c : Byte) : (e.produce c).op = e.op + 1 := rfl
@[simp] theorem Engine.produce_cpos (e : Engine) (c : Byte) : (e.produce c).cpos = e.cpos := rfl
@[simp] theorem Engine.produce_grpIdx (e : Engine) (c : Byte) : (e.produce c).grpIdx = e.grpIdx := rfl
@[simp] theorem Engine.produce_grpBit (e : Engine) (c : Byte) : (e.produce c).grpBit = e.grpBit := rfl
@[simp] theorem Engine.produce_tree (e : Engine) (c : Byte) : (e.produce c).tree = e.tree := rfl
@[simp] theorem Engine.produce_attempt (e : Engine) (c : Byte) : (e.produce c).attempt = e.attempt := rfl
@[simp] theorem Engine.produce_seq (e : Engine) (c : Byte) : (e.produce c).seq = e.seq := rfl
@[simp] theorem Engine.produce_produced (e : Engine) (c : Byte) : (e.produce c).produced = e.produced ++ [c] := rfl

@[simp] theorem Engine.stopAt_ring (e : Engine) (p : StopPoint) : (e.stopAt p).ring = e.ring := rfl
@[simp] theorem Engine.stopAt_rpos (e : Engine) (p : StopPoint) : (e.stopAt p).rpos = e.rpos := rfl
@[simp] theorem Engine.stopAt_flags (e : Engine) (p : StopPoint) : (e.stopAt p).flags = e.flags := rfl
@[simp] theorem Engine.stopAt_ip (e : Engine) (p : StopPoint) : (e.stopAt p).ip = e.ip := rfl
@[simp] theorem Engine.stopAt_endIdx (e : Engine) (p : StopPoint) : (e.stopAt p).endIdx = e.endIdx := rfl
@[simp] theorem Engine.stopAt_op (e : Engine) (p : StopPoint) : (e.stopAt p).op = e.op := rfl
@[simp] theorem Engine.stopAt_cpos (e : Engine) (p : StopPoint) : (e.stopAt p).cpos = e.cpos := rfl
@[simp] theorem Engine.stopAt_grpIdx (e : Engine) (p : StopPoint) : (e.stopAt p).grpIdx = e.grpIdx := rfl
@[simp] theorem Engine.stopAt_grpBit (e : Engine) (p : StopPoint) : (e.stopAt p).grpBit = e.grpBit := rfl
@[simp] theorem Engine.stopAt_tree (e : Engine) (p : StopPoint) : (e.stopAt p).tree = e.tree := rfl
@[simp] theorem Engine.stopAt_attempt (e : Engine) (p : StopPoint) : (e.stopAt p).attempt = e.attempt := rfl
@[simp] theorem Engine.stopAt_seq (e : Engine) (p : StopPoint) : (e.stopAt p).seq = .stopped p := rfl
@[simp] theorem Engine.stopAt_produced (e : Engine) (p : StopPoint) : (e.stopAt p).produced = e.produced := rfl

@[simp] theorem Engine.beginDecode_ring (e : Engine) (a : Attempt) (lo hi : Nat) : (e.beginDecode a lo hi).ring = Memory.blank .zero := rfl
@[simp] theorem Engine.beginDecode_rpos (e : Engine) (a : Attempt) (lo hi : Nat) : (e.beginDecode a lo hi).rpos = initCursor := rfl
@[simp] theorem Engine.beginDecode_flags (e : Engine) (a : Attempt) (lo hi : Nat) : (e.beginDecode a lo hi).flags = 0#16 := rfl
@[simp] theorem Engine.beginDecode_ip (e : Engine) (a : Attempt) (lo hi : Nat) : (e.beginDecode a lo hi).ip = lo := rfl
@[simp] theorem Engine.beginDecode_endIdx (e : Engine) (a : Attempt) (lo hi : Nat) : (e.beginDecode a lo hi).endIdx = hi := rfl
@[simp] theorem Engine.beginDecode_op (e : Engine) (a : Attempt) (lo hi : Nat) : (e.beginDecode a lo hi).op = 0 := rfl
@[simp] theorem Engine.beginDecode_cpos (e : Engine) (a : Attempt) (lo hi : Nat) : (e.beginDecode a lo hi).cpos = e.cpos := rfl
@[simp] theorem Engine.beginDecode_grpIdx (e : Engine) (a : Attempt) (lo hi : Nat) : (e.beginDecode a lo hi).grpIdx = e.grpIdx := rfl
@[simp] theorem Engine.beginDecode_grpBit (e : Engine) (a : Attempt) (lo hi : Nat) : (e.beginDecode a lo hi).grpBit = e.grpBit := rfl
@[simp] theorem Engine.beginDecode_tree (e : Engine) (a : Attempt) (lo hi : Nat) : (e.beginDecode a lo hi).tree = e.tree := rfl
@[simp] theorem Engine.beginDecode_attempt (e : Engine) (a : Attempt) (lo hi : Nat) : (e.beginDecode a lo hi).attempt = a := rfl
@[simp] theorem Engine.beginDecode_seq (e : Engine) (a : Attempt) (lo hi : Nat) : (e.beginDecode a lo hi).seq = .flagStep := rfl
@[simp] theorem Engine.beginDecode_produced (e : Engine) (a : Attempt) (lo hi : Nat) : (e.beginDecode a lo hi).produced = [] := rfl

@[simp] theorem Engine.emit_ring (e : Engine) (bs : List Byte) : (e.emit bs).ring = e.ring := rfl
@[simp] theorem Engine.emit_rpos (e : Engine) (bs : List Byte) : (e.emit bs).rpos = e.rpos := rfl
@[simp] theorem Engine.emit_flags (e : Engine) (bs : List Byte) : (e.emit bs).flags = e.flags := rfl
@[simp] theorem Engine.emit_ip (e : Engine) (bs : List Byte) : (e.emit bs).ip = e.ip := rfl
@[simp] theorem Engine.emit_endIdx (e : Engine) (bs : List Byte) : (e.emit bs).endIdx = e.endIdx := rfl
@[simp] theorem Engine.emit_op (e : Engine) (bs : List Byte) : (e.emit bs).op = e.op + bs.length := rfl
@[simp] theorem Engine.emit_cpos (e : Engine) (bs : List Byte) : (e.emit bs).cpos = e.cpos := rfl
@[simp] theorem Engine.emit_grpIdx (e : Engine) (bs : List Byte) : (e.emit bs).grpIdx = e.grpIdx := rfl
@[simp] theorem Engine.emit_grpBit (e : Engine) (bs : List Byte) : (e.emit bs).grpBit = e.grpBit := rfl
@[simp] theorem Engine.emit_tree (e : Engine) (bs : List Byte) : (e.emit bs).tree = e.tree := rfl
@[simp] theorem Engine.emit_attempt (e : Engine) (bs : List Byte) : (e.emit bs).attempt = e.attempt := rfl
@[simp] theorem Engine.emit_seq (e : Engine) (bs : List Byte) : (e.emit bs).seq = e.seq := rfl
@[simp] theorem Engine.emit_produced (e : Engine) (bs : List Byte) : (e.emit bs).produced = e.produced ++ bs := rfl

@[simp] theorem Engine.beginCompress_ring (e : Engine) (t : List Nat) : (e.beginCompress t).ring = Memory.blank .zero := rfl
@[simp] theorem Engine.beginCompress_rpos (e : Engine) (t : List Nat) : (e.beginCompress t).rpos = initCursor := rfl
@[simp] theorem Engine.beginCompress_flags (e : Engine) (t : List Nat) : (e.beginCompress t).flags = e.flags := rfl
@[simp] theorem Engine.beginCompress_ip (e : Engine) (t : List Nat) : (e.beginCompress t).ip = e.ip := rfl
@[simp] theorem Engine.beginCompress_endIdx (e : Engine) (t : List Nat) : (e.beginCompress t).endIdx = e.endIdx := rfl
@[simp] theorem Engine.beginCompress_op (e : Engine) (t : List Nat) : (e.beginCompress t).op = 0 := rfl
@[simp] theorem Engine.beginCompress_cpos (e : Engine) (t : List Nat) : (e.beginCompress t).cpos = 0 := rfl
@[simp] theorem Engine.beginCompress_grpIdx (e : Engine) (t : List Nat) : (e.beginCompress t).grpIdx = 0 := rfl
@[simp] theorem Engine.beginCompress_grpBit (e : Engine) (t : List Nat) : (e.beginCompress t).grpBit = groupUnits := rfl
@[simp] theorem Engine.beginCompress_tree (e : Engine) (t : List Nat) : (e.beginCompress t).tree = t := rfl
@[simp] theorem Engine.beginCompress_attempt (e : Engine) (t : List Nat) : (e.beginCompress t).attempt = e.attempt := rfl
@[simp] theorem Engine.beginCompress_seq (e : Engine) (t : List Nat) : (e.beginCompress t).seq = e.seq := rfl
@[simp] theorem Engine.beginCompress_produced (e : Engine) (t : List Nat) : (e.beginCompress t).produced = [] := rfl

@[simp] theorem Engine.markLiteral_ring (e : Engine) : (e.markLiteral).ring = e.ring := rfl
@[simp] theorem Engine.markLiteral_rpos (e : Engine) : (e.markLiteral).rpos = e.rpos := rfl
@[simp] theorem Engine.markLiteral_flags (e : Engine) : (e.markLiteral).flags = e.flags := rfl
@[simp] theorem Engine.markLiteral_ip (e : Engine) : (e.markLiteral).ip = e.ip := rfl
@[simp] theorem Engine.markLiteral_endIdx (e : Engine) : (e.markLiteral).endIdx = e.endIdx := rfl
@[simp] theorem Engine.markLiteral_op (e : Engine) : (e.markLiteral).op = e.op := rfl
@[simp] theorem Engine.markLiteral_cpos (e : Engine) : (e.markLiteral).cpos = e.cpos := rfl
@[simp] theorem Engine.markLiteral_grpIdx (e : Engine) : (e.markLiteral).grpIdx = e.grpIdx := rfl
@[simp] theorem Engine.markLiteral_grpBit (e : Engine) : (e.markLiteral).grpBit = e.grpBit := rfl
@[simp] theorem Engine.markLiteral_tree (e : Engine) : (e.markLiteral).tree = e.tree := rfl
@[simp] theorem Engine.markLiteral_attempt (e : Engine) : (e.markLiteral).attempt = e.attempt := rfl
@[simp] theorem Engine.markLiteral_seq (e : Engine) : (e.markLiteral).seq = e.seq := rfl
@[simp] theorem Engine.markLiteral_produced (e : Engine) : (e.markLiteral).produced = e.produced.set e.grpIdx (e.produced.getD e.grpIdx 0#8 ||| (1#8 <<< e.grpBit)) := rfl

@[simp] theorem State.busy_of_idle (s : State) (h : s.phase = .idle) : s.busy = false := by
  simp [State.busy, h]

@[simp] theorem State.busy_of_busy (s : State) (c : Word) (n : Nat) (h : s.phase = .busy c n) : s.busy = true := by
  simp [State.busy, h]

@[simp] theorem Status.onAccept_fields (st : Status) :
    st.onAccept = { done := false, err := false, ovr := st.ovr, errCode := 0#4, path := 0#2 } := rfl

@[simp] theorem Status.onSuccess_fields (st : Status) (p : Path) :
    st.onSuccess p = { done := true, err := false, ovr := st.ovr, errCode := 0#4, path := p.bits } := rfl

@[simp] theorem Status.onError_fields (st : Status) (k : ErrorKind) :
    st.onError k = { done := true, err := true, ovr := st.ovr, errCode := k.code, path := 0#2 } := rfl

@[simp] theorem Status.onRefused_fields (st : Status) : st.onRefused = { st with ovr := true } := rfl

@[simp] theorem Status.writeOneToClear_path (st : Status) (v : Word) : (st.writeOneToClear v).path = st.path := rfl

end Sys2Proof.Machine
end

