-- ==== Sys2Proof/Laws/Ops.lean ====
section
/-! SUPPORT. For each shared operation, one lemma that says all it can do: completing a command, the stream units on the
working registers, the compressor's emission, and what a step can be. -/

namespace Sys2Proof.Machine

open Sys2Proof

/-! ## Completing a command -/

/-- Completing a command commits a result that fits, overflows on a longer one, or raises the error (R83, R95, R136). -/
theorem State.complete_cases (s : State) (r : Result) :
    (∃ bs p, r = .ok bs p ∧ bs.length ≤ s.cfg.outCap ∧ s.complete r = s.commit bs p) ∨
    (∃ bs p, r = .ok bs p ∧ s.cfg.outCap < bs.length ∧ s.complete r = s.raise .outputOverflow) ∨
    (∃ k, r = .err k ∧ s.complete r = s.raise k) := by
  cases r with
  | ok bs p =>
    by_cases h : s.cfg.outCap < bs.length
    · exact .inr (.inl ⟨bs, p, rfl, h, if_pos h⟩)
    · exact .inl ⟨bs, p, rfl, by omega, if_neg h⟩
  | err k => exact .inr (.inr ⟨k, rfl, rfl⟩)

/-- A committed result stands at OUT[0..len) over free bytes (R83). -/
theorem State.commit_read (s : State) (bs : List Byte) (p : Path) (b : Nat) :
    (s.commit bs p).outBuf.read b = if h : b < bs.length then bs[b] else Config.freeByte s.draws b := by
  rw [State.commit_outBuf, Memory.read_writeBytes]
  by_cases h : b < bs.length
  · rw [dif_pos (by omega), dif_pos h]; simp
  · rw [dif_neg (by omega), dif_neg h]; rfl

/-! ## The stream units -/

/-- The flag step shifts, and fetches or stops when a fetch is due (R84). -/
theorem Engine.flagStep_cases (e : Engine) (f : Byte) :
    (e.fetchDue = false ∧ e.flagStep f = { e with flags := e.shiftedFlags, seq := .unit }) ∨
    (e.fetchDue = true ∧ e.ip < e.endIdx ∧
      e.flagStep f = { e with flags := 0xFF00#16 ||| f.setWidth 16, ip := e.ip + 1, seq := .unit }) ∨
    (e.fetchDue = true ∧ e.endIdx ≤ e.ip ∧
      e.flagStep f = { e with flags := e.shiftedFlags, seq := .stopped .atFlag }) := by
  unfold Engine.flagStep
  by_cases h : e.fetchDue = true
  · by_cases h2 : e.endIdx ≤ e.ip
    · exact .inr (.inr ⟨h, h2, by simp [h, h2, Engine.stopAt]⟩)
    · exact .inr (.inl ⟨h, by omega, by simp [h, h2]⟩)
  · exact .inl ⟨by simpa using h, by simp [h]⟩

/-- A literal stops at END or produces its byte (R85). -/
theorem Engine.literal_cases (e : Engine) (c : Byte) :
    (e.endIdx ≤ e.ip ∧ e.literal c = { e with seq := .stopped .atLit }) ∨
    (e.ip < e.endIdx ∧ e.literal c = { e.produce c with ip := e.ip + 1, seq := .flagStep }) := by
  unfold Engine.literal
  by_cases h : e.endIdx ≤ e.ip
  · exact .inl ⟨h, by simp [h, Engine.stopAt]⟩
  · exact .inr ⟨by omega, by simp [h]⟩

/-- A back-reference stops with fewer than 2 bytes left, or copies (R86, R88). -/
theorem Engine.backReference_cases (e : Engine) (off len : Nat) :
    (e.endIdx - e.ip < 2 ∧ e.backReference off len = { e with seq := .stopped .atRef }) ∨
    (2 ≤ e.endIdx - e.ip ∧
      e.backReference off len = { Engine.copyRing off 0 len e with ip := e.ip + 2, seq := .flagStep }) := by
  unfold Engine.backReference
  by_cases h : e.endIdx - e.ip < 2
  · exact .inl ⟨h, by simp [h, Engine.stopAt]⟩
  · exact .inr ⟨by omega, by simp [h]⟩

/-- The copy loop produces one byte a turn and touches only RING, RPOS, OP and the output (R86). -/
theorem Engine.copyRing_spec (off k m : Nat) (e : Engine) :
    ∃ bs : List Byte, bs.length = m ∧
      Engine.copyRing off k m e =
        { e with
          ring := (Engine.copyRing off k m e).ring
          rpos := e.rpos + BitVec.ofNat 12 m
          op := e.op + m
          produced := e.produced ++ bs } := by
  induction m generalizing k e with
  | zero => exact ⟨[], rfl, by simp [Engine.copyRing]⟩
  | succ m ih =>
    obtain ⟨bs, hl, he⟩ := ih (k + 1) (e.produce (e.ringRead (off + k)))
    refine ⟨e.ringRead (off + k) :: bs, by simp [hl], ?_⟩
    rw [Engine.copyRing, he]
    simp only [Engine.produce_op, Engine.produce_rpos, Engine.produce_produced, Engine.produce_ip, Engine.produce_flags,
      Engine.produce_endIdx, Engine.produce_cpos, Engine.produce_grpIdx, Engine.produce_grpBit, Engine.produce_tree,
      Engine.produce_attempt, Engine.produce_seq, Engine.mk.injEq, true_and, and_true, List.append_assoc,
      List.singleton_append]
    refine ⟨?_, by omega⟩
    rw [BitVec.add_assoc, Nat.add_comm m 1, BitVec.ofNat_add]

/-- The header unit sets up the decode of its payload, or of the whole input (R91, R92). -/
theorem Engine.header_cases (policy : HdrPolicy) (size : Word) (n : Nat) (e : Engine) :
    (headerAccept policy size.toNat n = true ∧ hdrBytes + size.toNat ≤ n ∧
      e.header policy size n = e.beginDecode .header hdrBytes (hdrBytes + size.toNat)) ∨
    (headerAccept policy size.toNat n = false ∧ e.header policy size n = e.beginDecode .headerless 0 n) := by
  unfold Engine.header
  by_cases h : headerAccept policy size.toNat n = true
  · refine .inl ⟨h, ?_, by simp [h]⟩
    cases policy <;> simp [headerAccept] at h ⊢ <;> omega
  · exact .inr ⟨by simpa using h, by simp [h]⟩

/-- A stopped or unstarted decode does not move. -/
theorem Engine.advance_stopped (inB : Nat → Byte) (e : Engine) (p : StopPoint) (h : e.seq = .stopped p) :
    e.advance inB = e := by
  simp [Engine.advance, h]

theorem Engine.advanceBy_stopped (inB : Nat → Byte) (k : Nat) (e : Engine) (p : StopPoint) (h : e.seq = .stopped p) :
    Engine.advanceBy inB k e = e := by
  induction k with
  | zero => rfl
  | succ k ih => rw [Engine.advanceBy, Engine.advance_stopped inB e p h, ih]

/-! ## What a step can be -/

/-- A step runs the instruction it fetched, or takes the quiet effect of what is no instruction. -/
theorem step_cases (s t : State) (h : step s = .next t) :
    (∃ i s1, fetch s = .run i s1 ∧ exec i s1 = .next t) ∨ fetch s = .quiet t := by
  unfold step at h
  cases hf : fetch s with
  | run i s1 => exact .inl ⟨i, s1, rfl, by simpa [hf, Fetched.outcome] using h⟩
  | quiet s1 => rw [hf] at h; cases h; exact .inr rfl

theorem step_of_run (s s1 : State) (i : Instr) (h : fetch s = .run i s1) : step s = exec i s1 := by
  simp [step, h, Fetched.outcome]

theorem step_of_quiet (s s1 : State) (h : fetch s = .quiet s1) : step s = .next s1 := by
  simp [step, h, Fetched.outcome]

/-- A host access is the instruction it decodes to, or ignored (R121). -/
theorem State.fetchAccess_cases (s : State) (a : Access) :
    (∃ i, decodeAccess s.cfg s.busy a = .ok i ∧ s.fetchAccess a = .run i s) ∨
    (∃ r, decodeAccess s.cfg s.busy a = .error r ∧ s.fetchAccess a = .quiet (s.ignoreAccess a)) := by
  unfold State.fetchAccess
  cases decodeAccess s.cfg s.busy a with
  | ok i => exact .inl ⟨i, rfl, rfl⟩
  | error r => exact .inr ⟨r, rfl, rfl⟩

/-- The engine's turn runs the accepted command, or nothing while IDLE (R83, R150). -/
theorem State.fetchCommand_cases (s : State) :
    (∃ code n, s.phase = .busy code n ∧ s.fetchCommand = .run (decodeCommand code) s) ∨
    (s.phase = .idle ∧ s.fetchCommand = .quiet s) := by
  unfold State.fetchCommand
  cases s.phase with
  | idle => exact .inr ⟨rfl, rfl⟩
  | busy code n => exact .inl ⟨code, n, rfl, rfl⟩

/-- A command word is one of the three commands or reserved (R76, R77). -/
theorem decodeCommand_cases (w : Word) :
    (w = 1#32 ∧ decodeCommand w = .decompress) ∨ (w = 2#32 ∧ decodeCommand w = .decompressRaw) ∨
    (w = 3#32 ∧ decodeCommand w = .compress) ∨
    (w ≠ 1#32 ∧ w ≠ 2#32 ∧ w ≠ 3#32 ∧ decodeCommand w = .badCommand w) := by
  by_cases h1 : w = 1#32
  · exact .inl ⟨h1, by simp [decodeCommand, h1]⟩
  · by_cases h2 : w = 2#32
    · exact .inr (.inl ⟨h2, by simp [decodeCommand, h2]⟩)
    · by_cases h3 : w = 3#32
      · exact .inr (.inr (.inl ⟨h3, by simp [decodeCommand, h3]⟩))
      · exact .inr (.inr (.inr ⟨h1, h2, h3, by simp [decodeCommand, h1, h2, h3]⟩))

end Sys2Proof.Machine
end

