-- ==== Sys2Proof/Laws/PerInstr.lean ====
section
/-! SUPPORT. A statement made for every instruction, one lemma per constructor: how many stream bytes an instruction's
encoding has (spec/30_encoding.md R72). -/

namespace Sys2Proof.Laws.UnitLength

open Sys2Proof

/-- The stream bytes of an encoded object; a command word and a host access have none. -/
def streamLength : Code → Nat
  | .stream _ bytes => bytes.length
  | .command _ => 0
  | .bus _ => 0

/-- R72: a flag byte and a literal take 1 byte, a back-reference 2, the header 4. -/
def unitBytes : Instr → Nat
  | .flag _ => 1
  | .lit _ => 1
  | .ref _ _ => 2
  | .hdr _ => 4
  | .decompress => 0
  | .decompressRaw => 0
  | .compress => 0
  | .badCommand _ => 0
  | .cmdWriteAccepted _ => 0
  | .cmdWriteRefused _ => 0
  | .ctrlWrite _ => 0
  | .softReset _ => 0
  | .statusWrite _ => 0
  | .inLenWrite _ => 0
  | .inWindowAccess _ _ _ => 0
  | .outWindowRead _ _ => 0
  | .registerRead _ => 0

/-- The encoding of an instruction has the stream bytes that R72 gives its kind. -/
def Statement (i : Instr) : Prop := streamLength (encode i) = unitBytes i

theorem flag (f : Byte) : Statement (.flag f) := rfl
theorem lit (c : Byte) : Statement (.lit c) := rfl
theorem ref (off len : Nat) : Statement (.ref off len) := rfl
theorem hdr (size : Word) : Statement (.hdr size) := rfl
theorem decompress : Statement .decompress := rfl
theorem decompressRaw : Statement .decompressRaw := rfl
theorem compress : Statement .compress := rfl
theorem badCommand (code : Word) : Statement (.badCommand code) := rfl
theorem cmdWriteAccepted (v : Word) : Statement (.cmdWriteAccepted v) := rfl
theorem cmdWriteRefused (v : Word) : Statement (.cmdWriteRefused v) := rfl
theorem ctrlWrite (v : Word) : Statement (.ctrlWrite v) := rfl
theorem softReset (v : Word) : Statement (.softReset v) := rfl
theorem statusWrite (v : Word) : Statement (.statusWrite v) := rfl
theorem inLenWrite (v : Word) : Statement (.inLenWrite v) := rfl
theorem inWindowAccess (op : WindowOp) (i : Nat) (w : Width) : Statement (.inWindowAccess op i w) := by
  cases op <;> rfl
theorem outWindowRead (i : Nat) (w : Width) : Statement (.outWindowRead i w) := rfl
theorem registerRead (r : Reg) : Statement (.registerRead r) := rfl

end Sys2Proof.Laws.UnitLength
end

