-- ==== Sys2Proof/Tests/Slice0.lean ====
section
/-! SUPPORT. Tests. Expected values are the spec's: the encoding tables of spec/30_encoding.md, and the vectors of
spec/95_test_vectors.md named in each comment (their MAX_DIST is 4078; a smaller one is used where the vector's matches
are all nearer). The witnesses at the end meet the hypotheses of the statements. -/

namespace Sys2Proof.Tests

open Sys2Proof Sys2Proof.Machine

/-! ## Small states -/

/-- Parameters with a short search, so that the kernel runs COMPRESS quickly. -/
def smallCfg : Config := { inCap := 32, outCap := 32, hdrPolicy := .fits, maxDist := 4, blockBase := 0x1000 }

/-- An idle block with the given bytes in IN and IN_LEN set. -/
def idleWith (cfg : Config) (bytes : List Byte) : State :=
  { State.resetWith cfg 0 with
    inBuf := { fill := .drawn 0, cells := bytes.zipIdx.map fun c => (c.2, c.1) }, inLen := bytes.length }

/-- The same block with a command accepted. -/
def busyWith (cfg : Config) (code : Word) (bytes : List Byte) : State := (idleWith cfg bytes).accept code

/-- A block inside a headerless decode, at a unit, with FLAGS and the bytes from IP 0 on. -/
def atUnit (flags : BitVec 16) (bytes : List Byte) : State :=
  let s := busyWith smallCfg 2#32 bytes
  { s with engine := { s.engine.beginDecode .headerless 0 bytes.length with flags := flags, seq := .unit } }

/-- The state of an outcome. -/
def outState (o : Host.Outcome State Fault Refusal) : Option State :=
  match o with
  | .next s => some s
  | .fault _ => none
  | .refused _ => none

/-- What a host sees after a step: STATUS, OUT_LEN, the result bytes. -/
def seen (o : Host.Outcome State Fault Refusal) : Option (Word × List Byte) :=
  (outState o).map fun s => (s.statusWord, s.outBuf.readBytes 0 s.outLen)

/-- The state after an outcome, `State.reset` if there is none. -/
def afterward (o : Host.Outcome State Fault Refusal) : State := (outState o).getD State.reset

/-! ## Well-formedness: an ill-formed term for each check (R78, R77, R18, R53) -/

theorem test_ref_offset_4096_is_ill_formed : (Instr.ref 4096 3).wellFormed smallCfg = false := by decide
theorem test_ref_length_2_is_ill_formed : (Instr.ref 0 2).wellFormed smallCfg = false := by decide
theorem test_ref_length_19_is_ill_formed : (Instr.ref 0 19).wellFormed smallCfg = false := by decide
theorem test_reserved_code_1_is_ill_formed : (Instr.badCommand 1#32).wellFormed smallCfg = false := by decide
theorem test_reserved_code_2_is_ill_formed : (Instr.badCommand 2#32).wellFormed smallCfg = false := by decide
theorem test_reserved_code_3_is_ill_formed : (Instr.badCommand 3#32).wellFormed smallCfg = false := by decide
theorem test_ctrl_write_with_srst_is_ill_formed : (Instr.ctrlWrite 2#32).wellFormed smallCfg = false := by decide
theorem test_soft_reset_without_srst_is_ill_formed : (Instr.softReset 1#32).wellFormed smallCfg = false := by decide
theorem test_misaligned_in_access_is_ill_formed :
    (Instr.inWindowAccess .read 1 .w16).wellFormed smallCfg = false := by decide
theorem test_overhanging_in_access_is_ill_formed :
    (Instr.inWindowAccess .read 32 .w8).wellFormed smallCfg = false := by decide
theorem test_misaligned_out_read_is_ill_formed : (Instr.outWindowRead 2 .w32).wellFormed smallCfg = false := by decide
theorem test_overhanging_out_read_is_ill_formed : (Instr.outWindowRead 32 .w32).wellFormed smallCfg = false := by decide

/-! ## Decoding, from words written out from the spec's encodings -/

/-- R66: the flag byte as it stands. -/
theorem test_decode_flag : decodeStream .flag [0b00000101#8] = .ok (.flag 5#8, []) := rfl
/-- R68: the literal byte as it stands. -/
theorem test_decode_lit : decodeStream .lit [0b01000001#8] = .ok (.lit 0x41#8, []) := rfl
/-- R69, vector ENC-1: pppppppp = 1110_1110, hhhh = 1111, llll = 0000. -/
theorem test_decode_ref : decodeStream .ref [0b11101110#8, 0b11110000#8] = .ok (.ref 4078 3, []) := rfl
/-- R69, vector ENC-4: hhhh = 0001, llll = 0111. -/
theorem test_decode_ref_mixed : decodeStream .ref [0b00100011#8, 0b00010111#8] = .ok (.ref 0x123 10, []) := rfl
/-- R64: IN[0] holds size[7:0]. -/
theorem test_decode_hdr :
    decodeStream .hdr [0b00001101#8, 0b00000010#8, 0b00000000#8, 0b10000000#8] = .ok (.hdr 0x8000020D#32, []) := rfl
/-- R76. -/
theorem test_decode_decompress : decodeCommand 0x00000001#32 = .decompress := rfl
theorem test_decode_decompress_raw : decodeCommand 0x00000002#32 = .decompressRaw := rfl
theorem test_decode_compress : decodeCommand 0x00000003#32 = .compress := rfl
/-- R77. -/
theorem test_decode_reserved_zero : decodeCommand 0x00000000#32 = .badCommand 0#32 := rfl
/-- R46, R122, R123: offset 0x004, by the phase. -/
theorem test_decode_cmd_write_idle :
    decode smallCfg false (.bus (.write 0x004#32 .w32 3#32)) = .ok (.cmdWriteAccepted 3#32) := rfl
theorem test_decode_cmd_write_busy :
    decode smallCfg true (.bus (.write 0x004#32 .w32 3#32)) = .ok (.cmdWriteRefused 3#32) := rfl
/-- R46, R124: offset 0x000, SRST = 0. -/
theorem test_decode_ctrl_write :
    decode smallCfg true (.bus (.write 0x000#32 .w32 0x1#32)) = .ok (.ctrlWrite 1#32) := rfl
/-- R125: offset 0x000, SRST = 1. -/
theorem test_decode_soft_reset :
    decode smallCfg true (.bus (.write 0x000#32 .w32 0x2#32)) = .ok (.softReset 2#32) := rfl
theorem test_decode_status_write :
    decode smallCfg true (.bus (.write 0x008#32 .w32 0x6#32)) = .ok (.statusWrite 6#32) := rfl
theorem test_decode_in_len_write :
    decode smallCfg true (.bus (.write 0x00C#32 .w32 7#32)) = .ok (.inLenWrite 7#32) := rfl
/-- R46: IN_BASE = 0x0100_0000, OUT_BASE = 0x0200_0000. -/
theorem test_decode_in_window_write :
    decode smallCfg false (.bus (.write 0x01000004#32 .w32 7#32)) = .ok (.inWindowAccess (.write 7#32) 4 .w32) := rfl
theorem test_decode_in_window_read :
    decode smallCfg true (.bus (.read 0x0100001F#32 .w8)) = .ok (.inWindowAccess .read 31 .w8) := rfl
theorem test_decode_out_window_read :
    decode smallCfg false (.bus (.read 0x02000002#32 .w16)) = .ok (.outWindowRead 2 .w16) := rfl
theorem test_decode_register_read :
    decode smallCfg false (.bus (.read 0x008#32 .w32)) = .ok (.registerRead .status) := rfl
/-- Vector REG-11: a 16-bit read of STATUS, a misaligned read, a reserved offset. -/
theorem test_decode_rejects_narrow_register_read :
    decode smallCfg false (.bus (.read 0x008#32 .w16)) = .error .misSized := rfl
theorem test_decode_rejects_misaligned_register_read :
    decode smallCfg false (.bus (.read 0x002#32 .w32)) = .error .misaligned := rfl
theorem test_decode_rejects_reserved_offset :
    decode smallCfg false (.bus (.read 0x014#32 .w32)) = .error .reservedOffset := rfl
/-- Vector REG-12. -/
theorem test_decode_rejects_out_len_write :
    decode smallCfg false (.bus (.write 0x010#32 .w32 5#32)) = .error .readOnly := rfl
theorem test_decode_rejects_unmapped :
    decode smallCfg false (.bus (.read 0x00001000#32 .w32)) = .error .unmapped := rfl

/-! ## The stream units -/

/-- R84: FLAGS = 0x0000 makes a fetch due; f = 0x05 gives 0xFF05 and a literal next. -/
theorem test_flag_fetch :
    (outState (exec (.flag 5#8) { atUnit 0#16 [5#8] with engine := (atUnit 0#16 [5#8]).engine })).map
      (fun t => (t.engine.flags, t.engine.ip, t.engine.selectsLit)) = some (0xFF05#16, 1, true) := by decide
/-- Vector FLAG-1: after 8 literals a fetch with IP = END stops with FLAGS 00FF. -/
theorem test_flag_stop :
    (outState (exec (.flag 0#8) (atUnit 0x01FF#16 []))).map (fun t => (t.engine.flags, t.engine.seq)) =
      some (0x00FF#16, .stopped .atFlag) := by decide
/-- R85: a literal at RPOS = 4095 stores there and wraps RPOS to 0. -/
theorem test_lit_wraps_cursor :
    let s := atUnit 1#16 [0x41#8]
    (outState (exec (.lit 0x41#8) { s with engine := { s.engine with rpos := 4095#12 } })).map
      (fun t => (t.engine.rpos, t.engine.ring.read 4095, t.engine.produced, t.outBuf.read 0)) =
      some (0#12, 0x41#8, [0x41#8], 0x41#8) := by decide
/-- Vector LIT-2: a literal with IP = END stops. -/
theorem test_lit_stop :
    (outState (exec (.lit 0#8) (atUnit 1#16 []))).map (fun t => (t.engine.produced, t.engine.seq)) =
      some ([], .stopped .atLit) := by decide
/-- Vector REF-6: distance 0 reads each byte before it is overwritten. -/
theorem test_ref_distance_zero :
    (outState (exec (.ref 4078 3) (atUnit 0#16 [0xEE#8, 0xF0#8]))).map
      (fun t => (t.engine.produced, t.engine.rpos, t.engine.ip)) = some ([0#8, 0#8, 0#8], 4081#12, 2) := by decide
/-- Vector TRN-1: one byte left, unused. -/
theorem test_ref_truncated :
    (outState (exec (.ref 0 3) (atUnit 0#16 [0xEE#8]))).map (fun t => (t.engine.ip, t.engine.seq)) =
      some (0, .stopped .atRef) := by decide
/-- R91's example: size 3 with n = 7 is accepted. -/
theorem test_hdr_accepted :
    (outState (exec (.hdr 3#32) (busyWith smallCfg 1#32 [3#8, 0#8, 0#8, 0#8, 0xFF#8, 0x41#8, 0x42#8]))).map
      (fun t => (t.engine.ip, t.engine.endIdx, t.engine.attempt)) = some (4, 7, .header) := by decide
/-- Vector DEC-11: size 2^32 − 1 is rejected without wrapping (D28). -/
theorem test_hdr_rejected :
    (outState (exec (.hdr 0xFFFFFFFF#32) (busyWith smallCfg 1#32 [255#8, 255#8, 255#8, 255#8, 1#8, 0x41#8]))).map
      (fun t => (t.engine.ip, t.engine.endIdx, t.engine.attempt)) = some (0, 6, .headerless) := by decide

/-! ## The commands -/

/-- Vector DEC-1. -/
theorem test_decompress_header_path :
    seen (exec .decompress (busyWith smallCfg 1#32 [3#8, 0#8, 0#8, 0#8, 0xFF#8, 0x41#8, 0x42#8])) =
      some (0x1002#32, [0x41#8, 0x42#8]) := by decide
/-- Vector DEC-7. -/
theorem test_decompress_empty_output :
    seen (exec .decompress (busyWith smallCfg 1#32 [0#8, 0x41#8])) = some (0x0206#32, []) := by decide
/-- Vector REF-2: overlap at distance 2. -/
theorem test_decompress_raw_overlap :
    seen (exec .decompressRaw (busyWith smallCfg 2#32 [3#8, 0x41#8, 0x42#8, 0xEE#8, 0xF3#8])) =
      some (0x2002#32, [0x41#8, 0x42#8, 0x41#8, 0x42#8, 0x41#8, 0x42#8, 0x41#8, 0x42#8]) := by decide
/-- Vector ERR-4: a 7-byte result with OUT_CAP = 4. -/
theorem test_decompress_raw_overflow :
    seen (exec .decompressRaw (busyWith { smallCfg with outCap := 4 } 2#32 [1#8, 0x41#8, 0xEE#8, 0xF3#8])) =
      some (0x0306#32, []) := by decide
/-- Vector CMP-11: the third zero makes a match at distance 4, past the literal 01. -/
theorem test_compress_match_in_zeroed_ring :
    seen (exec .compress (busyWith smallCfg 3#32 [1#8, 0#8, 0#8, 0#8, 2#8])) =
      some (0x0002#32, [5#8, 1#8, 0xEB#8, 0xF0#8, 2#8]) := by decide
/-- Vector CMP-0: an empty input is an empty success. -/
theorem test_compress_empty : seen (exec .compress (busyWith smallCfg 3#32 [])) = some (0x0002#32, []) := by decide
/-- Vector ERR-7: BAD_COMMAND before EMPTY_INPUT. -/
theorem test_bad_command : seen (step (busyWith smallCfg 0#32 [])) = some (0x0406#32, []) := by decide

/-! ## Host operations -/

/-- Vector REG-4. -/
theorem test_cmd_write_accepted :
    (outState (exec (.cmdWriteAccepted 3#32) (idleWith smallCfg [0x41#8]))).map
      (fun t => (t.statusWord, t.phase)) = some (0x0001#32, .busy 3#32 1) := by decide
/-- Vector REG-5. -/
theorem test_cmd_write_refused :
    (outState (exec (.cmdWriteRefused 1#32) (busyWith smallCfg 3#32 [0x41#8]))).map
      (fun t => (t.statusWord, t.phase)) = some (0x0009#32, .busy 3#32 1) := by decide
/-- Vector REG-8: setting IE while DONE raises IRQ at once. -/
theorem test_ctrl_write_raises_irq :
    (outState (exec (.ctrlWrite 1#32) ((idleWith smallCfg []).commit [] .none))).map (fun t => t.irq) = some true := by
  decide
/-- Vector REG-10. -/
theorem test_soft_reset_while_busy :
    (outState (exec (.softReset 2#32) (busyWith smallCfg 3#32 [0x41#8]))).map
      (fun t => (t.statusWord, t.inLen, t.ctrlWord, t.phase)) = some (0#32, 0, 0#32, .idle) := by decide
/-- R126's example: 0x106, then 0x2, then 0x4. -/
theorem test_status_write :
    (outState (exec (.statusWrite 2#32) ((idleWith smallCfg []).raise .emptyInput))).map
      (fun t => (t.statusWord, (t.clearStatus 4#32).statusWord)) = some (0x0104#32, 0#32) := by decide
/-- Vector REG-2: IN_LEN reads back IN_CAP. -/
theorem test_in_len_write :
    (outState (exec (.inLenWrite 0xFFFFFFFF#32) State.reset)).map (fun t => t.inLen) = some 65536 := by decide
/-- Vector REG-3: 0x0000_0003 at IN_BASE reads back as byte 03 then 00. -/
theorem test_in_window_write :
    (outState (exec (.inWindowAccess (.write 3#32) 0 .w32) State.reset)).map
      (fun t => (t.inBuf.read 0, t.inBuf.read 1, t.inBuf.wf)) = some (3#8, 0#8, true) := by decide
/-- R128 with R50: the lowest address is the least significant byte. -/
theorem test_in_window_read :
    (outState (exec (.inWindowAccess .read 2 .w16) (idleWith smallCfg [1#8, 2#8, 3#8, 4#8]))).map
      (fun t => t.rdata) = some 0x0403#32 := by decide
/-- R129's example: the byte at OUT_BASE + 1 of the result 41 42 is 42. -/
theorem test_out_window_read :
    (outState (exec (.outWindowRead 1 .w8) ((idleWith smallCfg []).commit [0x41#8, 0x42#8] .headerless))).map
      (fun t => t.rdata) = some 0x42#32 := by decide
/-- Vector P2's epilogue value 0x1000 is PATH = 1 alone. -/
theorem test_status_read :
    (outState (exec (.registerRead .status)
      ((idleWith smallCfg []).commit [0x41#8] .header))).map (fun t => t.rdata) = some 0x1002#32 := by decide
/-- Vector REG-11, as a step: a narrow read of STATUS returns 0. -/
theorem test_narrow_status_read :
    (outState (step { busyWith smallCfg 1#32 [] with pending := [.read 0x1008 .w16], rdata := 7#32 })).map
      (fun t => (t.rdata, t.pending)) = some (0#32, []) := by decide

/-! ## The table's words -/

theorem test_table_word_compress : decodeTableWord 32 3 = some .compress := by decide
theorem test_table_word_ref : decodeTableWord 16 0xF0EE = some (.ref 4078 3) := by decide
theorem test_table_step_status_write :
    fetch (State.reset.withFetchWord 32 8) = .run (.statusWrite 0#32) State.reset := by decide

/-! ## Witnesses: states and operands that meet a statement's hypotheses -/

theorem witness_DecodeOfEncodeIsIdentity :
    smallCfg.wf ∧ (Instr.inWindowAccess .read 28 .w32).wellFormed smallCfg = true ∧
    (Instr.inWindowAccess .read 28 .w32).admitsPhase true = true := by decide
theorem witness_EncodeOfDecodeIsIdentity :
    smallCfg.wf ∧ decode smallCfg true (.bus (.read 0x0100001C#32 .w32)) = .ok (.inWindowAccess .read 28 .w32) :=
  ⟨by decide, rfl⟩
theorem witness_FlagStepShiftsFetchesOrStops :
    (atUnit 0x01FF#16 [5#8]).engine.fetchDue = true ∧
    (atUnit 0x01FF#16 [5#8]).engine.ip < (atUnit 0x01FF#16 [5#8]).engine.endIdx := by decide
theorem witness_LiteralStoresOneByte :
    (atUnit 1#16 [5#8]).engine.ip < (atUnit 1#16 [5#8]).engine.endIdx ∧
    (atUnit 1#16 []).engine.endIdx ≤ (atUnit 1#16 []).engine.ip := by decide
/-- The boundaries of off and len, and both clauses: 2 bytes left and 1 byte left. -/
theorem witness_BackReferenceCopiesWithOverlap :
    (4095 < 4096 ∧ 3 ≤ 3 ∧ 18 ≤ 18) ∧
    2 ≤ (atUnit 0#16 [0#8, 0#8]).engine.endIdx - (atUnit 0#16 [0#8, 0#8]).engine.ip ∧
    (atUnit 0#16 [0#8]).engine.endIdx - (atUnit 0#16 [0#8]).engine.ip < 2 := by decide
/-- Accepted at 4 + size = n, rejected at 4 + size = n + 1, and rejected for n < 4. -/
theorem witness_HeaderUnitSelectsPayload :
    (busyWith smallCfg 1#32 [1#8, 0#8, 0#8, 0#8, 5#8]).phase = .busy 1#32 5 ∧ smallCfg.hdrPolicy = .fits ∧
    4 + (1#32).toNat ≤ 5 ∧ ¬ 4 + (2#32).toNat ≤ 5 ∧ (busyWith smallCfg 1#32 [1#8]).phase = .busy 1#32 1 := by decide
theorem witness_DecodeStopsOnlyAtInputEnd : (0 : Nat) ≤ 2 ∧ (2 : Nat) ≤ 2 := by decide
theorem witness_DecodeDependsOnPayloadAlone :
    ∀ i < 2, (fun k => [9#8, 1#8, 5#8].getD k 0#8) (1 + i) = (fun k => [1#8, 5#8].getD k 0#8) (0 + i) := by decide
theorem witness_DecodeIsMonotoneInPayload : [1#8] <+: [1#8, 0x41#8] := by decide
/-- The last clause at the first output byte. -/
theorem witness_RingHoldsRecentOutput :
    0 < (Engine.decode (fun k => [1#8, 0x41#8].getD k 0#8) .headerless 0 2 (Engine.atReset 0)).produced.length ∧
    (Engine.decode (fun k => [1#8, 0x41#8].getD k 0#8) .headerless 0 2 (Engine.atReset 0)).produced.length ≤ 0 + 4096 := by
  decide
theorem witness_MatchLengthIsLargestAgreement : (4096 : Nat) ≤ 4096 ∧ (0 : Nat) ≤ 4096 := by decide
theorem witness_SelectIsLongestThenNearest : (1 : Nat) ≤ 1 := by decide
/-- A turn that emits a match (three zeros) and one that emits a literal, each opening a group. -/
theorem witness_CompressTurnEmitsOneUnit :
    let e := (Engine.atReset 0).beginCompress []
    let zeros : Nat → Byte := fun _ => 0#8
    let one : Nat → Byte := fun _ => 1#8
    (1 ≤ 4 ∧ 4 ≤ 4096 ∧ e.cpos < 3) ∧ e.op = e.produced.length ∧ e.grpBit ≤ 8 ∧
    (e.grpBit < 8 → e.grpIdx < e.produced.length) ∧ (3, 1) = e.select zeros 3 4 ∧ 3 = (if 3 ≤ 3 then 3 else 1) ∧
    (2, 1) = e.select zeros 2 4 ∧ (0, 1) = e.select one 1 4 := by decide
/-- A turn inside an open group. -/
theorem witness_CompressTurnEmitsOneUnit_open_group :
    let e := ((Engine.atReset 0).beginCompress []).compressUnit (fun _ => 1#8) 2 4
    e.cpos < 2 ∧ e.op = e.produced.length ∧ e.grpBit < 8 ∧ e.grpIdx < e.produced.length ∧
    (1, 1) = e.select (fun _ => 1#8) 2 4 := by decide
theorem witness_CompressConsumesWholeInput : (1 : Nat) ≠ 0 := by decide
theorem witness_DecodeInvertsCompress : ((1 : Nat) ≤ 1 ∧ 1 ≤ 4096) ∧ (1 : Nat) ≤ 4096 ∧ 4096 ≤ 4096 := by decide
/-- Vector RT-1 on the block. -/
theorem witness_CompressThenRawRestoresInput :
    let s := busyWith smallCfg 3#32 [0x41#8]
    let t := afterward (exec .compress s)
    let s2 := busyWith smallCfg 2#32 [1#8, 0x41#8]
    s.cfg.wf ∧ s.phase = .busy 3#32 1 ∧ 1 ≤ 1 ∧ exec .compress s = .next t ∧ t.status.err = false ∧
    s2.phase = .busy 2#32 t.outLen ∧ (∀ i < t.outLen, s2.inBuf.read i = t.outBuf.read i) ∧ 1 ≤ s2.cfg.outCap :=
  ⟨by decide, by decide, by decide, rfl, by decide, by decide, by decide, by decide⟩
theorem witness_DecompressRoundTripCondition :
    (1 : Nat) ≤ 4 ∧ 4 ≤ 4096 ∧ [0x41#8] ≠ ([] : List Byte) ∧ [1#8, 0x41#8] = compressBytes 4 [0x41#8] ∧
    ([] : List Byte) =
      decodeBytes (([1#8, 0x41#8].drop 4).take (headerSize fun i => [1#8, 0x41#8].getD i 0#8).toNat) := by decide
/-- The cases: n = 0; header taken (DEC-1, n = 4 + size); header accepted but empty (DEC-10); headerless empty (DEC-7). -/
theorem witness_DecompressTriesHeaderThenHeaderless :
    (busyWith smallCfg 1#32 []).phase = .busy 1#32 0 ∧
    (let s := busyWith smallCfg 1#32 [3#8, 0#8, 0#8, 0#8, 0xFF#8, 0x41#8, 0x42#8];
      s.phase = .busy 1#32 7 ∧ (s.inByte 0).toNat + 256 * (s.inByte 1).toNat = 3 ∧ 4 + 3 ≤ 7 ∧
      decodeBytes (s.inBuf.readBytes 4 3) ≠ []) ∧
    (let s := busyWith smallCfg 1#32 [1#8, 0#8, 0#8, 0#8, 5#8];
      s.phase = .busy 1#32 5 ∧ decodeBytes (s.inBuf.readBytes 4 1) = [] ∧ decodeBytes (s.inBuf.readBytes 0 5) ≠ []) ∧
    (let s := busyWith smallCfg 1#32 [0#8, 0x41#8];
      s.phase = .busy 1#32 2 ∧ decodeBytes (s.inBuf.readBytes 0 2) = []) := by decide
/-- n = 0 and n = 1; a result that fits exactly and one that is a byte too long. -/
theorem witness_DecompressRawDecodesWholeInput :
    (busyWith smallCfg 2#32 []).phase = .busy 2#32 0 ∧ (busyWith smallCfg 2#32 [5#8]).phase = .busy 2#32 1 ∧
    (let s := busyWith { smallCfg with outCap := 1 } 2#32 [1#8, 0x41#8];
      (decodeBytes (s.inBuf.readBytes 0 2)).length ≤ s.cfg.outCap) ∧
    (let s := busyWith { smallCfg with outCap := 1 } 2#32 [3#8, 0x41#8, 0x42#8];
      s.cfg.outCap < (decodeBytes (s.inBuf.readBytes 0 3)).length) := by decide
/-- n = 0, a stream that fits exactly, and one a byte too long. -/
theorem witness_CompressCommitsStream :
    (busyWith smallCfg 3#32 []).phase = .busy 3#32 0 ∧ (busyWith smallCfg 3#32 [1#8]).phase = .busy 3#32 1 ∧
    (compressBytes 4 [1#8]).length = 2 := by decide
theorem witness_ReservedCommandFails :
    0#32 ≠ 1#32 ∧ 0#32 ≠ 2#32 ∧ 0#32 ≠ 3#32 ∧ 4#32 ≠ 3#32 ∧ (busyWith smallCfg 0#32 []).phase = .busy 0#32 0 := by decide
theorem witness_CommandResultIgnoresHistory :
    let s1 := busyWith smallCfg 2#32 [1#8, 0x41#8]
    let s2 := { (busyWith smallCfg 2#32 [1#8, 0x41#8]).refuse with outBuf := Memory.blank .zero, draws := 40 }
    s1.phase = .busy 2#32 2 ∧ s2.phase = .busy 2#32 2 ∧ s1.cfg = s2.cfg ∧ (∀ k < 2, s1.inBuf.read k = s2.inBuf.read k) ∧
    exec .decompressRaw s1 = .next (afterward (exec .decompressRaw s1)) ∧
    exec .decompressRaw s2 = .next (afterward (exec .decompressRaw s2)) :=
  ⟨by decide, by decide, by decide, by decide, rfl, rfl⟩
theorem witness_DecodingLeavesCompressorState :
    let s := busyWith smallCfg 2#32 [1#8, 0x41#8]
    exec .decompressRaw s = .next (afterward (exec .decompressRaw s)) ∧
    exec .decompress s = .next (afterward (exec .decompress s)) := ⟨rfl, rfl⟩
theorem witness_idle_block : (idleWith smallCfg []).phase = .idle := rfl
theorem witness_CommandWriteAcceptedStartsCommand : State.reset.phase = .idle := rfl
theorem witness_CommandWriteRefusedSetsOverrun : (busyWith smallCfg 3#32 []).phase = .busy 3#32 0 := rfl
theorem witness_ControlWriteSetsEnableOrResets :
    (1#32 : Word).getLsbD 1 = false ∧ (2#32 : Word).getLsbD 1 = true := by decide
theorem witness_InputLengthWriteIsBounded :
    State.reset.phase = .idle ∧ (busyWith smallCfg 3#32 []).phase = .busy 3#32 0 := by decide
/-- The last aligned word of the window, idle and busy. -/
theorem witness_InWindowAccessIsLittleEndian :
    windowFits (idleWith smallCfg []).cfg.inCap 28 .w32 = true ∧ (idleWith smallCfg []).phase = .idle ∧
    (busyWith smallCfg 3#32 []).phase = .busy 3#32 0 := by decide
theorem witness_OutWindowIsReadOnly :
    smallCfg.wf ∧ windowFits (idleWith smallCfg []).cfg.outCap 31 .w8 = true ∧ (idleWith smallCfg []).phase = .idle ∧
    (busyWith smallCfg 3#32 []).phase = .busy 3#32 0 := by decide
/-- A boundary of each clause: narrow, misaligned and reserved REG accesses, the first unmapped address, a misaligned and an
overhanging access of each window. -/
theorem witness_IgnoredAccessesDoNothing :
    smallCfg.wf ∧
    ((0x008#32).toNat < 0x1000 ∧ Width.w16 ≠ .w32) ∧ ((0x002#32).toNat % 4 ≠ 0) ∧
    (0x010 < (0x014#32).toNat ∧ (0x014#32).toNat < 0x1000) ∧
    (0x1000 ≤ (0x1000#32).toNat ∧ (0x00FFFFFF#32).toNat < 0x01000000) ∧
    ((0x01000001#32).toNat - 0x01000000) % Width.w16.bytes ≠ 0 ∧
    smallCfg.inCap < (0x01000020#32).toNat - 0x01000000 + Width.w8.bytes ∧ (0x01FFFFFF#32).toNat < 0x02000000 ∧
    ((0x02000002#32).toNat - 0x02000000) % Width.w32.bytes ≠ 0 ∧
    smallCfg.outCap < (0xFFFFFFFF#32).toNat - 0x02000000 + Width.w8.bytes := by decide
/-- Each clause: a host read and write that decode, and a block BUSY at each point of the stream loop: start with a header,
with n < 4, with code 2, with code 3, with n = 0; a flag step that fetches, that only shifts, that finds END; each unit with its
bytes and without; a stop after an empty header reading, and after a headerless one. -/
theorem witness_StepRunsDecodedInstruction :
    decodeAccess (idleWith smallCfg []).cfg (idleWith smallCfg []).busy (.read 0x008#32 .w32) =
      .ok (.registerRead .status) ∧
    decodeAccess (idleWith smallCfg []).cfg (idleWith smallCfg []).busy (.write 0x004#32 .w32 3#32) =
      .ok (.cmdWriteAccepted 3#32) ∧
    (atUnit 1#16 [5#8]).phase = .busy 2#32 1 ∧
    (let e := (atUnit 0#16 [5#8]).engine; ({ e with seq := .flagStep } : Engine).fetchDue = true ∧ e.ip < e.endIdx) ∧
    (let e := (atUnit 1#16 [5#8]).engine; e.seq = .unit ∧ e.flags.getLsbD 0 = true ∧ e.ip < e.endIdx) ∧
    (let e := (atUnit 0#16 [0#8, 0xF0#8]).engine;
      e.seq = .unit ∧ e.flags.getLsbD 0 = false ∧ e.ip + 1 < e.endIdx) ∧
    decodeStream .ref [0#8, 0xF0#8] = .ok (.ref 0xF00 3, []) ∧
    (let s := busyWith smallCfg 1#32 [3#8, 0#8, 0#8, 0#8];
      s.phase = .busy 1#32 4 ∧ s.engine.seq = .start ∧
      decodeStream .hdr [s.inBuf.read 0, s.inBuf.read 1, s.inBuf.read 2, s.inBuf.read 3] = .ok (.hdr 3#32, [])) ∧
    ((busyWith smallCfg 1#32 [3#8, 0#8, 0#8]).phase = .busy 1#32 3 ∧ (busyWith smallCfg 2#32 [1#8]).phase = .busy 2#32 1 ∧
      (busyWith smallCfg 3#32 [1#8]).phase = .busy 3#32 1 ∧ (busyWith smallCfg 2#32 []).phase = .busy 2#32 0) ∧
    (let e := (atUnit 0xFF00#16 [5#8]).engine; ({ e with seq := .flagStep } : Engine).fetchDue = false) ∧
    (let e := (atUnit 0#16 []).engine; ({ e with seq := .flagStep } : Engine).fetchDue = true ∧ e.endIdx ≤ e.ip) ∧
    (let e := (atUnit 1#16 []).engine; e.seq = .unit ∧ e.flags.getLsbD 0 = true ∧ e.endIdx ≤ e.ip) ∧
    (let e := (atUnit 0#16 [5#8]).engine; e.seq = .unit ∧ e.flags.getLsbD 0 = false ∧ e.endIdx ≤ e.ip + 1) ∧
    (let e := ((atUnit 0#16 [5#8]).engine.beginDecode .header 4 4).stopAt .atFlag;
      e.seq = .stopped .atFlag ∧ e.attempt = .header ∧ e.produced = []) ∧
    (let e := (atUnit 0#16 [5#8]).engine.stopAt .atRef;
      e.seq = .stopped .atRef ∧ ¬ (e.attempt = .header ∧ e.produced = [])) :=
  ⟨rfl, rfl, rfl, by decide, by decide, by decide, rfl, by decide, by decide, by decide, by decide, by decide, by decide,
    by decide, by decide⟩
theorem witness_EveryStepKeepsInvariant :
    (busyWith smallCfg 3#32 [1#8]).Inv ∧
    step (busyWith smallCfg 3#32 [1#8]) = .next (afterward (step (busyWith smallCfg 3#32 [1#8]))) :=
  ⟨by decide, rfl⟩
theorem witness_ResetMeetsInvariant : smallCfg.wf := by decide
theorem witness_IdleBlockKeepsState : (idleWith smallCfg [1#8]).phase = .idle := rfl
theorem witness_EngineTurnCompletesCommand : (busyWith smallCfg 7#32 [1#8]).phase = .busy 7#32 1 := rfl
/-- PHASE changes by acceptance, by completion and by reset. -/
theorem witness_PhaseChangesOnlyThreeWays :
    (let s := { State.reset with pending := [.write 4 .w32 3#32] };
      step s = .next (afterward (step s)) ∧ (afterward (step s)).phase ≠ s.phase) ∧
    (let s := busyWith smallCfg 3#32 [1#8];
      step s = .next (afterward (step s)) ∧ (afterward (step s)).phase ≠ s.phase) ∧
    (let s := { busyWith smallCfg 3#32 [1#8] with pending := [.hardReset] };
      step s = .next (afterward (step s)) ∧ (afterward (step s)).phase ≠ s.phase ∧ s.busy = true ∧
        (afterward (step s)).inBuf ≠ s.inBuf) :=
  ⟨⟨rfl, by decide⟩, ⟨rfl, by decide⟩, ⟨rfl, by decide, by decide, by decide⟩⟩
theorem witness_BusyInputIsFrozen :
    (busyWith smallCfg 3#32 [1#8]).busy = true ∧ (busyWith smallCfg 3#32 [1#8]).hardResetNext = false ∧
    (busyWith smallCfg 3#32 [1#8]).nextInstr = some .compress ∧ ¬ (busyWith smallCfg 3#32 [1#8]).resetNext ∧
    step (busyWith smallCfg 3#32 [1#8]) = .next (afterward (step (busyWith smallCfg 3#32 [1#8]))) := by
  refine ⟨by decide, by decide, by decide, ?_, rfl⟩
  rintro (h | ⟨v, h⟩)
  · exact absurd h (by decide)
  · cases h
theorem witness_EngineNeverWritesInput :
    (busyWith smallCfg 3#32 [1#8]).pending = [] ∧
    step (busyWith smallCfg 3#32 [1#8]) = .next (afterward (step (busyWith smallCfg 3#32 [1#8]))) := ⟨rfl, rfl⟩
/-- OVR rises by a refused CMD write and falls by a STATUS write of 8 or a reset. -/
theorem witness_OverrunIsSticky :
    (let s := { busyWith smallCfg 3#32 [1#8] with pending := [.write 0x1004 .w32 1#32] };
      step s = .next (afterward (step s)) ∧ s.status.ovr = false ∧ (afterward (step s)).status.ovr = true ∧
      s.busy = true ∧ s.nextInstr = some (.cmdWriteRefused 1#32)) ∧
    (let s := { (busyWith smallCfg 3#32 [1#8]).refuse with pending := [.write 0x1008 .w32 8#32] };
      step s = .next (afterward (step s)) ∧ s.status.ovr = true ∧ (afterward (step s)).status.ovr = false) ∧
    (let s := { (busyWith smallCfg 3#32 [1#8]).refuse with pending := [.hardReset] };
      step s = .next (afterward (step s)) ∧ s.status.ovr = true ∧ s.hardResetNext = true) :=
  ⟨⟨rfl, by decide, by decide, by decide, by decide⟩, ⟨rfl, by decide, by decide⟩, ⟨rfl, by decide, by decide⟩⟩
/-- IRQ rises at a completion with IE set and falls by a STATUS write of 2, a CMD write, a CTRL write of 0, or a reset. -/
theorem witness_InterruptFollowsDoneAndEnable :
    (let s := { busyWith smallCfg 3#32 [1#8] with ie := true };
      step s = .next (afterward (step s)) ∧ s.irq = false ∧ (afterward (step s)).irq = true) ∧
    (∀ ev ∈ [Event.write 0x1008 .w32 2#32, .write 0x1004 .w32 0#32, .write 0x1000 .w32 0#32, .hardReset],
      let s := { (idleWith smallCfg []).commit [] .none with ie := true, pending := [ev] };
      s.irq = true ∧ (afterward (step s)).irq = false) := ⟨⟨rfl, by decide, by decide⟩, by decide⟩
theorem witness_ParametersNeverChange : step State.reset = .next State.reset := rfl
theorem witness_UnitStepsComputeTheCommand :
    (busyWith smallCfg 2#32 [1#8, 0x41#8]).phase = .busy 2#32 2 ∧
    (busyWith smallCfg 2#32 [1#8, 0x41#8]).engine.seq = .start ∧ (2 : Nat) ≠ 0 ∧ (2#32 = 1#32 ∨ 2#32 = 2#32) := by decide
theorem witness_HostSequenceCompressesBuffer :
    let b : List Byte := [0x41#8]
    let s := { idleWith smallCfg [] with pending :=
      [.write 0x01001000 .w8 0x41#32, .write 0x100C .w32 1#32, .write 0x1004 .w32 3#32, .command] }
    s.cfg.wf ∧ s.phase = .idle ∧ b.length ≤ s.cfg.inCap ∧
    s.pending = (b.zipIdx.map fun c => Event.write (s.cfg.blockBase + 0x01000000 + c.2) .w8 (c.1.setWidth 32)) ++
      [.write (s.cfg.blockBase + 0x00C) .w32 (BitVec.ofNat 32 b.length),
       .write (s.cfg.blockBase + 0x004) .w32 3#32, .command] ++ [] := by decide

end Sys2Proof.Tests
end

section
/-! The facts about one fetch: the decoder gives only well-formed instructions, in the phase they ask for, and fetching
changes neither STATUS nor PHASE. -/

namespace Sys2Proof.Machine

open Sys2Proof

/-! ## The decoder's answers -/

/-- A 32-bit register write decodes to a well-formed instruction that the phase admits (R122 to R127). -/
theorem decodeRegWrite_wellFormed {cfg : Config} {busy : Bool} {r : Reg} {v : Word} {i : Instr}
    (h : decodeRegWrite busy r v = .ok i) : i.wellFormed cfg = true ∧ i.admitsPhase busy = true := by
  cases r with
  | ctrl =>
    cases hv : srstBit v <;> simp only [decodeRegWrite, hv] at h <;> cases h
    · exact ⟨by simp [Instr.wellFormed, hv], rfl⟩
    · exact ⟨hv, rfl⟩
  | cmd => cases busy <;> cases h <;> exact ⟨rfl, rfl⟩
  | status => cases h; exact ⟨rfl, rfl⟩
  | inLen => cases h; exact ⟨rfl, rfl⟩
  | outLen => cases h

/-- A window access that the decoder takes fits the window (R53). -/
theorem windowFits_of_decodeWindow {cap i : Nat} {w : Width} {u : Unit} (h : decodeWindow cap i w = .ok u) :
    windowFits cap i w = true := by
  unfold decodeWindow at h
  split_ifs at h with hcap halign hover
  simp only [windowFits, Bool.and_eq_true, decide_eq_true_eq]
  omega

theorem decodeRead_wellFormed {cfg : Config} {busy : Bool} {addr : Word} {w : Width} {i : Instr}
    (h : decodeRead cfg addr w = .ok i) : i.wellFormed cfg = true ∧ i.admitsPhase busy = true := by
  unfold decodeRead at h
  split at h
  · next off _ =>
    cases hr : decodeRegSpace off w <;> rw [hr] at h <;> cases h
    exact ⟨rfl, rfl⟩
  · next j _ =>
    cases hw : decodeWindow cfg.inCap j w <;> rw [hw] at h <;> cases h
    exact ⟨windowFits_of_decodeWindow hw, rfl⟩
  · next j _ =>
    cases hw : decodeWindow cfg.outCap j w <;> rw [hw] at h <;> cases h
    exact ⟨windowFits_of_decodeWindow hw, rfl⟩
  · cases h

theorem decodeWrite_wellFormed {cfg : Config} {busy : Bool} {addr : Word} {w : Width} {v : Word} {i : Instr}
    (h : decodeWrite cfg busy addr w v = .ok i) : i.wellFormed cfg = true ∧ i.admitsPhase busy = true := by
  unfold decodeWrite at h
  split at h
  · next off _ =>
    cases hr : decodeRegSpace off w <;> rw [hr] at h
    · cases h
    · exact decodeRegWrite_wellFormed h
  · next j _ =>
    cases hw : decodeWindow cfg.inCap j w <;> rw [hw] at h <;> cases h
    exact ⟨windowFits_of_decodeWindow hw, rfl⟩
  · next j _ => cases hw : decodeWindow cfg.outCap j w <;> rw [hw] at h <;> cases h
  · cases h

/-- A host access decodes to a well-formed instruction that the phase admits (R121). -/
theorem decodeAccess_wellFormed {cfg : Config} {busy : Bool} {a : Access} {i : Instr}
    (h : decodeAccess cfg busy a = .ok i) : i.wellFormed cfg = true ∧ i.admitsPhase busy = true := by
  cases a with
  | read addr w => exact decodeRead_wellFormed h
  | write addr w v => exact decodeWrite_wellFormed h

/-- Every command word is a well-formed instruction (R76, R77). -/
theorem decodeCommand_wellFormed (cfg : Config) (busy : Bool) (w : Word) :
    (decodeCommand w).wellFormed cfg = true ∧ (decodeCommand w).admitsPhase busy = true := by
  obtain ⟨-, h⟩ | ⟨-, h⟩ | ⟨-, h⟩ | ⟨h1, h2, h3, h⟩ := decodeCommand_cases w <;> rw [h]
  · exact ⟨rfl, rfl⟩
  · exact ⟨rfl, rfl⟩
  · exact ⟨rfl, rfl⟩
  · exact ⟨by simp [Instr.wellFormed, h1, h2, h3], rfl⟩

/-- Every pair of stream bytes is a well-formed back-reference (R70, R71, R78). -/
theorem decodeRef_wellFormed (cfg : Config) (b0 b1 : Byte) : (decodeRef b0 b1).wellFormed cfg = true := by
  have hoff := (refOffset b0 b1).isLt
  have hlen := (b1.extractLsb' 0 4).isLt
  simp only [decodeRef, refLength, Instr.wellFormed, ringSize, minMatch, lookahead, Bool.and_eq_true, decide_eq_true_eq]
  omega

/-! ## What is fetched -/

/-- What a fetch in state `s` other than a hard reset gives: a well-formed instruction that the phase admits, or a quiet
effect, and in both STATUS and PHASE are those of `s`. -/
def Fetched.SoundFor (s : State) : Fetched → Prop
  | .run i s1 => i.wellFormed s.cfg = true ∧ i.admitsPhase s.busy = true ∧ s1.status = s.status ∧ s1.phase = s.phase
  | .quiet s1 => s1.status = s.status ∧ s1.phase = s.phase

theorem State.fetchAccess_soundFor (s : State) (a : Access) : (s.fetchAccess a).SoundFor s := by
  obtain ⟨i, hd, hf⟩ | ⟨r, -, hf⟩ := s.fetchAccess_cases a <;> rw [hf]
  · obtain ⟨hwf, hphase⟩ := decodeAccess_wellFormed hd
    exact ⟨hwf, hphase, rfl, rfl⟩
  · cases a <;> exact ⟨rfl, rfl⟩

theorem Fetched.soundFor_decodeCommand (s : State) (w : Word) : (Fetched.run (decodeCommand w) s).SoundFor s := by
  obtain ⟨hwf, hphase⟩ := decodeCommand_wellFormed s.cfg s.busy w
  exact ⟨hwf, hphase, rfl, rfl⟩

theorem State.fetchCommand_soundFor (s : State) : s.fetchCommand.SoundFor s := by
  obtain ⟨code, n, -, hf⟩ | ⟨-, hf⟩ := s.fetchCommand_cases <;> rw [hf]
  · exact Fetched.soundFor_decodeCommand s code
  · exact ⟨rfl, rfl⟩

theorem State.fetchHeaderless_soundFor (s : State) (n : Nat) : (s.fetchHeaderless n).SoundFor s :=
  ⟨rfl, rfl, rfl, rfl⟩

theorem State.fetchUnit_soundFor (s : State) : s.fetchUnit.SoundFor s := by
  unfold State.fetchUnit
  split
  · exact ⟨rfl, rfl⟩
  · next code n _ =>
    split
    · split_ifs
      · exact ⟨rfl, rfl, rfl, rfl⟩
      · exact s.fetchHeaderless_soundFor n
      · exact Fetched.soundFor_decodeCommand s code
    · exact ⟨rfl, rfl, rfl, rfl⟩
    · split_ifs
      · exact ⟨rfl, rfl, rfl, rfl⟩
      · exact ⟨decodeRef_wellFormed _ _ _, rfl, rfl, rfl⟩
    · split_ifs
      · exact s.fetchHeaderless_soundFor n
      · exact Fetched.soundFor_decodeCommand s code

theorem State.fetchEvent_soundFor (s : State) {ev : Event} (hev : ev ≠ .hardReset) : (s.fetchEvent ev).SoundFor s := by
  cases ev with
  | read busAddr w =>
    simp only [State.fetchEvent]
    split
    · exact s.fetchAccess_soundFor _
    · exact ⟨rfl, rfl⟩
  | write busAddr w v =>
    simp only [State.fetchEvent]
    split
    · exact s.fetchAccess_soundFor _
    · exact ⟨rfl, rfl⟩
  | command => exact s.fetchCommand_soundFor
  | unit => exact s.fetchUnit_soundFor
  | hardReset => exact absurd rfl hev

/-- A step is a hard reset, or its fetch is sound (R151). -/
theorem fetch_hardReset_or_soundFor (s : State) :
    (s.hardResetNext = true ∧ ∃ s1 : State, fetch s = .quiet s1.toReset) ∨
    (s.hardResetNext = false ∧ (fetch s).SoundFor s) := by
  unfold fetch State.hardResetNext
  cases s.pending with
  | nil => exact .inr ⟨rfl, s.fetchCommand_soundFor⟩
  | cons ev rest =>
    have sound : ev ≠ .hardReset → (({ s with pending := rest }).fetchEvent ev).SoundFor s :=
      fun hev => State.fetchEvent_soundFor { s with pending := rest } hev
    cases ev with
    | hardReset => exact .inl ⟨rfl, { s with pending := rest }, rfl⟩
    | read busAddr w => exact .inr ⟨rfl, sound nofun⟩
    | write busAddr w v => exact .inr ⟨rfl, sound nofun⟩
    | command => exact .inr ⟨rfl, sound nofun⟩
    | unit => exact .inr ⟨rfl, sound nofun⟩

theorem State.nextInstr_of_run {s s1 : State} {i : Instr} (h : fetch s = .run i s1) : s.nextInstr = some i := by
  simp [State.nextInstr, h]

theorem State.nextInstr_of_quiet {s s1 : State} (h : fetch s = .quiet s1) : s.nextInstr = none := by
  simp [State.nextInstr, h]

/-- All a step can be: a hard reset, a quiet effect that keeps STATUS, or a well-formed instruction that the phase admits,
run from a state with the same STATUS and PHASE. -/
theorem step_reset_quiet_or_exec {s t : State} (h : step s = .next t) :
    (s.hardResetNext = true ∧ s.nextInstr = none ∧ t.status = Status.clear) ∨
    (s.hardResetNext = false ∧ s.nextInstr = none ∧ t.status = s.status) ∨
    (s.hardResetNext = false ∧ ∃ i s1, s.nextInstr = some i ∧ exec i s1 = .next t ∧
      i.wellFormed s.cfg = true ∧ i.admitsPhase s.busy = true ∧ s1.status = s.status ∧ s1.phase = s.phase) := by
  obtain ⟨hr, s1, hf⟩ | ⟨hr, hsound⟩ := fetch_hardReset_or_soundFor s
  · rw [step_of_quiet s _ hf] at h
    cases h
    exact .inl ⟨hr, State.nextInstr_of_quiet hf, rfl⟩
  · obtain ⟨i, s1, hf, hexec⟩ | hf := step_cases s t h <;> rw [hf] at hsound
    · exact .inr (.inr ⟨hr, i, s1, State.nextInstr_of_run hf, hexec, hsound⟩)
    · exact .inr (.inl ⟨hr, State.nextInstr_of_quiet hf, hsound.1⟩)

end Sys2Proof.Machine
end

section
/-! The OVR bit (spec/10_state.md R23): the instructions that set it and those that clear it. -/

namespace Sys2Proof

/-- The writes that R23 refuses while BUSY. -/
def Instr.refusedWhileBusy : Instr → Bool
  | .cmdWriteRefused _ => true
  | .inLenWrite _ => true
  | .inWindowAccess (.write _) _ _ => true
  | _ => false

/-- The instructions that clear OVR (R23). -/
def Instr.clearsOverrun : Instr → Bool
  | .statusWrite v => v.getLsbD 3
  | .softReset _ => true
  | _ => false

theorem Instr.refusedWhileBusy_iff (i : Instr) : i.refusedWhileBusy = true ↔
    ∃ v : Word, i = .cmdWriteRefused v ∨ i = .inLenWrite v ∨
      ∃ (j : Nat) (w : Width), i = .inWindowAccess (.write v) j w := by
  constructor
  · intro h
    unfold Instr.refusedWhileBusy at h
    split at h
    · exact ⟨_, .inl rfl⟩
    · exact ⟨_, .inr (.inl rfl)⟩
    · exact ⟨_, .inr (.inr ⟨_, _, rfl⟩)⟩
    · cases h
  · rintro ⟨v, rfl | rfl | ⟨j, w, rfl⟩⟩ <;> rfl

theorem Instr.clearsOverrun_iff (i : Instr) : i.clearsOverrun = true ↔
    (∃ v : Word, i = .statusWrite v ∧ v.getLsbD 3 = true) ∨ ∃ v, i = .softReset v := by
  constructor
  · intro h
    unfold Instr.clearsOverrun at h
    split at h
    · exact .inl ⟨_, rfl, h⟩
    · exact .inr ⟨_, rfl⟩
    · cases h
  · rintro (⟨v, rfl, hv⟩ | ⟨v, rfl⟩)
    · exact hv
    · rfl

end Sys2Proof

namespace Sys2Proof.Machine

open Sys2Proof

/-- No completion of a command touches OVR (R83, R136). -/
theorem State.finish_ovr (s : State) (r : Result × Engine) : (s.finish r).status.ovr = s.status.ovr := by
  unfold State.finish
  obtain ⟨bs, p, -, -, h⟩ | ⟨bs, p, -, -, h⟩ | ⟨k, -, h⟩ := State.complete_cases { s with engine := r.2 } r.1 <;>
    rw [h] <;> rfl

/-- A write that R23 names is refused while BUSY (R123, R127, R128). -/
theorem exec_of_refusedWhileBusy {i : Instr} {s : State} (hi : i.refusedWhileBusy = true) (hb : s.busy = true) :
    exec i s = .next s.refuse := by
  cases hp : s.phase with
  | idle => simp [hp] at hb
  | busy code n =>
    obtain ⟨v, rfl | rfl | ⟨j, w, rfl⟩⟩ := i.refusedWhileBusy_iff.mp hi
    · simp [exec, execCmdWriteRefused, hp]
    · simp [exec, execInLenWrite, hp]
    · simp [exec, execInWindowAccess, hp]

theorem exec_ovr_of_refusedWhileBusy {i : Instr} {s t : State} (hi : i.refusedWhileBusy = true) (hb : s.busy = true)
    (h : exec i s = .next t) : t.status.ovr = true := by
  rw [exec_of_refusedWhileBusy hi hb] at h
  cases h
  rfl

/-- A STATUS write with bit 3, or a soft reset, leaves OVR clear (R125, R126). -/
theorem exec_ovr_of_clearsOverrun {i : Instr} {s t : State} (hi : i.clearsOverrun = true) (h : exec i s = .next t) :
    t.status.ovr = false := by
  obtain ⟨v, rfl, hv⟩ | ⟨v, rfl⟩ := i.clearsOverrun_iff.mp hi <;> cases h
  · simp [Status.writeOneToClear, hv]
  · rfl

/-- Every other well-formed instruction that the phase admits keeps OVR (R23). -/
theorem exec_keeps_ovr {cfg : Config} {i : Instr} {s t : State} (hwf : i.wellFormed cfg = true)
    (hphase : i.admitsPhase s.busy = true) (hset : s.busy = true → i.refusedWhileBusy = false)
    (hclear : i.clearsOverrun = false) (h : exec i s = .next t) : t.status.ovr = s.status.ovr := by
  cases i with
  | flag _ | lit _ | ref _ _ | registerRead _ => cases h; rfl
  | statusWrite v =>
    cases h
    have hv : v.getLsbD 3 = false := hclear
    simp only [State.clearStatus_status, Status.writeOneToClear, hv, Bool.not_false, Bool.and_true]
  | softReset _ => cases hclear
  | ctrlWrite v =>
    have hv : srstBit v = false := by simpa [Instr.wellFormed] using hwf
    simp only [exec, execCtrlWrite, hv] at h
    cases h
    rfl
  | decompress | decompressRaw | compress =>
    simp only [exec, execDecompress, execDecompressRaw, execCompress] at h
    split at h <;> cases h
    · rfl
    · exact State.finish_ovr _ _
  | hdr _ | badCommand _ | outWindowRead _ _ =>
    simp only [exec, execHdr, execBadCommand, execOutWindowRead] at h
    split at h <;> cases h <;> rfl
  | cmdWriteAccepted _ =>
    simp only [exec, execCmdWriteAccepted] at h
    split at h
    · cases h; rfl
    · next hp => rw [s.busy_of_busy _ _ hp] at hphase; cases hphase
  | cmdWriteRefused _ | inLenWrite _ =>
    simp only [exec, execCmdWriteRefused, execInLenWrite] at h
    split at h
    · cases h; rfl
    · next hp => cases hset (s.busy_of_busy _ _ hp)
  | inWindowAccess op j w =>
    cases op with
    | read => cases h; rfl
    | write v =>
      simp only [exec, execInWindowAccess] at h
      split at h
      · cases h; rfl
      · next hp => cases hset (s.busy_of_busy _ _ hp)

/-- OVR rises only by a write that R23 refuses. -/
theorem refused_of_exec_ovr_rises {cfg : Config} {i : Instr} {s t : State} (hwf : i.wellFormed cfg = true)
    (hphase : i.admitsPhase s.busy = true) (h : exec i s = .next t) (hs : s.status.ovr = false)
    (ht : t.status.ovr = true) : s.busy = true ∧ i.refusedWhileBusy = true := by
  by_contra hnot
  have hset : s.busy = true → i.refusedWhileBusy = false := fun hb => by simpa [hb] using hnot
  have hclear : i.clearsOverrun = false :=
    Bool.eq_false_iff.mpr fun hi => absurd ht (by simp [exec_ovr_of_clearsOverrun hi h])
  have hkeep := exec_keeps_ovr hwf hphase hset hclear h
  simp [hkeep, hs] at ht

/-- OVR falls only by an instruction that clears it. -/
theorem clears_of_exec_ovr_falls {cfg : Config} {i : Instr} {s t : State} (hwf : i.wellFormed cfg = true)
    (hphase : i.admitsPhase s.busy = true) (h : exec i s = .next t) (hs : s.status.ovr = true)
    (ht : t.status.ovr = false) : i.clearsOverrun = true := by
  by_contra hnot
  have hset : s.busy = true → i.refusedWhileBusy = false := fun hb =>
    Bool.eq_false_iff.mpr fun hi => absurd ht (by simp [exec_ovr_of_refusedWhileBusy hi hb h])
  have hkeep := exec_keeps_ovr hwf hphase hset (by simpa using hnot) h
  simp [hkeep, hs] at ht

/-- Settles O53 (R23): by what a step can be, and for an instruction by what it does to OVR. -/
theorem overrunIsSticky : Obligations.OverrunIsSticky := by
  unfold Obligations.OverrunIsSticky
  intro s t h
  obtain ⟨hr, hn, hst⟩ | ⟨hr, hn, hst⟩ | ⟨hr, i, s1, hn, hexec, hwf, hphase, hst, hph⟩ := step_reset_quiet_or_exec h
  · simp [State.resetNext, hr, hn, hst, Status.clear]
  · simp +contextual [State.resetNext, State.softResetNext, hr, hn, hst]
  · have hbusy : s1.busy = s.busy := by simp only [State.busy, hph]
    have hreset : s.resetNext ↔ ∃ v, i = .softReset v := by simp [State.resetNext, State.softResetNext, hr, hn]
    simp only [hn, Option.some.injEq, hreset, ← hst, ← hbusy, ← i.refusedWhileBusy_iff, ← i.clearsOverrun_iff]
    rw [← hbusy] at hphase
    exact ⟨refused_of_exec_ovr_rises hwf hphase hexec,
      fun v hb hi => exec_ovr_of_refusedWhileBusy (i.refusedWhileBusy_iff.mpr ⟨v, hi⟩) hb hexec,
      clears_of_exec_ovr_falls hwf hphase hexec, fun hi => exec_ovr_of_clearsOverrun hi hexec⟩

end Sys2Proof.Machine
end

section
/-! The stream header as a number (spec/20_memory.md R48): little-endian concatenation of its four bytes. -/

namespace Sys2Proof

/-- The header's bytes stand side by side, the first one least significant (R48). -/
theorem hdrSize_eq_append (b0 b1 b2 b3 : Byte) : hdrSize b0 b1 b2 b3 = b3 ++ b2 ++ b1 ++ b0 := by
  unfold hdrSize
  ext i hi
  simp only [BitVec.getElem_or, BitVec.getElem_shiftLeft, BitVec.getElem_setWidth]
  grind

theorem toNat_append_byte {n : Nat} (x : BitVec n) (b : Byte) : (x ++ b).toNat = 256 * x.toNat + b.toNat := by
  rw [BitVec.toNat_append, ← Nat.shiftLeft_add_eq_or_of_lt b.isLt, Nat.shiftLeft_eq, Nat.mul_comm]

/-- The weighted sum of R48. -/
theorem toNat_hdrSize (b0 b1 b2 b3 : Byte) :
    (hdrSize b0 b1 b2 b3).toNat = b0.toNat + 256 * b1.toNat + 65536 * b2.toNat + 16777216 * b3.toNat := by
  rw [hdrSize_eq_append, toNat_append_byte, toNat_append_byte, toNat_append_byte]
  omega

/-- The little-endian bytes of a word, read as a header, give the word back (R48). -/
theorem hdrSize_extractLsb' (v : Word) :
    hdrSize (v.extractLsb' 0 8) (v.extractLsb' 8 8) (v.extractLsb' 16 8) (v.extractLsb' 24 8) = v := by
  apply BitVec.eq_of_toNat_eq
  simp only [toNat_hdrSize, BitVec.extractLsb'_toNat, Nat.shiftRight_eq_div_pow]
  omega

/-- Settles O3 (R48): the weighted sum, and the round trip that follows from it. -/
theorem headerSizeIsLittleEndian : Obligations.HeaderSizeIsLittleEndian := by
  unfold Obligations.HeaderSizeIsLittleEndian
  refine ⟨toNat_hdrSize, fun v => ?_⟩
  simp only [wordBytes, decodeStream, decodeHdr, hdrSize_extractLsb']

end Sys2Proof
end

section
/-! The accesses that are no instruction (spec/20_memory.md R47, R52, R53): the decoder rejects them, and a step that takes
one does no more than answer a read with 0. -/

namespace Sys2Proof

/-- The places of the address map where an access of width `w` is ignored in both directions: in REG a narrow, misaligned
or reserved one, in a window a misaligned or overhanging one, and every unmapped address (R47, R52, R53). -/
def Region.Ignores (cfg : Config) (w : Width) : Region → Prop
  | .reg off => w ≠ .w32 ∨ off % 4 ≠ 0 ∨ 0x010 < off
  | .inWindow i => i % w.bytes ≠ 0 ∨ cfg.inCap < i + w.bytes
  | .outWindow i => i % w.bytes ≠ 0 ∨ cfg.outCap < i + w.bytes
  | .nowhere => True

/-! ## The address map, one equation per part (R46) -/

theorem regionOf_reg {addr : Nat} (h : addr < regSpan) : regionOf addr = .reg addr := by
  simp only [regionOf, h, if_true]

theorem regionOf_nowhere {addr : Nat} (hlo : regSpan ≤ addr) (hhi : addr < inBase) : regionOf addr = .nowhere := by
  simp only [regionOf, hlo.not_gt, hhi, if_true, if_false]

theorem regionOf_inWindow {addr : Nat} (hlo : inBase ≤ addr) (hhi : addr < outBase) :
    regionOf addr = .inWindow (addr - inBase) := by
  have hreg : ¬ addr < regSpan := by simp only [regSpan, inBase] at *; omega
  simp only [regionOf, hreg, hlo.not_gt, hhi, if_true, if_false]

theorem regionOf_outWindow {addr : Nat} (h : outBase ≤ addr) : regionOf addr = .outWindow (addr - outBase) := by
  have hreg : ¬ addr < regSpan := by simp only [regSpan, outBase] at *; omega
  have hin : ¬ addr < inBase := by simp only [inBase, outBase] at *; omega
  simp only [regionOf, hreg, hin, h.not_gt, if_false]

/-! ## What the decoder rejects -/

/-- No register lies above OUT_LEN (R46, R47). -/
theorem regAt_eq_none_of_lt {off : Nat} (h : 0x010 < off) : regAt off = none := by
  have hne : ∀ k ≤ 0x010, off ≠ k := by omega
  simp [regAt, hne]

theorem decodeRegSpace_error {off : Nat} {w : Width} (h : w ≠ .w32 ∨ off % 4 ≠ 0 ∨ 0x010 < off) :
    ∃ r, decodeRegSpace off w = .error r := by
  unfold decodeRegSpace
  split_ifs with hw halign
  · exact ⟨_, rfl⟩
  · exact ⟨_, rfl⟩
  · have habove : 0x010 < off := (h.resolve_left hw).resolve_left halign
    exact ⟨_, by rw [regAt_eq_none_of_lt habove]⟩

/-- A window rejects what does not fit it (R53). -/
theorem decodeWindow_error {cap i : Nat} {w : Width} (h : i % w.bytes ≠ 0 ∨ cap < i + w.bytes) :
    ∃ r, decodeWindow cap i w = .error r := by
  cases hw : decodeWindow cap i w with
  | error r => exact ⟨r, rfl⟩
  | ok u =>
    have hfits := Machine.windowFits_of_decodeWindow hw
    simp only [windowFits, Bool.and_eq_true, decide_eq_true_eq] at hfits
    omega

theorem decodeRead_error {cfg : Config} {addr : Word} {w : Width} (h : (regionOf addr.toNat).Ignores cfg w) :
    ∃ r, decodeRead cfg addr w = .error r := by
  unfold decodeRead
  cases hreg : regionOf addr.toNat <;> rw [hreg] at h
  case reg off => obtain ⟨r, hr⟩ := decodeRegSpace_error h; exact ⟨r, by simp only [hr]; rfl⟩
  case inWindow i => obtain ⟨r, hr⟩ := decodeWindow_error h; exact ⟨r, by simp only [hr]; rfl⟩
  case outWindow i => obtain ⟨r, hr⟩ := decodeWindow_error h; exact ⟨r, by simp only [hr]; rfl⟩
  case nowhere => exact ⟨_, rfl⟩

theorem decodeWrite_error {cfg : Config} {busy : Bool} {addr : Word} {w : Width} {v : Word}
    (h : (regionOf addr.toNat).Ignores cfg w) : ∃ r, decodeWrite cfg busy addr w v = .error r := by
  unfold decodeWrite
  cases hreg : regionOf addr.toNat <;> rw [hreg] at h
  case reg off => obtain ⟨r, hr⟩ := decodeRegSpace_error h; exact ⟨r, by simp only [hr]; rfl⟩
  case inWindow i => obtain ⟨r, hr⟩ := decodeWindow_error h; exact ⟨r, by simp only [hr]; rfl⟩
  case outWindow i => obtain ⟨r, hr⟩ := decodeWindow_error h; exact ⟨r, by simp only [hr]; rfl⟩
  case nowhere => exact ⟨_, rfl⟩

end Sys2Proof

namespace Sys2Proof.Machine

open Sys2Proof

/-- The bus address of a block-relative address reaches that address (R46). -/
@[simp] theorem blockAddress_blockBase_add (cfg : Config) (addr : Word) :
    blockAddress cfg (cfg.blockBase + addr.toNat) = some addr := by
  have hin : cfg.blockBase ≤ cfg.blockBase + addr.toNat ∧ cfg.blockBase + addr.toNat < cfg.blockBase + regionSpan := by
    have := addr.isLt
    simp only [regionSpan]
    omega
  rw [blockAddress, if_pos hin, Nat.add_sub_cancel_left, BitVec.ofNat_toNat, BitVec.setWidth_eq]

theorem State.fetchAccess_of_error {s : State} {a : Access} (h : ∃ r, decodeAccess s.cfg s.busy a = .error r) :
    s.fetchAccess a = .quiet (s.ignoreAccess a) := by
  obtain ⟨r, hr⟩ := h
  simp only [State.fetchAccess, hr]

/-- A pending read that decodes to no instruction returns 0 and changes nothing else (R47, R52, R53). -/
theorem step_read_of_error {s : State} {addr : Word} {w : Width} {rest : List Event}
    (h : ∃ r, decodeAccess s.cfg s.busy (.read addr w) = .error r) :
    step { s with pending := .read (s.cfg.blockBase + addr.toNat) w :: rest } =
      .next { s with pending := rest, rdata := 0#32 } := by
  refine step_of_quiet _ _ ?_
  simp only [fetch, State.fetchEvent, blockAddress_blockBase_add]
  exact State.fetchAccess_of_error h

/-- A pending write that decodes to no instruction changes nothing (R47, R52, R53, R129, R130). -/
theorem step_write_of_error {s : State} {addr v : Word} {w : Width} {rest : List Event}
    (h : ∃ r, decodeAccess s.cfg s.busy (.write addr w v) = .error r) :
    step { s with pending := .write (s.cfg.blockBase + addr.toNat) w v :: rest } = .next { s with pending := rest } := by
  refine step_of_quiet _ _ ?_
  simp only [fetch, State.fetchEvent, blockAddress_blockBase_add]
  exact State.fetchAccess_of_error h

/-- Settles O41 (R47, R52, R53): each case of the hypothesis is an ignored place of the address map, and there the decoder
rejects reads and writes alike. -/
theorem ignoredAccessesDoNothing : Obligations.IgnoredAccessesDoNothing := by
  unfold Obligations.IgnoredAccessesDoNothing
  intro s addr w rest _ h
  have hign : (regionOf addr.toNat).Ignores s.cfg w := by
    obtain ⟨hreg, hbad⟩ | ⟨hlo, hhi⟩ | ⟨hlo, hhi, hbad⟩ | ⟨hlo, hbad⟩ := h
    · rwa [regionOf_reg hreg]
    · rw [regionOf_nowhere hlo hhi]; trivial
    · rwa [regionOf_inWindow hlo hhi]
    · rwa [regionOf_outWindow hlo]
  exact ⟨step_read_of_error (decodeRead_error hign), fun v => step_write_of_error (decodeWrite_error hign)⟩

end Sys2Proof.Machine
end

section
/-! Decode state never carries between evaluations (spec/40_decompress.md R82): the loop of R81 reads none of the working
registers that decode initialisation leaves, which are the compressor's, so putting other values there commutes with every
point of the loop. -/

namespace Sys2Proof.Machine

open Sys2Proof

/-- The engine `e` with the compressor's registers of `d`: CPOS, GRP_IDX, GRP_BIT and TREE (R35, R36). -/
def Engine.withCompressorOf (e d : Engine) : Engine :=
  { e with cpos := d.cpos, grpIdx := d.grpIdx, grpBit := d.grpBit, tree := d.tree }

@[simp] theorem Engine.withCompressorOf_seq (e d : Engine) : (e.withCompressorOf d).seq = e.seq := rfl
@[simp] theorem Engine.withCompressorOf_produced (e d : Engine) : (e.withCompressorOf d).produced = e.produced := rfl
@[simp] theorem Engine.withCompressorOf_selectsLit (e d : Engine) :
    (e.withCompressorOf d).selectsLit = e.selectsLit := rfl
@[simp] theorem Engine.withCompressorOf_flagOperand (inB : Nat → Byte) (e d : Engine) :
    (e.withCompressorOf d).flagOperand inB = e.flagOperand inB := rfl
@[simp] theorem Engine.withCompressorOf_peek (inB : Nat → Byte) (e d : Engine) (k : Nat) :
    (e.withCompressorOf d).peek inB k = e.peek inB k := rfl

/-! ## Each point of the loop -/

/-- The flag step (R84) reads FLAGS, IP and END alone. -/
theorem Engine.flagStep_withCompressorOf (e d : Engine) (f : Byte) :
    (e.withCompressorOf d).flagStep f = (e.flagStep f).withCompressorOf d := by
  obtain ⟨hdue, he⟩ | ⟨hdue, hin, he⟩ | ⟨hdue, hend, he⟩ := e.flagStep_cases f
  · rw [he]; exact if_neg (ne_true_of_eq_false hdue)
  · rw [he]; exact (if_pos hdue).trans (if_neg (Nat.not_le.2 hin))
  · rw [he]; exact (if_pos hdue).trans (if_pos hend)

/-- The copy loop (R86) neither reads nor writes a compressor register. -/
theorem Engine.copyRing_withCompressorOf (off k m : Nat) (e d : Engine) :
    Engine.copyRing off k m (e.withCompressorOf d) = (Engine.copyRing off k m e).withCompressorOf d := by
  induction m generalizing k e with
  | zero => rfl
  | succ m ih => exact ih (k + 1) (e.produce (e.ringRead (off + k)))

/-- The literal unit (R85). -/
theorem Engine.literal_withCompressorOf (e d : Engine) (c : Byte) :
    (e.withCompressorOf d).literal c = (e.literal c).withCompressorOf d := by
  obtain ⟨hend, he⟩ | ⟨hin, he⟩ := e.literal_cases c
  · rw [he]; exact if_pos hend
  · rw [he]; exact if_neg (Nat.not_le.2 hin)

/-- The back-reference unit (R86, R88). -/
theorem Engine.backReference_withCompressorOf (e d : Engine) (off len : Nat) :
    (e.withCompressorOf d).backReference off len = (e.backReference off len).withCompressorOf d := by
  obtain ⟨hshort, he⟩ | ⟨henough, he⟩ := e.backReference_cases off len
  · rw [he]; exact if_pos hshort
  · rw [he, Engine.backReference, Engine.copyRing_withCompressorOf]; exact if_neg (Nat.not_lt.2 henough)

/-- A point of the loop (R81) moves the decode registers the same way whatever the compressor's hold. -/
theorem Engine.advance_withCompressorOf (inB : Nat → Byte) (e d : Engine) :
    (e.withCompressorOf d).advance inB = (e.advance inB).withCompressorOf d := by
  cases hseq : e.seq with
  | start => simp [Engine.advance, hseq]
  | flagStep => simp [Engine.advance, hseq, Engine.flagStep_withCompressorOf]
  | stopped p => simp [Engine.advance, hseq]
  | unit =>
    cases hlit : e.selectsLit with
    | true => simp [Engine.advance, hseq, hlit, Engine.literal_withCompressorOf]
    | false => simp [Engine.advance, hseq, hlit, Engine.backReference_withCompressorOf]

theorem Engine.advanceBy_withCompressorOf (inB : Nat → Byte) (k : Nat) (e d : Engine) :
    Engine.advanceBy inB k (e.withCompressorOf d) = (Engine.advanceBy inB k e).withCompressorOf d := by
  induction k generalizing e with
  | zero => rfl
  | succ k ih => rw [Engine.advanceBy, Engine.advanceBy, Engine.advance_withCompressorOf, ih]

/-! ## A whole decode -/

/-- Decode initialisation (R82) overwrites every working register but the compressor's. -/
theorem Engine.beginDecode_eq_withCompressorOf (e e' : Engine) (a : Attempt) (lo hi : Nat) :
    e'.beginDecode a lo hi = (e.beginDecode a lo hi).withCompressorOf e' := rfl

/-- Two decodes of one payload differ at most in the compressor's registers, and leave those as they were. -/
theorem Engine.decode_eq_withCompressorOf (inB : Nat → Byte) (a : Attempt) (lo hi : Nat) (e e' : Engine) :
    Engine.decode inB a lo hi e' = (Engine.decode inB a lo hi e).withCompressorOf e' := by
  rw [Engine.decode, Engine.decode, e.beginDecode_eq_withCompressorOf e', Engine.advanceBy_withCompressorOf]

/-- FLAGS = 0 makes the first flag step fetch (R82, R84). -/
theorem Engine.beginDecode_fetchDue (e : Engine) (a : Attempt) (lo hi : Nat) :
    (e.beginDecode a lo hi).fetchDue = true := by
  rw [Engine.fetchDue, Engine.shiftedFlags, Engine.beginDecode_flags]
  decide

/-- Settles O9 (R82): the initial values are those of `Engine.beginDecode`, and the output is not a compressor register. -/
theorem decodeStartsAfresh : Obligations.DecodeStartsAfresh := by
  unfold Obligations.DecodeStartsAfresh
  refine ⟨fun e a lo hi => ?_, fun inB a lo hi e e' => ?_⟩
  · exact ⟨Memory.read_blank_zero, rfl, rfl, rfl, rfl, rfl, e.beginDecode_fetchDue a lo hi⟩
  · rw [Engine.decode_eq_withCompressorOf inB a lo hi e' e, Engine.withCompressorOf_produced]

end Sys2Proof.Machine
end

section
/-! Match selection of the compressor (spec/41_compress.md R104 to R106): where the scan of one candidate stops, and what
the scan over the candidates keeps. -/

namespace Sys2Proof.Machine

open Sys2Proof

/-! ## One candidate (R104, R105) -/

/-- p(d) = (RPOS − d) mod 4096 (R104); the distance 4096 names RPOS itself. -/
theorem Engine.matchAddr_toNat (e : Engine) {d : Nat} (hd : d ≤ 4096) :
    (e.matchAddr d).toNat = (e.rpos.toNat + 4096 - d) % 4096 := by
  rw [Engine.matchAddr, BitVec.toNat_sub, BitVec.toNat_ofNat]
  omega

theorem Engine.matchSource_eq (inB : Nat → Byte) (e : Engine) {d : Nat} (hd : d ≤ 4096) (k : Nat) :
    e.matchSource inB d k =
      if k < d then e.ring.read (((e.rpos.toNat + 4096 - d) % 4096 + k) % 4096) else inB (e.cpos + k - d) := by
  rw [Engine.matchSource, Engine.ringRead, e.matchAddr_toNat hd]

/-- The scan of R105 from position `k` with `r` positions left stays within them. -/
theorem Engine.matchFrom_le (inB : Nat → Byte) (e : Engine) (d r k : Nat) : Engine.matchFrom inB e d r k ≤ k + r := by
  induction r generalizing k with
  | zero => exact Nat.le_refl k
  | succ r ih =>
    rw [Engine.matchFrom]
    split
    · have := ih (k + 1); omega
    · exact Nat.le_add_right k (r + 1)

theorem Engine.matchSource_eq_of_lt_matchFrom (inB : Nat → Byte) (e : Engine) (d r k : Nat) {j : Nat} (hkj : k ≤ j)
    (hj : j < Engine.matchFrom inB e d r k) : e.matchSource inB d j = inB (e.cpos + j) := by
  induction r generalizing k with
  | zero => exact absurd hj (Nat.not_lt.2 hkj)
  | succ r ih =>
    rw [Engine.matchFrom] at hj
    split at hj
    next hagree =>
      obtain rfl | hlt := Nat.eq_or_lt_of_le hkj
      · exact hagree
      · exact ih (k + 1) hlt hj
    next => exact absurd hj (Nat.not_lt.2 hkj)

/-- Where the scan stops with positions left, it stops at a difference. -/
theorem Engine.matchSource_ne_at_matchFrom (inB : Nat → Byte) (e : Engine) (d r k : Nat)
    (h : Engine.matchFrom inB e d r k < k + r) :
    e.matchSource inB d (Engine.matchFrom inB e d r k) ≠ inB (e.cpos + Engine.matchFrom inB e d r k) := by
  induction r generalizing k with
  | zero => exact absurd h (Nat.lt_irrefl k)
  | succ r ih =>
    rw [Engine.matchFrom] at h ⊢
    split at h
    next hagree => rw [if_pos hagree]; exact ih (k + 1) (by omega)
    next hdiffer => rwa [if_neg hdiffer]

theorem Engine.matchLength_le (inB : Nat → Byte) (n : Nat) (e : Engine) (d : Nat) :
    e.matchLength inB n d ≤ e.matchLimit n := by
  have := Engine.matchFrom_le inB e d (e.matchLimit n) 0
  rwa [Nat.zero_add] at this

theorem Engine.matchSource_eq_of_lt_matchLength (inB : Nat → Byte) (n : Nat) (e : Engine) (d : Nat) {k : Nat}
    (hk : k < e.matchLength inB n d) : e.matchSource inB d k = inB (e.cpos + k) :=
  Engine.matchSource_eq_of_lt_matchFrom inB e d (e.matchLimit n) 0 (Nat.zero_le k) hk

theorem Engine.matchSource_ne_at_matchLength (inB : Nat → Byte) (n : Nat) (e : Engine) (d : Nat)
    (h : e.matchLength inB n d < e.matchLimit n) :
    e.matchSource inB d (e.matchLength inB n d) ≠ inB (e.cpos + e.matchLength inB n d) :=
  Engine.matchSource_ne_at_matchFrom inB e d (e.matchLimit n) 0 (by rwa [Nat.zero_add])

/-- Settles O16 (R105): the scan from position 0 stops at the limit or at the first difference. -/
theorem matchLengthIsLargestAgreement : Obligations.MatchLengthIsLargestAgreement := by
  unfold Obligations.MatchLengthIsLargestAgreement
  intro inB n d e hd
  exact ⟨e.matchSource_eq inB hd, e.matchLength_le inB n d, fun _ => e.matchSource_eq_of_lt_matchLength inB n d,
    e.matchSource_ne_at_matchLength inB n d⟩

/-! ## The choice among the candidates (R106) -/

/-- `best` is the largest of the lengths m(1) … m(D), with the smallest distance that has it (R106). -/
structure IsLongestNearest (m : Nat → Nat) (D : Nat) (best : Nat × Nat) : Prop where
  longest : ∀ d, 1 ≤ d → d ≤ D → m d ≤ best.1
  one_le : 1 ≤ best.2
  le_bound : best.2 ≤ D
  attained : m best.2 = best.1
  nearest : ∀ d, 1 ≤ d → d < best.2 → m d < best.1

theorem isLongestNearest_one (m : Nat → Nat) : IsLongestNearest m 1 (m 1, 1) where
  longest d hlo hhi := by rw [Nat.le_antisymm hhi hlo]
  one_le := Nat.le_refl 1
  le_bound := Nat.le_refl 1
  attained := rfl
  nearest d hlo hhi := absurd hhi (Nat.not_lt.2 hlo)

/-- A farther candidate takes over only when it is strictly longer than all the nearer ones. -/
theorem IsLongestNearest.of_lt {m : Nat → Nat} {D : Nat} {best : Nat × Nat} (h : IsLongestNearest m D best)
    (hlt : best.1 < m (D + 1)) : IsLongestNearest m (D + 1) (m (D + 1), D + 1) where
  longest d hlo hhi := by
    obtain rfl | hd := Nat.eq_or_lt_of_le hhi
    · exact Nat.le_refl _
    · exact (h.longest d hlo (Nat.le_of_lt_succ hd)).trans hlt.le
  one_le := Nat.le_add_left 1 D
  le_bound := Nat.le_refl (D + 1)
  attained := rfl
  nearest d hlo hhi := (h.longest d hlo (Nat.le_of_lt_succ hhi)).trans_lt hlt

/-- On a tie the nearer candidate stays. -/
theorem IsLongestNearest.of_le {m : Nat → Nat} {D : Nat} {best : Nat × Nat} (h : IsLongestNearest m D best)
    (hle : m (D + 1) ≤ best.1) : IsLongestNearest m (D + 1) best where
  longest d hlo hhi := by
    obtain rfl | hd := Nat.eq_or_lt_of_le hhi
    · exact hle
    · exact h.longest d hlo (Nat.le_of_lt_succ hd)
  one_le := h.one_le
  le_bound := Nat.le_succ_of_le h.le_bound
  attained := h.attained
  nearest := h.nearest

theorem longestNearest_one (m : Nat → Nat) : longestNearest m 1 = (m 1, 1) := by
  rw [longestNearest, longestNearest]
  split
  next => rfl
  next hzero => rw [Nat.eq_zero_of_not_pos hzero]

theorem longestNearest_isLongestNearest (m : Nat → Nat) {D : Nat} (hD : 1 ≤ D) :
    IsLongestNearest m D (longestNearest m D) := by
  induction D, hD using Nat.le_induction with
  | base => rw [longestNearest_one]; exact isLongestNearest_one m
  | succ D _ ih =>
    rw [longestNearest]
    split
    next hlt => exact ih.of_lt hlt
    next hle => exact ih.of_le (Nat.not_lt.1 hle)

theorem Engine.select_isLongestNearest (inB : Nat → Byte) (n : Nat) (e : Engine) {maxDist : Nat} (h : 1 ≤ maxDist) :
    IsLongestNearest (e.matchLength inB n) maxDist (e.select inB n maxDist) :=
  longestNearest_isLongestNearest (e.matchLength inB n) h

/-- Settles O17 (R106), by the induction over MAX_DIST of `longestNearest_isLongestNearest`. -/
theorem selectIsLongestThenNearest : Obligations.SelectIsLongestThenNearest := by
  unfold Obligations.SelectIsLongestThenNearest
  intro inB n maxDist e hmax
  obtain ⟨longest, one_le, le_bound, attained, nearest⟩ := e.select_isLongestNearest inB n hmax
  exact ⟨longest, one_le, le_bound, attained, nearest⟩

end Sys2Proof.Machine
end

section
/-! The STATUS word bit by bit (spec/42_control.md R126, R130), the host's writes to the registers (R122 to R127)
and its reads of them (R130). -/

namespace Sys2Proof.Machine

open Sys2Proof

/-! ## The STATUS and CTRL words (R130) -/

/-- The places of R130's layout: the four flags, the reserved bits, ERRCODE, and PATH with what lies above it. -/
theorem statusBit_cases (i : Nat) :
    i = 0 ∨ i = 1 ∨ i = 2 ∨ i = 3 ∨ (4 ≤ i ∧ i < 8) ∨ (8 ≤ i ∧ i < 12) ∨ 12 ≤ i := by omega

/-- The layout of R130: the four flags at 3:0, ERRCODE at 11:8, PATH at 13:12, and 0 elsewhere. -/
theorem Status.getLsbD_word (st : Status) (busy : Bool) (i : Nat) :
    (st.word busy).getLsbD i =
      if i = 0 then busy else if i = 1 then st.done else if i = 2 then st.err else if i = 3 then st.ovr
      else if i < 8 then false else if i < 12 then st.errCode.getLsbD (i - 8) else st.path.getLsbD (i - 12) := by
  simp only [Status.word, BitVec.getLsbD_append, BitVec.getLsbD_ofBool, BitVec.getLsbD_zero]
  obtain rfl | rfl | rfl | rfl | hplace | hplace | hplace := statusBit_cases i <;> grind

/-- A flag as a word whose only bit, if any, is `k`. -/
theorem getLsbD_flag (b : Bool) (x : Word) (k : Nat) (hx : x = BitVec.twoPow 32 k) {i : Nat} (hi : i < 32) :
    (if b then x else 0#32).getLsbD i = (b && decide (i = k)) := by
  cases b
  · simp
  · simp [hx, hi, eq_comm]

/-- The STATUS word as its fields shifted to their places (R130). -/
theorem Status.word_eq_or (st : Status) (busy : Bool) :
    st.word busy =
      (st.path.setWidth 32 <<< 12) ||| (st.errCode.setWidth 32 <<< 8) |||
      (if st.ovr then 8#32 else 0#32) ||| (if st.err then 4#32 else 0#32) |||
      (if st.done then 2#32 else 0#32) ||| (if busy then 1#32 else 0#32) := by
  apply BitVec.eq_of_getLsbD_eq
  intro i hi
  have hovr := getLsbD_flag st.ovr 8#32 3 rfl hi
  have herr := getLsbD_flag st.err 4#32 2 rfl hi
  have hdone := getLsbD_flag st.done 2#32 1 rfl hi
  have hbusy := getLsbD_flag busy 1#32 0 rfl hi
  simp only [Status.getLsbD_word, BitVec.getLsbD_or, BitVec.getLsbD_shiftLeft, BitVec.getLsbD_setWidth, hovr, herr,
    hdone, hbusy]
  obtain rfl | rfl | rfl | rfl | hplace | hplace | hplace := statusBit_cases i <;> grind

/-- The bits that R126 clears by ones of `v`: DONE, ERR and OVR. -/
theorem getLsbD_clearable {i : Nat} (hi : i < 32) : (0x00E#32).getLsbD i = decide (1 ≤ i ∧ i < 4) := by
  revert i; decide

/-- The bits of ERRCODE, which R126 clears together with ERR. -/
theorem getLsbD_errCode {i : Nat} (hi : i < 32) : (0xF00#32).getLsbD i = decide (8 ≤ i ∧ i < 12) := by
  revert i; decide

/-- Write 1 to clear, on the word: bits 3:1 are cleared where `v` has ones, and bits 11:8 with bit 2 of `v` (R126). -/
theorem Status.word_writeOneToClear (st : Status) (busy : Bool) (v : Word) :
    (st.writeOneToClear v).word busy =
      st.word busy &&& ~~~(v &&& 0x00E#32) &&& (if v.getLsbD 2 then ~~~0xF00#32 else ~~~0#32) := by
  apply BitVec.eq_of_getLsbD_eq
  intro i hi
  have hmask : (if v.getLsbD 2 then ~~~0xF00#32 else ~~~0#32).getLsbD i =
      !(v.getLsbD 2 && decide (8 ≤ i ∧ i < 12)) := by
    cases v.getLsbD 2
    · simp only [Bool.false_eq_true, if_false, BitVec.getLsbD_not, BitVec.getLsbD_zero, hi, decide_true, Bool.false_and,
        Bool.true_and]
    · simp only [if_true, BitVec.getLsbD_not, getLsbD_errCode hi, hi, decide_true, Bool.true_and]
  simp only [BitVec.getLsbD_and, BitVec.getLsbD_not, Status.getLsbD_word, hmask, hi, getLsbD_clearable hi, decide_true,
    Bool.true_and, Status.writeOneToClear]
  obtain rfl | rfl | rfl | rfl | hplace | hplace | hplace := statusBit_cases i <;> grind

/-- CTRL as read: IE at bit 0, and SRST reads 0 (R130). -/
theorem State.ctrlWord_eq (s : State) : s.ctrlWord = if s.ie then 1#32 else 0#32 := by
  unfold State.ctrlWord
  cases s.ie <;> rfl

/-- BUSY is 1 exactly outside IDLE (R20). -/
theorem State.busy_eq_true_iff (s : State) : s.busy = true ↔ s.phase ≠ .idle := by
  cases h : s.phase <;> simp [State.busy, h]

/-! ## Register writes (R122 to R127) -/

/-- R122: while IDLE a CMD write is accepted. -/
theorem exec_cmdWriteAccepted_of_idle {s : State} (v : Word) (h : s.phase = .idle) :
    exec (.cmdWriteAccepted v) s = .next (s.accept v) := by
  simp only [exec, execCmdWriteAccepted, h]

/-- The STATUS word of a command just accepted: BUSY, and OVR as it was (R122). -/
theorem State.statusWord_accept (s : State) (v : Word) :
    (s.accept v).statusWord = if s.status.ovr then 0x009#32 else 0x001#32 := by
  rw [State.statusWord, State.busy_of_busy _ _ _ (State.accept_phase s v), State.accept_status, Status.onAccept_fields]
  cases s.status.ovr <;> rfl

/-- DONE = 0 after an acceptance, so IRQ is low (R122). -/
theorem State.irq_accept (s : State) (v : Word) : (s.accept v).irq = false := by
  simp [State.irq]

/-- Settles O32 (R122): the next state is the acceptance of the command. -/
theorem commandWriteAcceptedStartsCommand : Obligations.CommandWriteAcceptedStartsCommand := by
  unfold Obligations.CommandWriteAcceptedStartsCommand
  intro v s h
  exact ⟨s.accept v, exec_cmdWriteAccepted_of_idle v h, rfl, s.statusWord_accept v, s.irq_accept v⟩

/-- Settles O33 (R123): a CMD write is one of the writes that are refused while BUSY. -/
theorem commandWriteRefusedSetsOverrun : Obligations.CommandWriteRefusedSetsOverrun := by
  unfold Obligations.CommandWriteRefusedSetsOverrun
  intro v c n s h
  exact exec_of_refusedWhileBusy rfl (s.busy_of_busy c n h)

/-- R124 with SRST = 0. -/
theorem exec_ctrlWrite_of_not_srst {v : Word} (s : State) (h : v.getLsbD 1 = false) :
    exec (.ctrlWrite v) s = .next { s with ie := v.getLsbD 0 } := by
  simp only [exec, execCtrlWrite, srstBit, h, Bool.false_eq_true, if_false]

/-- Nothing of IE survives a reset (R40). -/
theorem State.toReset_withIe (s : State) (b : Bool) : ({ s with ie := b }).toReset = s.toReset := rfl

/-- R124 with SRST = 1: the reset overwrites the IE that the same write has just set. -/
theorem exec_ctrlWrite_of_srst {v : Word} (s : State) (h : v.getLsbD 1 = true) :
    exec (.ctrlWrite v) s = .next s.toReset := by
  simp only [exec, execCtrlWrite, srstBit, h, if_true, State.toReset_withIe]

/-- Settles O34 (R124), by the two values of SRST. -/
theorem controlWriteSetsEnableOrResets : Obligations.ControlWriteSetsEnableOrResets := by
  unfold Obligations.ControlWriteSetsEnableOrResets
  intro v s
  refine ⟨exec_ctrlWrite_of_not_srst s, fun h => ?_⟩
  have hreset := exec_ctrlWrite_of_srst s h
  exact ⟨hreset, s.toReset, hreset, rfl, rfl⟩

/-- Settles O36 (R126): the STATUS word of `Status.word_writeOneToClear`, with PHASE, and so BUSY, unchanged. -/
theorem statusWriteClearsByOnes : Obligations.StatusWriteClearsByOnes := by
  unfold Obligations.StatusWriteClearsByOnes
  intro v s
  exact ⟨s.clearStatus v, rfl, rfl, s.status.word_writeOneToClear s.busy v⟩

/-- R127 while IDLE. -/
theorem exec_inLenWrite_of_idle {s : State} (v : Word) (h : s.phase = .idle) :
    exec (.inLenWrite v) s = .next { s with inLen := min v.toNat s.cfg.inCap } := by
  simp only [exec, execInLenWrite, h]

/-- Settles O37 (R127): stored while IDLE, one of the refused writes while BUSY. -/
theorem inputLengthWriteIsBounded : Obligations.InputLengthWriteIsBounded := by
  unfold Obligations.InputLengthWriteIsBounded
  intro v s
  exact ⟨exec_inLenWrite_of_idle v, fun c n h => exec_of_refusedWhileBusy rfl (s.busy_of_busy c n h)⟩

/-! ## Register reads (R130) -/

/-- R130: a register read answers the register's word and has no other effect. -/
theorem exec_registerRead (r : Reg) (s : State) :
    exec (.registerRead r) s = .next { s with rdata := s.regWord r } := rfl

/-- The STATUS word of a state, with BUSY read off PHASE (R20, R130). -/
theorem State.statusWord_eq_or (s : State) :
    s.statusWord =
      (s.status.path.setWidth 32 <<< 12) ||| (s.status.errCode.setWidth 32 <<< 8) |||
      (if s.status.ovr then 8#32 else 0#32) ||| (if s.status.err then 4#32 else 0#32) |||
      (if s.status.done then 2#32 else 0#32) ||| (if s.phase = .idle then 0#32 else 1#32) := by
  simp only [State.statusWord, Status.word_eq_or, State.busy_eq_true_iff, ne_eq, ite_not]

/-- OUT_LEN is read-only: the decoder rejects a write to it (R130). -/
theorem decodeAccess_outLen_write (cfg : Config) (busy : Bool) (v : Word) :
    decodeAccess cfg busy (.write 0x010#32 .w32 v) = .error .readOnly := rfl

/-- Settles O40 (R130): each read answers its word, and the write to OUT_LEN is an access the decoder rejects. -/
theorem registerReadsReturnWords : Obligations.RegisterReadsReturnWords := by
  unfold Obligations.RegisterReadsReturnWords
  intro s
  refine ⟨?ctrl, ?cmd, ?status, ?inLen, ?outLen, fun v rest => ?outLenWrite⟩
  case ctrl => rw [exec_registerRead, State.regWord, State.ctrlWord_eq]
  case cmd => rw [exec_registerRead, State.regWord]
  case status => rw [exec_registerRead, State.regWord, State.statusWord_eq_or]
  case inLen => rw [exec_registerRead, State.regWord]
  case outLen => rw [exec_registerRead, State.regWord]
  case outLenWrite => exact step_write_of_error ⟨_, decodeAccess_outLen_write s.cfg s.busy v⟩

end Sys2Proof.Machine
end

section
/-! Ending a command with an error (spec/60_exceptions.md R136): the error entry and the STATUS word it leaves. -/

namespace Sys2Proof.Machine

open Sys2Proof

@[simp] theorem State.complete_err (s : State) (k : ErrorKind) : s.complete (.err k) = s.raise k := rfl

/-- The error entry leaves exactly the fields of R136. -/
theorem State.failedWith_raise (s : State) (k : ErrorKind) : s.failedWith (s.raise k) k.code := rfl

/-- The STATUS word after an error: DONE and ERR, the code at bits 11:8, and OVR as it was (R130, R136). -/
theorem State.statusWord_raise (s : State) (k : ErrorKind) :
    (s.raise k).statusWord =
      0x006#32 ||| (k.code.setWidth 32 <<< 8) ||| (if s.status.ovr then 0x008#32 else 0#32) := by
  have hpath : (0#2).setWidth 32 <<< 12 = 0#32 := rfl
  have hflags : 0x006#32 = 4#32 ||| 2#32 := rfl
  rw [State.statusWord_eq_or]
  simp only [State.raise_status, Status.onError_fields, State.raise_phase, if_true, hpath, hflags, BitVec.zero_or,
    BitVec.or_zero]
  ac_rfl

/-- Settles O28 (R136): completing with an error is the error entry. -/
theorem errorEntryCommitsErrorState : Obligations.ErrorEntryCommitsErrorState := by
  unfold Obligations.ErrorEntryCommitsErrorState
  intro s k
  rw [State.complete_err]
  exact ⟨s.failedWith_raise k, s.statusWord_raise k⟩

end Sys2Proof.Machine
end

section
/-! The IRQ output (spec/10_state.md R38, spec/60_exceptions.md R142, R143): its level after each instruction, hence after
each step, and from that when it rises and when it falls. -/

namespace Sys2Proof.Machine

open Sys2Proof

/-! ## What a fetch leaves unchanged -/

/-- The state that the fetched instruction starts from, or that the quiet effect ends in. -/
def Fetched.state : Fetched → State
  | .run _ s1 => s1
  | .quiet s1 => s1

/-- The fetch changed nothing of `s` but the event list, the working registers and the value last read. -/
def Fetched.FrameOf (s : State) (f : Fetched) : Prop :=
  f.state = { s with pending := f.state.pending, engine := f.state.engine, rdata := f.state.rdata }

theorem State.fetchAccess_frameOf (s : State) (a : Access) : (s.fetchAccess a).FrameOf s := by
  obtain ⟨i, -, hf⟩ | ⟨r, -, hf⟩ := s.fetchAccess_cases a <;> rw [hf]
  · rfl
  · cases a <;> rfl

theorem State.fetchCommand_frameOf (s : State) : s.fetchCommand.FrameOf s := by
  obtain ⟨code, n, -, hf⟩ | ⟨-, hf⟩ := s.fetchCommand_cases <;> rw [hf] <;> rfl

theorem State.fetchUnit_frameOf (s : State) : s.fetchUnit.FrameOf s := by
  unfold State.fetchUnit
  split
  · rfl
  · split
    · split_ifs <;> rfl
    · rfl
    · split_ifs <;> rfl
    · split_ifs <;> rfl

theorem State.fetchEvent_frameOf (s : State) {ev : Event} (hev : ev ≠ .hardReset) : (s.fetchEvent ev).FrameOf s := by
  cases ev with
  | read busAddr w | write busAddr w v =>
    simp only [State.fetchEvent]
    split
    · exact s.fetchAccess_frameOf _
    · rfl
  | command => exact s.fetchCommand_frameOf
  | unit => exact s.fetchUnit_frameOf
  | hardReset => exact absurd rfl hev

/-- Only a hard reset changes more while fetching (R151). -/
theorem fetch_frameOf {s : State} (h : s.hardResetNext = false) : (fetch s).FrameOf s := by
  unfold fetch
  cases hp : s.pending with
  | nil => exact s.fetchCommand_frameOf
  | cons ev rest =>
    have hev : ev ≠ .hardReset := by
      rintro rfl
      simp [State.hardResetNext, hp] at h
    exact State.fetchEvent_frameOf { s with pending := rest } hev

/-! ## The level after an instruction -/

/-- The level of IRQ after instruction `i` (R38, R142, R143): a STATUS write can clear DONE, an acceptance and a reset do, a
CTRL write replaces IE, a command that completes sets DONE, and nothing else moves either bit. -/
def State.irqAfter (s : State) (i : Instr) : Bool :=
  match i with
  | .statusWrite v => s.irq && !v.getLsbD 1
  | .cmdWriteAccepted _ | .softReset _ => false
  | .ctrlWrite v => v.getLsbD 0 && s.status.done
  | .decompress | .decompressRaw | .compress | .badCommand _ => if s.busy then s.ie else s.irq
  | .flag _ | .lit _ | .ref _ _ | .hdr _ | .cmdWriteRefused _ | .inLenWrite _ | .inWindowAccess _ _ _ | .outWindowRead _ _
  | .registerRead _ => s.irq

/-- IRQ and its next level are read off IE, DONE and PHASE, which a fetch leaves as they are. -/
theorem Fetched.FrameOf.irq_eq {s : State} {f : Fetched} (h : f.FrameOf s) : f.state.irq = s.irq := by
  unfold Fetched.FrameOf at h
  rw [h]
  rfl

theorem Fetched.FrameOf.irqAfter_eq {s : State} {f : Fetched} (h : f.FrameOf s) (i : Instr) :
    f.state.irqAfter i = s.irqAfter i := by
  unfold Fetched.FrameOf at h
  rw [h]
  rfl

@[simp] theorem State.irq_raise (s : State) (k : ErrorKind) : (s.raise k).irq = s.ie := by simp [State.irq]

@[simp] theorem State.irq_commit (s : State) (bs : List Byte) (p : Path) : (s.commit bs p).irq = s.ie := by
  simp [State.irq]

@[simp] theorem State.irq_toReset (s : State) : s.toReset.irq = false := rfl

theorem State.irq_clearStatus (s : State) (v : Word) : (s.clearStatus v).irq = (s.irq && !v.getLsbD 1) := by
  simp only [State.irq, State.clearStatus_ie, State.clearStatus_status, Status.writeOneToClear, Bool.and_assoc]

/-- Every completion of a command sets DONE, so IRQ takes the level of IE (R83, R136, R142). -/
theorem State.irq_finish (s : State) (r : Result × Engine) : (s.finish r).irq = s.ie := by
  unfold State.finish
  obtain ⟨bs, p, -, -, h⟩ | ⟨bs, p, -, -, h⟩ | ⟨k, -, h⟩ := State.complete_cases { s with engine := r.2 } r.1 <;>
    simp only [h, State.irq_commit, State.irq_raise]

/-- What a well-formed instruction that the phase admits does to IRQ. -/
theorem exec_irq {cfg : Config} {i : Instr} {s t : State} (hwf : i.wellFormed cfg = true)
    (hphase : i.admitsPhase s.busy = true) (h : exec i s = .next t) : t.irq = s.irqAfter i := by
  cases i with
  | flag _ | lit _ | ref _ _ | registerRead _ => cases h; rfl
  | statusWrite v => cases h; exact s.irq_clearStatus v
  | softReset _ => cases h; exact s.irq_toReset
  | ctrlWrite v =>
    have hv : v.getLsbD 1 = false := by simpa [Instr.wellFormed, srstBit] using hwf
    rw [exec_ctrlWrite_of_not_srst s hv] at h
    cases h
    rfl
  | decompress | decompressRaw | compress | badCommand _ =>
    simp only [exec, execDecompress, execDecompressRaw, execCompress, execBadCommand] at h
    split at h <;> next hp => cases h; simp [State.irqAfter, State.busy, hp, State.irq_finish]
  | cmdWriteAccepted v =>
    have hidle : s.phase = .idle := by
      simpa [Instr.admitsPhase, Bool.eq_false_iff, State.busy_eq_true_iff] using hphase
    rw [exec_cmdWriteAccepted_of_idle v hidle] at h
    cases h
    exact s.irq_accept v
  | cmdWriteRefused _ =>
    rw [exec_of_refusedWhileBusy rfl hphase] at h
    cases h
    rfl
  | hdr _ | inLenWrite _ | outWindowRead _ _ =>
    simp only [exec, execHdr, execInLenWrite, execOutWindowRead] at h
    split at h <;> cases h <;> rfl
  | inWindowAccess op j w =>
    cases op with
    | read => cases h; rfl
    | write v =>
      simp only [exec, execInWindowAccess] at h
      split at h <;> cases h <;> rfl

/-! ## The level after a step -/

/-- All a step can do to IRQ: lower it by a hard reset, keep it with no instruction run, or move it as its instruction
does. -/
theorem step_irq {s t : State} (h : step s = .next t) :
    (s.hardResetNext = true ∧ s.nextInstr = none ∧ t.irq = false) ∨
    (s.hardResetNext = false ∧ s.nextInstr = none ∧ t.irq = s.irq) ∨
    (s.hardResetNext = false ∧ ∃ i, s.nextInstr = some i ∧ t.irq = s.irqAfter i) := by
  obtain ⟨hr, s1, hf⟩ | ⟨hr, hsound⟩ := fetch_hardReset_or_soundFor s
  · rw [step_of_quiet s _ hf] at h
    cases h
    exact .inl ⟨hr, State.nextInstr_of_quiet hf, s1.irq_toReset⟩
  · have hframe := fetch_frameOf hr
    obtain ⟨i, s1, hf, hexec⟩ | hf := step_cases s t h <;> rw [hf] at hsound hframe
    · obtain ⟨hwf, hphase, -, hph⟩ := hsound
      have hbusy : s1.busy = s.busy := by simp only [State.busy, hph]
      have hirq := exec_irq hwf (by rwa [hbusy]) hexec
      have hafter : s1.irqAfter i = s.irqAfter i := hframe.irqAfter_eq i
      exact .inr (.inr ⟨hr, i, State.nextInstr_of_run hf, hirq.trans hafter⟩)
    · exact .inr (.inl ⟨hr, State.nextInstr_of_quiet hf, hframe.irq_eq⟩)

/-- IRQ rises only by a command, or by a CTRL write that sets IE while DONE (R142). -/
theorem State.irqAfter_rises {s : State} {i : Instr} (hs : s.irq = false) (h : s.irqAfter i = true) :
    (i = .decompress ∨ i = .decompressRaw ∨ i = .compress ∨ ∃ code, i = .badCommand code) ∨
    ∃ v : Word, i = .ctrlWrite v ∧ v.getLsbD 0 = true ∧ s.status.done = true := by
  cases i with
  | ctrlWrite v => exact .inr ⟨v, rfl, by simpa [State.irqAfter] using h⟩
  | decompress | decompressRaw | compress | badCommand _ => simp
  | _ => simp [State.irqAfter, hs] at h

/-- A high IRQ falls exactly by a STATUS write of one to DONE, an acceptance, a CTRL write of 0 to IE, or a soft reset
(R143). -/
theorem State.irqAfter_falls_iff {s : State} (i : Instr) (hs : s.irq = true) : s.irqAfter i = false ↔
    (∃ v : Word, i = .statusWrite v ∧ v.getLsbD 1 = true) ∨ (∃ v : Word, i = .cmdWriteAccepted v) ∨
    (∃ v : Word, i = .ctrlWrite v ∧ v.getLsbD 0 = false) ∨ ∃ v, i = .softReset v := by
  obtain ⟨hie, hdone⟩ : s.ie = true ∧ s.status.done = true := by simpa [State.irq] using hs
  cases i with
  | statusWrite v | ctrlWrite v | cmdWriteAccepted _ | softReset _ => simp [State.irqAfter, hs, hdone]
  | decompress | decompressRaw | compress | badCommand _ => simp [State.irqAfter, hs, hie]
  | _ => simp [State.irqAfter, hs]

/-- Settles O54 (R38, R142, R143): by what a step can do to IRQ, and for an instruction by the level after it. -/
theorem interruptFollowsDoneAndEnable : Obligations.InterruptFollowsDoneAndEnable := by
  unfold Obligations.InterruptFollowsDoneAndEnable
  intro s t h
  obtain ⟨hr, hn, ht⟩ | ⟨hr, hn, ht⟩ | ⟨hr, i, hn, ht⟩ := step_irq h
  · simp [State.resetNext, hr, ht]
  · simp +contextual [State.resetNext, State.softResetNext, hr, hn, ht]
  · simp only [State.commandNext, State.resetNext, State.softResetNext, hr, hn, ht, Option.some.injEq,
      Bool.false_eq_true, false_or]
    exact ⟨State.irqAfter_rises, State.irqAfter_falls_iff i⟩

end Sys2Proof.Machine
end

section
/-! Decoder and encoder are inverse (spec/30_encoding.md, spec/20_memory.md sections 2 to 4): first the fields of a
back-reference and the address map, then each kind of encoded object. -/

namespace Sys2Proof

open Sys2Proof.Machine

/-! ## The fields of a back-reference (R69 to R71) -/

/-- position_high stands above position_low (R70). -/
theorem refOffset_eq_append (b0 b1 : Byte) : refOffset b0 b1 = b1.extractLsb' 4 4 ++ b0 := by
  unfold refOffset
  ext i hi
  simp only [BitVec.getElem_or, BitVec.getElem_shiftLeft, BitVec.getElem_setWidth]
  grind

theorem toNat_refOffset (b0 b1 : Byte) : (refOffset b0 b1).toNat = 256 * (b1.toNat / 16) + b0.toNat := by
  have hb1 := b1.isLt
  rw [refOffset_eq_append, toNat_append_byte, BitVec.extractLsb'_toNat, Nat.shiftRight_eq_div_pow]
  omega

theorem refLength_eq (b1 : Byte) : refLength b1 = b1.toNat % 16 + 3 := by
  rw [refLength, BitVec.extractLsb'_toNat, Nat.shiftRight_zero]

theorem toNat_refByte0 (off : BitVec 12) : (refByte0 off).toNat = off.toNat % 256 := by
  rw [refByte0, BitVec.extractLsb'_toNat, Nat.shiftRight_zero]

/-- p[11:8] stands above L − 3, which takes 4 bits (R69, R78). -/
theorem toNat_refByte1 (off : BitVec 12) {len : Nat} (hlen : len ≤ 18) :
    (refByte1 off len).toNat = off.toNat / 256 * 16 + (len - 3) := by
  have hoff := off.isLt
  have hhigh : ((off.extractLsb' 8 4).setWidth 8 <<< 4).toNat = (off.toNat / 256) <<< 4 := by
    simp only [BitVec.toNat_shiftLeft, BitVec.toNat_setWidth, BitVec.extractLsb'_toNat, Nat.shiftRight_eq_div_pow,
      Nat.shiftLeft_eq]
    omega
  have hlow : (BitVec.ofNat 8 (len - minMatch)).toNat = len - 3 := by
    simp only [minMatch, BitVec.toNat_ofNat]
    omega
  rw [refByte1, BitVec.toNat_or, hhigh, hlow, ← Nat.shiftLeft_add_eq_or_of_lt (by omega), Nat.shiftLeft_eq]

/-- The bytes of a back-reference give its ring address and its length back (R69 to R71, R78). -/
theorem refOffset_refBytes (off : BitVec 12) {len : Nat} (hlen : len ≤ 18) :
    refOffset (refByte0 off) (refByte1 off len) = off := by
  apply BitVec.eq_of_toNat_eq
  rw [toNat_refOffset, toNat_refByte0, toNat_refByte1 off hlen]
  omega

theorem refLength_refByte1 (off : BitVec 12) {len : Nat} (hlo : 3 ≤ len) (hhi : len ≤ 18) :
    refLength (refByte1 off len) = len := by
  rw [refLength_eq, toNat_refByte1 off hhi]
  omega

theorem refLength_bounds (b1 : Byte) : 3 ≤ refLength b1 ∧ refLength b1 ≤ 18 := by
  rw [refLength_eq]
  omega

/-- The fields of two bytes, encoded again, are the two bytes. -/
theorem refByte0_refOffset (b0 b1 : Byte) : refByte0 (refOffset b0 b1) = b0 := by
  have hb0 := b0.isLt
  apply BitVec.eq_of_toNat_eq
  rw [toNat_refByte0, toNat_refOffset]
  omega

theorem refByte1_refOffset (b0 b1 : Byte) : refByte1 (refOffset b0 b1) (refLength b1) = b1 := by
  have hb0 := b0.isLt
  apply BitVec.eq_of_toNat_eq
  rw [toNat_refByte1 _ (refLength_bounds b1).2, toNat_refOffset, refLength_eq]
  omega

theorem decodeRef_refBytes {off len : Nat} (hoff : off < 4096) (hlo : 3 ≤ len) (hhi : len ≤ 18) :
    decodeRef (refByte0 (BitVec.ofNat 12 off)) (refByte1 (BitVec.ofNat 12 off) len) = .ref off len := by
  rw [decodeRef, refOffset_refBytes _ hhi, refLength_refByte1 _ hlo hhi, BitVec.toNat_ofNat,
    Nat.mod_eq_of_lt (by simpa using hoff)]

/-- The four bytes of a header are the little-endian bytes of its size (R48). -/
theorem wordBytes_hdrSize (b0 b1 b2 b3 : Byte) : wordBytes (hdrSize b0 b1 b2 b3) = [b0, b1, b2, b3] := by
  have h0 := b0.isLt
  have h1 := b1.isLt
  have h2 := b2.isLt
  have h3 := b3.isLt
  simp only [wordBytes, List.cons.injEq, and_true]
  refine ⟨?_, ?_, ?_, ?_⟩ <;> apply BitVec.eq_of_toNat_eq <;>
    simp only [BitVec.extractLsb'_toNat, toNat_hdrSize, Nat.shiftRight_eq_div_pow] <;> omega

/-! ## The address map (R46) -/

theorem decodeRegSpace_offset (r : Reg) : decodeRegSpace r.offset .w32 = .ok r := by
  cases r <;> rfl

theorem regAt_eq_some_iff {off : Nat} {r : Reg} : regAt off = some r ↔ off = r.offset := by
  constructor
  · intro h
    unfold regAt at h
    split_ifs at h with hctrl hcmd hstatus hinLen houtLen <;> cases h <;> assumption
  · rintro rfl
    cases r <;> rfl

theorem decodeRegSpace_eq_ok {off : Nat} {w : Width} {r : Reg} (h : decodeRegSpace off w = .ok r) :
    off = r.offset ∧ w = .w32 := by
  unfold decodeRegSpace at h
  split_ifs at h with hw halign
  cases hr : regAt off with
  | none => rw [hr] at h; cases h
  | some r' =>
    rw [hr] at h
    cases h
    exact ⟨regAt_eq_some_iff.mp hr, not_not.mp hw⟩

/-- An access that fits the window is taken (R53). -/
theorem decodeWindow_of_windowFits {cap i : Nat} {w : Width} (h : windowFits cap i w = true) :
    decodeWindow cap i w = .ok () := by
  simp only [windowFits, Bool.and_eq_true, decide_eq_true_eq] at h
  have hbytes : 1 ≤ w.bytes := by cases w <;> decide
  rw [decodeWindow, if_neg (by omega), if_neg (by omega), if_neg (by omega)]

/-- A register's address as the encoder writes it lies at its offset. -/
theorem regionOf_regAddr (r : Reg) : regionOf (BitVec.ofNat 32 r.offset).toNat = .reg r.offset := by
  cases r <;> rfl

/-- IN_BASE + i lies in the IN window for every index below the largest IN_CAP (R7, R46). -/
theorem regionOf_inAddr {i : Nat} (hi : i < capMax) :
    regionOf (BitVec.ofNat 32 (inBase + i)).toNat = .inWindow i := by
  simp only [capMax, inBase] at *
  rw [BitVec.toNat_ofNat, Nat.mod_eq_of_lt (by omega), regionOf_inWindow (by simp only [inBase]; omega)
    (by simp only [outBase]; omega), inBase, Nat.add_sub_cancel_left]

theorem regionOf_outAddr {i : Nat} (hi : i < capMax) :
    regionOf (BitVec.ofNat 32 (outBase + i)).toNat = .outWindow i := by
  simp only [capMax, outBase] at *
  rw [BitVec.toNat_ofNat, Nat.mod_eq_of_lt (by omega), regionOf_outWindow (by simp only [outBase]; omega), outBase,
    Nat.add_sub_cancel_left]

theorem windowFits_lt {cap i : Nat} {w : Width} (h : windowFits cap i w = true) : i < cap := by
  simp only [windowFits, Bool.and_eq_true, decide_eq_true_eq] at h
  have hbytes : 1 ≤ w.bytes := by cases w <;> decide
  omega

/-- An address is the address word of the place it lies at. -/
theorem regionOf_eq_reg {addr : Word} {off : Nat} (h : regionOf addr.toNat = .reg off) :
    BitVec.ofNat 32 off = addr := by
  unfold regionOf at h
  split_ifs at h
  cases h
  rw [BitVec.ofNat_toNat, BitVec.setWidth_eq]

theorem regionOf_eq_inWindow {addr : Word} {i : Nat} (h : regionOf addr.toNat = .inWindow i) :
    BitVec.ofNat 32 (inBase + i) = addr := by
  unfold regionOf at h
  split_ifs at h with hreg hin hout
  rw [← Region.inWindow.inj h, Nat.add_sub_cancel' (Nat.not_lt.1 hin), BitVec.ofNat_toNat, BitVec.setWidth_eq]

theorem regionOf_eq_outWindow {addr : Word} {i : Nat} (h : regionOf addr.toNat = .outWindow i) :
    BitVec.ofNat 32 (outBase + i) = addr := by
  unfold regionOf at h
  split_ifs at h with hreg hin hout
  rw [← Region.outWindow.inj h, Nat.add_sub_cancel' (Nat.not_lt.1 hout), BitVec.ofNat_toNat, BitVec.setWidth_eq]

/-! ## Host accesses that the encoder writes -/

theorem decodeAccess_regWrite (cfg : Config) (busy : Bool) (r : Reg) (v : Word) :
    decode cfg busy (regWrite r v) = decodeRegWrite busy r v := by
  simp only [regWrite, decode, decodeAccess, decodeWrite, regionOf_regAddr, decodeRegSpace_offset]
  rfl

theorem decodeRead_register (cfg : Config) (r : Reg) :
    decodeRead cfg (BitVec.ofNat 32 r.offset) .w32 = .ok (.registerRead r) := by
  simp only [decodeRead, regionOf_regAddr, decodeRegSpace_offset]
  rfl

theorem decodeRead_inWindow {cfg : Config} (hcfg : cfg.wf) {i : Nat} {w : Width}
    (h : windowFits cfg.inCap i w = true) :
    decodeRead cfg (BitVec.ofNat 32 (inBase + i)) w = .ok (.inWindowAccess .read i w) := by
  obtain ⟨-, hcap, -⟩ := hcfg
  simp only [decodeRead, regionOf_inAddr ((windowFits_lt h).trans_le hcap), decodeWindow_of_windowFits h]
  rfl

theorem decodeWrite_inWindow {cfg : Config} (hcfg : cfg.wf) (busy : Bool) {i : Nat} {w : Width} (v : Word)
    (h : windowFits cfg.inCap i w = true) :
    decodeWrite cfg busy (BitVec.ofNat 32 (inBase + i)) w v = .ok (.inWindowAccess (.write v) i w) := by
  obtain ⟨-, hcap, -⟩ := hcfg
  simp only [decodeWrite, regionOf_inAddr ((windowFits_lt h).trans_le hcap), decodeWindow_of_windowFits h]
  rfl

theorem decodeRead_outWindow {cfg : Config} (hcfg : cfg.wf) {i : Nat} {w : Width}
    (h : windowFits cfg.outCap i w = true) :
    decodeRead cfg (BitVec.ofNat 32 (outBase + i)) w = .ok (.outWindowRead i w) := by
  obtain ⟨-, -, -, hcap, -⟩ := hcfg
  simp only [decodeRead, regionOf_outAddr ((windowFits_lt h).trans_le hcap), decodeWindow_of_windowFits h]
  rfl

/-- Settles O1, row by row: a stream unit by its fields, a host access by the place of its address. -/
theorem decodeOfEncodeIsIdentity : Obligations.DecodeOfEncodeIsIdentity := by
  unfold Obligations.DecodeOfEncodeIsIdentity
  intro cfg busy i hcfg hwf hphase
  cases i with
  | flag _ | lit _ | decompress | decompressRaw | compress => rfl
  | ref off len =>
    obtain ⟨⟨hoff, hlo⟩, hhi⟩ : (off < 4096 ∧ 3 ≤ len) ∧ len ≤ 18 := by simpa [Instr.wellFormed] using hwf
    simp only [encode, decode, decodeStream, decodeRef_refBytes hoff hlo hhi]
  | hdr size => simp only [encode, decode, wordBytes, decodeStream, decodeHdr, hdrSize_extractLsb']
  | badCommand code =>
    obtain ⟨⟨h1, h2⟩, h3⟩ : (code ≠ 1#32 ∧ code ≠ 2#32) ∧ code ≠ 3#32 := by simpa [Instr.wellFormed] using hwf
    simp only [encode, decode, decodeCommand, h1, h2, h3, if_false]
  | cmdWriteAccepted v =>
    have hidle : busy = false := by simpa [Instr.admitsPhase] using hphase
    simp [encode, decodeAccess_regWrite, decodeRegWrite, hidle]
  | cmdWriteRefused v =>
    have hbusy : busy = true := hphase
    simp [encode, decodeAccess_regWrite, decodeRegWrite, hbusy]
  | ctrlWrite v =>
    have hsrst : srstBit v = false := by simpa [Instr.wellFormed] using hwf
    simp [encode, decodeAccess_regWrite, decodeRegWrite, hsrst]
  | softReset v =>
    have hsrst : srstBit v = true := hwf
    simp [encode, decodeAccess_regWrite, decodeRegWrite, hsrst]
  | statusWrite v | inLenWrite v => exact decodeAccess_regWrite cfg busy _ v
  | inWindowAccess op i w =>
    cases op with
    | read => exact decodeRead_inWindow hcfg hwf
    | write v => exact decodeWrite_inWindow hcfg busy v hwf
  | outWindowRead i w => exact decodeRead_outWindow hcfg hwf
  | registerRead r => exact decodeRead_register cfg r

/-! ## What decodes, encoded again -/

theorem encode_of_decodeRegWrite {busy : Bool} {r : Reg} {v : Word} {i : Instr} (h : decodeRegWrite busy r v = .ok i) :
    encode i = regWrite r v := by
  cases r with
  | ctrl => cases hv : srstBit v <;> simp only [decodeRegWrite, hv] at h <;> cases h <;> rfl
  | cmd => cases busy <;> cases h <;> rfl
  | status | inLen => cases h; rfl
  | outLen => cases h

theorem encode_of_decodeRead {cfg : Config} {addr : Word} {w : Width} {i : Instr} (h : decodeRead cfg addr w = .ok i) :
    encode i = .bus (.read addr w) := by
  unfold decodeRead at h
  split at h
  · next off hreg =>
    cases hr : decodeRegSpace off w <;> rw [hr] at h <;> cases h
    obtain ⟨rfl, rfl⟩ := decodeRegSpace_eq_ok hr
    rw [encode, regionOf_eq_reg hreg]
  · next j hin =>
    cases hw : decodeWindow cfg.inCap j w <;> rw [hw] at h <;> cases h
    rw [encode, regionOf_eq_inWindow hin]
  · next j hout =>
    cases hw : decodeWindow cfg.outCap j w <;> rw [hw] at h <;> cases h
    rw [encode, regionOf_eq_outWindow hout]
  · cases h

theorem encode_of_decodeWrite {cfg : Config} {busy : Bool} {addr : Word} {w : Width} {v : Word} {i : Instr}
    (h : decodeWrite cfg busy addr w v = .ok i) : encode i = .bus (.write addr w v) := by
  unfold decodeWrite at h
  split at h
  · next off hreg =>
    cases hr : decodeRegSpace off w <;> rw [hr] at h
    · cases h
    · obtain ⟨rfl, rfl⟩ := decodeRegSpace_eq_ok hr
      rw [encode_of_decodeRegWrite h, regWrite, regionOf_eq_reg hreg]
  · next j hin =>
    cases hw : decodeWindow cfg.inCap j w <;> rw [hw] at h <;> cases h
    rw [encode, regionOf_eq_inWindow hin]
  · next j hout => cases hw : decodeWindow cfg.outCap j w <;> rw [hw] at h <;> cases h
  · cases h

/-- One whole stream unit, encoded again (R64, R66, R68, R69). -/
theorem encode_of_decodeStream {cfg : Config} {busy : Bool} {sel : Selector} {bytes : List Byte} {i : Instr}
    (h : decodeStream sel bytes = .ok (i, [])) :
    encode i = .stream sel bytes ∧ i.wellFormed cfg = true ∧ i.admitsPhase busy = true := by
  unfold decodeStream at h
  split at h <;> cases h
  case h_1 => exact ⟨rfl, rfl, rfl⟩
  case h_2 => exact ⟨rfl, rfl, rfl⟩
  case h_3 b0 b1 =>
    refine ⟨?_, decodeRef_wellFormed cfg b0 b1, rfl⟩
    rw [decodeRef, encode, BitVec.ofNat_toNat, BitVec.setWidth_eq, refByte0_refOffset, refByte1_refOffset]
  case h_4 b0 b1 b2 b3 => exact ⟨congrArg _ (wordBytes_hdrSize b0 b1 b2 b3), rfl, rfl⟩

theorem encode_decodeCommand (w : Word) : encode (decodeCommand w) = .command w := by
  obtain ⟨rfl, h⟩ | ⟨rfl, h⟩ | ⟨rfl, h⟩ | ⟨-, -, -, h⟩ := decodeCommand_cases w <;> rw [h] <;> rfl

/-- Settles O2, by the kind of the encoded object. -/
theorem encodeOfDecodeIsIdentity : Obligations.EncodeOfDecodeIsIdentity := by
  unfold Obligations.EncodeOfDecodeIsIdentity
  intro cfg busy c i _ h
  cases c with
  | stream sel bytes =>
    simp only [decode] at h
    split at h <;> cases h
    next hs => exact encode_of_decodeStream hs
  | command w =>
    cases h
    exact ⟨encode_decodeCommand w, decodeCommand_wellFormed cfg busy w⟩
  | bus a =>
    refine ⟨?_, decodeAccess_wellFormed h⟩
    cases a with
    | read addr w => exact encode_of_decodeRead h
    | write addr w v => exact encode_of_decodeWrite h

/-- Settles O4: the words of R80 are literal, so each decodes by evaluation. -/
theorem workedEncodingsDecode : Obligations.WorkedEncodingsDecode := by
  unfold Obligations.WorkedEncodingsDecode
  exact ⟨rfl, rfl, rfl, rfl, rfl, rfl, rfl, rfl, rfl, rfl⟩

end Sys2Proof
end

section
/-! The ring as a cursor on a memory (spec/10_state.md R26, R27): what a run of bytes stored at RPOS leaves in RING, for the
decoder's output (spec/40_decompress.md R89) and the compressor's covered input (spec/41_compress.md R111) alike. -/

namespace Sys2Proof.Machine

open Sys2Proof

/-- RING and RPOS after the bytes `bs` are stored one after another from RPOS on. -/
def pushRing : Memory × BitVec 12 → List Byte → Memory × BitVec 12
  | r, [] => r
  | (m, p), c :: cs => pushRing (m.write p.toNat c, p + 1#12) cs

/-- RING and RPOS of the working registers. -/
def Engine.ringState (e : Engine) : Memory × BitVec 12 := (e.ring, e.rpos)

/-- RING and RPOS at the start of a decode and of COMPRESS (R82, R103). -/
def ringStart : Memory × BitVec 12 := (Memory.blank .zero, initCursor)

theorem pushRing_cons (r : Memory × BitVec 12) (c : Byte) (cs : List Byte) :
    pushRing r (c :: cs) = pushRing (pushRing r [c]) cs := rfl

theorem pushRing_append (r : Memory × BitVec 12) (xs ys : List Byte) :
    pushRing r (xs ++ ys) = pushRing (pushRing r xs) ys := by
  induction xs generalizing r with
  | nil => rfl
  | cons c cs ih => rw [List.cons_append, pushRing_cons, ih, ← pushRing_cons]

theorem pushRing_rpos (r : Memory × BitVec 12) (bs : List Byte) :
    (pushRing r bs).2 = r.2 + BitVec.ofNat 12 bs.length := by
  induction bs generalizing r with
  | nil => simp [pushRing]
  | cons c cs ih =>
    rw [pushRing_cons, ih, List.length_cons, Nat.add_comm cs.length 1, BitVec.ofNat_add, ← BitVec.add_assoc]
    rfl

/-- A run of at most a whole ring changes exactly the addresses from RPOS on, modulo 4096. -/
theorem read_pushRing (r : Memory × BitVec 12) (bs : List Byte) (hlen : bs.length ≤ 4096) (a : Nat) :
    (pushRing r bs).1.read a =
      if a < 4096 ∧ (a + 4096 - r.2.toNat) % 4096 < bs.length then bs.getD ((a + 4096 - r.2.toNat) % 4096) 0#8
      else r.1.read a := by
  induction bs generalizing r with
  | nil => simp [pushRing]
  | cons c cs ih =>
    have hp := r.2.isLt
    have hnext : (r.2 + 1#12).toNat = (r.2.toNat + 1) % 4096 := by rw [BitVec.toNat_add]; rfl
    rw [List.length_cons] at hlen ⊢
    have hread : (pushRing r (c :: cs)).1.read a = if a < 4096 ∧ (a + 4096 - (r.2 + 1#12).toNat) % 4096 < cs.length then
        cs.getD ((a + 4096 - (r.2 + 1#12).toNat) % 4096) 0#8 else (r.1.write r.2.toNat c).read a :=
      ih (r.1.write r.2.toNat c, r.2 + 1#12) (by omega)
    rw [hread, Memory.read_write, hnext]
    by_cases ha : a = r.2.toNat
    · have h0 : (a + 4096 - r.2.toNat) % 4096 = 0 := by omega
      rw [if_neg (by omega), if_pos ha, if_pos (by omega), h0, List.getD_cons_zero]
    · by_cases hin : a < 4096 ∧ (a + 4096 - r.2.toNat) % 4096 < cs.length + 1
      · have hsucc : (a + 4096 - r.2.toNat) % 4096 = (a + 4096 - (r.2.toNat + 1) % 4096) % 4096 + 1 := by omega
        rw [if_pos (by omega), if_pos hin, hsucc, List.getD_cons_succ]
      · rw [if_neg (by omega), if_neg ha, if_neg hin]

/-- Byte `k` of a run stands at RPOS + k modulo 4096. -/
theorem read_pushRing_at (r : Memory × BitVec 12) (bs : List Byte) (hlen : bs.length ≤ 4096) {k : Nat}
    (hk : k < bs.length) : (pushRing r bs).1.read ((r.2.toNat + k) % 4096) = bs.getD k 0#8 := by
  have hp := r.2.isLt
  have hplace : ((r.2.toNat + k) % 4096 + 4096 - r.2.toNat) % 4096 = k := by omega
  rw [read_pushRing r bs hlen, hplace, if_pos ⟨Nat.mod_lt _ (by decide), hk⟩]

/-- Of a run of any length, the last 4096 bytes stand in RING. -/
theorem read_pushRing_recent (r : Memory × BitVec 12) (bs : List Byte) {j : Nat} (hj : j < bs.length)
    (hrecent : bs.length ≤ j + 4096) : (pushRing r bs).1.read ((r.2.toNat + j) % 4096) = bs.getD j 0#8 := by
  have hp := r.2.isLt
  obtain ⟨hsplit, htail, hhead⟩ : bs.take (bs.length - 4096) ++ bs.drop (bs.length - 4096) = bs ∧
      (bs.drop (bs.length - 4096)).length ≤ 4096 ∧ (bs.take (bs.length - 4096)).length = bs.length - 4096 :=
    ⟨List.take_append_drop _ _, by rw [List.length_drop]; omega, by rw [List.length_take]; omega⟩
  have hcursor : ((pushRing r (bs.take (bs.length - 4096))).2.toNat + (j - (bs.length - 4096))) % 4096 =
      (r.2.toNat + j) % 4096 := by
    rw [pushRing_rpos, BitVec.toNat_add, BitVec.toNat_ofNat, hhead]
    omega
  have hat := read_pushRing_at (pushRing r (bs.take (bs.length - 4096))) (bs.drop (bs.length - 4096)) htail
    (k := j - (bs.length - 4096)) (by rw [List.length_drop]; omega)
  rw [hcursor, ← pushRing_append, hsplit] at hat
  rw [hat, List.getD_eq_getElem?_getD, List.getD_eq_getElem?_getD, List.getElem?_drop,
    Nat.add_sub_cancel' (by omega)]

/-- Storing at RPOS keeps RING canonical and inside its 4096 addresses. -/
theorem pushRing_good (r : Memory × BitVec 12) (bs : List Byte)
    (h : r.1.wf = true ∧ r.1.below ringSize = true) :
    (pushRing r bs).1.wf = true ∧ (pushRing r bs).1.below ringSize = true := by
  induction bs generalizing r with
  | nil => exact h
  | cons c cs ih => exact ih _ ⟨Memory.wf_write _ _ _ h.1, Memory.below_write _ _ _ _ r.2.isLt h.2⟩

/-! ## Producing a run of output bytes (R81) -/

/-- The working registers after Produce of each byte of `bs`. -/
def Engine.produceAll (e : Engine) (bs : List Byte) : Engine :=
  { e with
    ring := (pushRing e.ringState bs).1
    rpos := (pushRing e.ringState bs).2
    op := e.op + bs.length
    produced := e.produced ++ bs }

@[simp] theorem Engine.produceAll_ringState (e : Engine) (bs : List Byte) :
    (e.produceAll bs).ringState = pushRing e.ringState bs := rfl
@[simp] theorem Engine.produceAll_op (e : Engine) (bs : List Byte) : (e.produceAll bs).op = e.op + bs.length := rfl
@[simp] theorem Engine.produceAll_produced (e : Engine) (bs : List Byte) :
    (e.produceAll bs).produced = e.produced ++ bs := rfl
@[simp] theorem Engine.produceAll_endIdx (e : Engine) (bs : List Byte) : (e.produceAll bs).endIdx = e.endIdx := rfl

@[simp] theorem Engine.produceAll_nil (e : Engine) : e.produceAll [] = e := by
  simp [Engine.produceAll, pushRing, Engine.ringState]

theorem Engine.read_ring_produceAll (e : Engine) (bs : List Byte) (hlen : bs.length ≤ 4096) (a : Nat) :
    (e.produceAll bs).ring.read a =
      if a < 4096 ∧ (a + 4096 - e.rpos.toNat) % 4096 < bs.length then bs.getD ((a + 4096 - e.rpos.toNat) % 4096) 0#8
      else e.ring.read a :=
  read_pushRing e.ringState bs hlen a

theorem Engine.produce_eq_produceAll (e : Engine) (c : Byte) : e.produce c = e.produceAll [c] := rfl

theorem Engine.produceAll_cons (e : Engine) (c : Byte) (cs : List Byte) :
    e.produceAll (c :: cs) = (e.produce c).produceAll cs := by
  have hop : e.op + (cs.length + 1) = e.op + 1 + cs.length := by omega
  simp only [Engine.produceAll, Engine.produce, Engine.ringState, pushRing, List.length_cons, hop,
    List.append_assoc, List.singleton_append]

/-! ## The copy of a back-reference (R86) -/

/-- The bytes that the copy loop reads, `m` of them from position `k` on. -/
def Engine.copyBytes (off : Nat) : Nat → Nat → Engine → List Byte
  | _, 0, _ => []
  | k, m + 1, e => e.ringRead (off + k) :: Engine.copyBytes off (k + 1) m (e.produce (e.ringRead (off + k)))

@[simp] theorem Engine.length_copyBytes (off k m : Nat) (e : Engine) : (Engine.copyBytes off k m e).length = m := by
  induction m generalizing k e with
  | zero => rfl
  | succ m ih => simp [Engine.copyBytes, ih]

theorem Engine.copyRing_eq_produceAll (off k m : Nat) (e : Engine) :
    Engine.copyRing off k m e = e.produceAll (Engine.copyBytes off k m e) := by
  induction m generalizing k e with
  | zero => exact e.produceAll_nil.symm
  | succ m ih => rw [Engine.copyRing, ih, Engine.copyBytes, Engine.produceAll_cons]

/-- Each byte is read after the ones before it are stored. -/
theorem Engine.copyBytes_getD (off k m : Nat) (e : Engine) {j : Nat} (hj : j < m) :
    (Engine.copyBytes off k m e).getD j 0#8 =
      (e.produceAll ((Engine.copyBytes off k m e).take j)).ringRead (off + k + j) := by
  induction m generalizing k e j with
  | zero => exact absurd hj (Nat.not_lt_zero j)
  | succ m ih =>
    cases j with
    | zero => simp [Engine.copyBytes]
    | succ j =>
      rw [Engine.copyBytes, List.getD_cons_succ, ih (k + 1) _ (Nat.lt_of_succ_lt_succ hj), List.take_succ_cons,
        Engine.produceAll_cons]
      congr 1
      omega

/-- Byte `j` of a copy is a byte of this same unit when the distance reaches back to one, else history (R86). -/
theorem Engine.copyBytes_overlap (off m : Nat) (e : Engine) (hoff : off < 4096) (hm : m ≤ 4096) {j : Nat} (hj : j < m) :
    (Engine.copyBytes off 0 m e).getD j 0#8 =
      if 1 ≤ (e.rpos.toNat + 4096 - off) % 4096 ∧ (e.rpos.toNat + 4096 - off) % 4096 ≤ j then
        (Engine.copyBytes off 0 m e).getD (j - (e.rpos.toNat + 4096 - off) % 4096) 0#8
      else e.ring.read ((off + j) % 4096) := by
  have hp := e.rpos.isLt
  have hlen : ((Engine.copyBytes off 0 m e).take j).length = j := by
    rw [List.length_take, Engine.length_copyBytes]
    omega
  rw [Engine.copyBytes_getD off 0 m e hj, Engine.ringRead, ringSize, Nat.add_zero,
    Engine.read_ring_produceAll _ _ (by omega), hlen]
  by_cases hback : 1 ≤ (e.rpos.toNat + 4096 - off) % 4096 ∧ (e.rpos.toNat + 4096 - off) % 4096 ≤ j
  · have hplace : ((off + j) % 4096 + 4096 - e.rpos.toNat) % 4096 = j - (e.rpos.toNat + 4096 - off) % 4096 := by omega
    rw [if_pos (by omega), if_pos hback, hplace, List.getD_eq_getElem?_getD, List.getElem?_take_of_lt (by omega),
      ← List.getD_eq_getElem?_getD]
  · rw [if_neg (by omega), if_neg hback]

end Sys2Proof.Machine
end

section
/-! The decode loop (spec/40_decompress.md R81 to R90): what one point of it does to the working registers, the invariant of
a decode that follows, its termination, and that a decode sees nothing but its payload. -/

namespace Sys2Proof.Machine

open Sys2Proof

/-! ## What one point of the loop does -/

/-- The input is exhausted for the stop point `p` (R87, R88). -/
def StopPoint.Exhausted (p : StopPoint) (ip endIdx : Nat) : Prop :=
  match p with
  | .atFlag => endIdx ≤ ip
  | .atLit => endIdx ≤ ip
  | .atRef => endIdx < ip + 2

/-- The outcomes of a flag step: it takes a flag byte or none (`n` of them), or stops (R84). -/
inductive Engine.FlagMove (e : Engine) : Engine → Prop
  | shift (fl : BitVec 16) (n : Nat) (h : n = 0 ∨ n = 1 ∧ e.ip < e.endIdx) :
      FlagMove e { e with flags := fl, ip := e.ip + n, seq := .unit }
  | stop (fl : BitVec 16) (p : StopPoint) (h : p.Exhausted e.ip e.endIdx) :
      FlagMove e { e with flags := fl, seq := .stopped p }

/-- The outcomes of a literal or a back-reference: it takes `n` bytes of the payload and produces at most 9 for each, or
stops (R85, R86, R88). -/
inductive Engine.UnitMove (e : Engine) : Engine → Prop
  | produce (bs : List Byte) (n : Nat) (hn : 1 ≤ n) (hin : e.ip + n ≤ e.endIdx) (hlen : bs.length ≤ 9 * n) :
      UnitMove e { e.produceAll bs with ip := e.ip + n, seq := .flagStep }
  | stop (p : StopPoint) (h : p.Exhausted e.ip e.endIdx) : UnitMove e { e with seq := .stopped p }

theorem Engine.flagStep_flagMove (e : Engine) (f : Byte) : e.FlagMove (e.flagStep f) := by
  obtain ⟨-, h⟩ | ⟨-, hin, h⟩ | ⟨-, hend, h⟩ := e.flagStep_cases f <;> rw [h]
  · exact .shift _ 0 (.inl rfl)
  · exact .shift _ 1 (.inr ⟨rfl, hin⟩)
  · exact .stop _ .atFlag hend

theorem Engine.literal_unitMove (e : Engine) (c : Byte) : e.UnitMove (e.literal c) := by
  obtain ⟨hend, h⟩ | ⟨hin, h⟩ := e.literal_cases c <;> rw [h]
  · exact .stop .atLit hend
  · rw [Engine.produce_eq_produceAll]
    exact .produce [c] 1 (Nat.le_refl 1) hin (by simp only [List.length_singleton]; omega)

theorem Engine.backReference_unitMove (e : Engine) (off : Nat) {len : Nat} (hlen : len ≤ 18) :
    e.UnitMove (e.backReference off len) := by
  obtain ⟨hshort, h⟩ | ⟨henough, h⟩ := e.backReference_cases off len <;> rw [h]
  · exact .stop .atRef (by simp only [StopPoint.Exhausted]; omega)
  · rw [Engine.copyRing_eq_produceAll]
    exact .produce _ 2 (by decide) (by omega) (by rw [Engine.length_copyBytes]; omega)

/-- One point of the loop: nothing before the start and after a stop, else the flag step or the unit that is due (R81). -/
theorem Engine.advance_cases (inB : Nat → Byte) (e : Engine) :
    ((e.seq = .start ∨ ∃ p, e.seq = .stopped p) ∧ e.advance inB = e) ∨
    (e.seq = .flagStep ∧ e.FlagMove (e.advance inB)) ∨ (e.seq = .unit ∧ e.UnitMove (e.advance inB)) := by
  cases hseq : e.seq with
  | start => exact .inl ⟨.inl rfl, by simp [Engine.advance, hseq]⟩
  | stopped p => exact .inl ⟨.inr ⟨p, rfl⟩, e.advance_stopped inB p hseq⟩
  | flagStep =>
    simp only [Engine.advance, hseq]
    exact .inr (.inl ⟨trivial, e.flagStep_flagMove _⟩)
  | unit =>
    simp only [Engine.advance, hseq]
    refine .inr (.inr ⟨trivial, ?_⟩)
    split
    · exact e.literal_unitMove _
    · exact e.backReference_unitMove _ (refLength_bounds _).2

/-- An invariant of every flag step and every unit is one of the loop. -/
theorem Engine.advanceBy_keeps (inB : Nat → Byte) {P : Engine → Prop} (hflag : ∀ e e', P e → e.FlagMove e' → P e')
    (hunit : ∀ e e', P e → e.UnitMove e' → P e') (k : Nat) (e : Engine) (h : P e) :
    P (Engine.advanceBy inB k e) := by
  induction k generalizing e with
  | zero => exact h
  | succ k ih =>
    refine ih _ ?_
    obtain ⟨-, hstay⟩ | ⟨-, hmove⟩ | ⟨-, hmove⟩ := e.advance_cases inB
    · rwa [hstay]
    · exact hflag _ _ h hmove
    · exact hunit _ _ h hmove

/-! ## The invariant of a decode -/

/-- What holds all along a decode of IN[lo..hi) (R30, R81, R87, R89, R90). -/
structure Engine.Decoding (lo hi : Nat) (e : Engine) : Prop where
  ring : e.ringState = pushRing ringStart e.produced
  op : e.op = e.produced.length
  endIdx : e.endIdx = hi
  lo_le : lo ≤ e.ip
  le_hi : lo ≤ hi → e.ip ≤ hi
  bound : e.produced.length ≤ 9 * (e.ip - lo)
  exhausted : ∀ p, e.seq = .stopped p → p.Exhausted e.ip e.endIdx

theorem Engine.beginDecode_decoding (e : Engine) (a : Attempt) (lo hi : Nat) :
    (e.beginDecode a lo hi).Decoding lo hi where
  ring := rfl
  op := rfl
  endIdx := rfl
  lo_le := Nat.le_refl lo
  le_hi := id
  bound := Nat.zero_le _
  exhausted _ h := nomatch h

theorem Engine.Decoding.of_flagMove {lo hi : Nat} {e e' : Engine} (h : e.Decoding lo hi) (hmove : e.FlagMove e') :
    e'.Decoding lo hi := by
  obtain ⟨ring, op, endIdx, lo_le, le_hi, bound, -⟩ := h
  cases hmove with
  | shift fl n hn =>
    exact ⟨ring, op, endIdx, by simp only; omega, fun hle => by have := le_hi hle; simp only; omega,
      by simp only; omega, nofun⟩
  | stop fl p hp => exact ⟨ring, op, endIdx, lo_le, le_hi, bound, fun q hq => by cases hq; exact hp⟩

theorem Engine.Decoding.of_unitMove {lo hi : Nat} {e e' : Engine} (h : e.Decoding lo hi) (hmove : e.UnitMove e') :
    e'.Decoding lo hi := by
  obtain ⟨ring, op, endIdx, lo_le, le_hi, bound, -⟩ := h
  cases hmove with
  | produce bs n hn hin hlen =>
    exact ⟨by simp only [Engine.produceAll_produced, pushRing_append, ← ring]; rfl, by simp [op], endIdx, by simp only; omega,
      fun _ => by simp only; omega, by simp only [Engine.produceAll_produced, List.length_append]; omega, nofun⟩
  | stop p hp => exact ⟨ring, op, endIdx, lo_le, le_hi, bound, fun q hq => by cases hq; exact hp⟩

theorem Engine.decode_decoding (inB : Nat → Byte) (a : Attempt) (lo hi : Nat) (e : Engine) :
    (Engine.decode inB a lo hi e).Decoding lo hi :=
  Engine.advanceBy_keeps inB (fun _ _ => .of_flagMove) (fun _ _ => .of_unitMove) _ _ (e.beginDecode_decoding a lo hi)

/-! ## Termination (R90 (a)) -/

/-- A bound on the points of the loop that are left before a stop. -/
def Engine.turnsLeft (e : Engine) : Nat :=
  match e.seq with
  | .start => 0
  | .flagStep => 2 * (e.endIdx - e.ip) + 2
  | .unit => 2 * (e.endIdx - e.ip) + 1
  | .stopped _ => 0

/-- Each point of a decode in progress makes progress. -/
theorem Engine.turnsLeft_advance (inB : Nat → Byte) (e : Engine) (hactive : e.seq = .flagStep ∨ e.seq = .unit) :
    (e.advance inB).seq ≠ .start ∧ (e.advance inB).turnsLeft < e.turnsLeft := by
  obtain ⟨hidle, -⟩ | ⟨hseq, hmove⟩ | ⟨hseq, hmove⟩ := e.advance_cases inB
  · obtain hstart | ⟨p, hstop⟩ := hidle <;> simp_all
  · have hleft : e.turnsLeft = 2 * (e.endIdx - e.ip) + 2 := by simp only [Engine.turnsLeft, hseq]
    rw [hleft]
    generalize e.advance inB = e' at hmove
    cases hmove with
    | shift fl n hn => exact ⟨nofun, by simp only [Engine.turnsLeft]; omega⟩
    | stop fl p hp => exact ⟨nofun, by simp only [Engine.turnsLeft]; omega⟩
  · have hleft : e.turnsLeft = 2 * (e.endIdx - e.ip) + 1 := by simp only [Engine.turnsLeft, hseq]
    rw [hleft]
    generalize e.advance inB = e' at hmove
    cases hmove with
    | produce bs n hn hin hlen =>
      exact ⟨nofun, by simp only [Engine.turnsLeft, Engine.produceAll_endIdx]; omega⟩
    | stop p hp => exact ⟨nofun, by simp only [Engine.turnsLeft]; omega⟩

theorem Engine.advanceBy_stops (inB : Nat → Byte) (k : Nat) (e : Engine) (hstart : e.seq ≠ .start)
    (hk : e.turnsLeft ≤ k) : ∃ p, (Engine.advanceBy inB k e).seq = .stopped p := by
  induction k generalizing e with
  | zero =>
    cases hseq : e.seq with
    | start => exact absurd hseq hstart
    | flagStep | unit => simp [Engine.turnsLeft, hseq] at hk
    | stopped p => exact ⟨p, hseq⟩
  | succ k ih =>
    cases hseq : e.seq with
    | start => exact absurd hseq hstart
    | flagStep | unit =>
      obtain ⟨hne, hlt⟩ := e.turnsLeft_advance inB (by simp [hseq])
      exact ih _ hne (by omega)
    | stopped p => exact ⟨p, by rw [Engine.advanceBy_stopped inB _ e p hseq, hseq]⟩

theorem Engine.decode_stops (inB : Nat → Byte) (a : Attempt) (lo hi : Nat) (e : Engine) :
    ∃ p, (Engine.decode inB a lo hi e).seq = .stopped p :=
  Engine.advanceBy_stops inB _ _ nofun (Nat.le_refl _)

theorem Engine.advanceBy_add (inB : Nat → Byte) (j k : Nat) (e : Engine) :
    Engine.advanceBy inB (j + k) e = Engine.advanceBy inB k (Engine.advanceBy inB j e) := by
  induction j generalizing e with
  | zero => rw [Nat.zero_add]; rfl
  | succ j ih => rw [Nat.add_right_comm, Engine.advanceBy, ih, ← Engine.advanceBy]

/-- Two runs from one state that have both stopped have stopped alike. -/
theorem Engine.advanceBy_eq_of_stopped (inB : Nat → Byte) {j k : Nat} {e : Engine} {p q : StopPoint}
    (hj : (Engine.advanceBy inB j e).seq = .stopped p) (hk : (Engine.advanceBy inB k e).seq = .stopped q) :
    Engine.advanceBy inB j e = Engine.advanceBy inB k e := by
  obtain hle | hle := Nat.le_total j k <;> obtain ⟨d, rfl⟩ := Nat.exists_eq_add_of_le hle
  · rw [Engine.advanceBy_add, Engine.advanceBy_stopped inB d _ p hj]
  · rw [Engine.advanceBy_add, Engine.advanceBy_stopped inB d _ q hk]

/-- However many points lead to a stop, it is where the decode ends. -/
theorem Engine.decode_eq_of_stopped (inB : Nat → Byte) (a : Attempt) {lo hi k : Nat} {e : Engine} {p : StopPoint}
    (h : (Engine.advanceBy inB k (e.beginDecode a lo hi)).seq = .stopped p) :
    Engine.decode inB a lo hi e = Engine.advanceBy inB k (e.beginDecode a lo hi) := by
  obtain ⟨q, hq⟩ := Engine.decode_stops inB a lo hi e
  exact Engine.advanceBy_eq_of_stopped inB hq h

/-- Settles O10 (R87, R90 (a)). -/
theorem decodeStopsOnlyAtInputEnd : Obligations.DecodeStopsOnlyAtInputEnd := by
  unfold Obligations.DecodeStopsOnlyAtInputEnd
  intro inB a lo hi e hle
  obtain ⟨-, -, hend, -, hhi, -, hexhausted⟩ := Engine.decode_decoding inB a lo hi e
  obtain ⟨p, hp⟩ := Engine.decode_stops inB a lo hi e
  have hip := hhi hle
  have hstop := hexhausted p hp
  rw [hend] at hstop
  refine ⟨hend, ?_⟩
  cases p with
  | atFlag => exact .inl ⟨hp, Nat.le_antisymm hip hstop⟩
  | atLit => exact .inr (.inl ⟨hp, Nat.le_antisymm hip hstop⟩)
  | atRef => exact .inr (.inr ⟨hp, hip, hstop⟩)

/-- Settles O12 (R90 (b)): the bound of the invariant at the last place IP can have. -/
theorem decodeOutputAtMostNineTimes : Obligations.DecodeOutputAtMostNineTimes := by
  unfold Obligations.DecodeOutputAtMostNineTimes
  intro p
  obtain ⟨-, -, -, -, hhi, hbound, -⟩ :=
    Engine.decode_decoding (fun i => p.getD i 0#8) .headerless 0 p.length (Engine.atReset 0)
  exact hbound.trans (Nat.mul_le_mul_left 9 (hhi (Nat.zero_le _)))

/-- Settles O15 (R89): RING is that of the start with the output pushed. -/
theorem ringHoldsRecentOutput : Obligations.RingHoldsRecentOutput := by
  unfold Obligations.RingHoldsRecentOutput
  intro inB a lo hi e
  obtain ⟨hring, hop, -⟩ := Engine.decode_decoding inB a lo hi e
  have hmem : (Engine.decode inB a lo hi e).ring = (pushRing ringStart _).1 := congrArg Prod.fst hring
  have hcur : (Engine.decode inB a lo hi e).rpos = (pushRing ringStart _).2 := congrArg Prod.snd hring
  refine ⟨?_, hop, fun j hj hrecent => ?_⟩
  · rw [hcur, pushRing_rpos, BitVec.toNat_add, BitVec.toNat_ofNat]
    simp only [ringStart, initCursor, BitVec.toNat_ofNat]
    omega
  · rw [hmem]
    exact read_pushRing_recent ringStart _ hj hrecent

/-! ## A decode sees its payload alone (R90 (c), (d), (e)) -/

theorem Engine.produced_advance (inB : Nat → Byte) (e : Engine) : e.produced <+: (e.advance inB).produced := by
  have hcases := e.advance_cases inB
  generalize e.advance inB = e' at hcases
  obtain ⟨-, rfl⟩ | ⟨-, hmove⟩ | ⟨-, hmove⟩ := hcases
  · exact List.prefix_rfl
  · cases hmove <;> exact List.prefix_rfl
  · cases hmove with
    | produce bs n hn hin hlen => exact List.prefix_append _ _
    | stop p hp => exact List.prefix_rfl

theorem Engine.produced_advanceBy (inB : Nat → Byte) (k : Nat) (e : Engine) :
    e.produced <+: (Engine.advanceBy inB k e).produced := by
  induction k generalizing e with
  | zero => exact List.prefix_rfl
  | succ k ih => exact (e.produced_advance inB).trans (ih _)

/-- Two decodes at the same point, the second with at least the bytes left that the first has. -/
structure Engine.Ahead (inB : Nat → Byte) (e : Engine) (inB' : Nat → Byte) (e' : Engine) : Prop where
  ring : e'.ringState = e.ringState
  flags : e'.flags = e.flags
  seq : e'.seq = e.seq
  produced : e'.produced = e.produced
  left : e.endIdx - e.ip ≤ e'.endIdx - e'.ip
  bytes : ∀ i < e.endIdx - e.ip, inB' (e'.ip + i) = inB (e.ip + i)

section
variable {inB inB' : Nat → Byte} {e e' : Engine}

theorem Engine.Ahead.fetchDue (h : e.Ahead inB inB' e') : e'.fetchDue = e.fetchDue := by
  simp only [Engine.fetchDue, Engine.shiftedFlags, h.flags]

theorem Engine.Ahead.selectsLit (h : e.Ahead inB inB' e') : e'.selectsLit = e.selectsLit := by
  simp only [Engine.selectsLit, h.flags]

theorem Engine.Ahead.peek (h : e.Ahead inB inB' e') {k : Nat} (hk : k < e.endIdx - e.ip) :
    e'.peek inB' k = e.peek inB k := by
  have hleft := h.left
  rw [Engine.peek, Engine.peek, if_pos (by omega), if_pos (by omega), h.bytes k hk]

/-- The copied bytes are read from RING and RPOS alone. -/
theorem Engine.copyBytes_congr (off k m : Nat) {e e' : Engine} (h : e'.ringState = e.ringState) :
    Engine.copyBytes off k m e' = Engine.copyBytes off k m e := by
  induction m generalizing k e e' with
  | zero => rfl
  | succ m ih =>
    have hring : e'.ring = e.ring := congrArg Prod.fst h
    have hread : e'.ringRead (off + k) = e.ringRead (off + k) := by rw [Engine.ringRead, Engine.ringRead, hring]
    rw [Engine.copyBytes, Engine.copyBytes, hread]
    congr 1
    exact ih (k + 1) (by rw [Engine.produce_eq_produceAll, Engine.produce_eq_produceAll, Engine.produceAll_ringState,
      Engine.produceAll_ringState, h])

/-- Both decodes take the same flag step. -/
theorem Engine.Ahead.shift (h : e.Ahead inB inB' e') (fl : BitVec 16) {n : Nat} (hn : n ≤ e.endIdx - e.ip) :
    Engine.Ahead inB { e with flags := fl, ip := e.ip + n, seq := .unit }
      inB' { e' with flags := fl, ip := e'.ip + n, seq := .unit } := by
  obtain ⟨ring, -, -, produced, left, bytes⟩ := h
  exact ⟨ring, rfl, rfl, produced, by simp only; omega,
    fun i hi => by simp only at hi; simpa only [Nat.add_assoc] using bytes (n + i) (by omega)⟩

/-- Both decodes take the same unit. -/
theorem Engine.Ahead.produce (h : e.Ahead inB inB' e') (bs : List Byte) {n : Nat} (hn : n ≤ e.endIdx - e.ip) :
    Engine.Ahead inB { e.produceAll bs with ip := e.ip + n, seq := .flagStep }
      inB' { e'.produceAll bs with ip := e'.ip + n, seq := .flagStep } := by
  obtain ⟨ring, flags, -, produced, left, bytes⟩ := h
  refine ⟨?_, flags, rfl, ?_, by simp only [Engine.produceAll_endIdx]; omega, fun i hi => ?_⟩
  · exact congrArg (pushRing · bs) ring
  · exact congrArg (· ++ bs) produced
  · simp only [Engine.produceAll_endIdx] at hi
    simpa only [Nat.add_assoc] using bytes (n + i) (by omega)

/-- After the same point of the loop the second decode is still ahead, or the first has stopped for want of bytes. -/
theorem Engine.Ahead.advance (h : e.Ahead inB inB' e') :
    (e.advance inB).Ahead inB inB' (e'.advance inB') ∨
    (∃ p, (e.advance inB).seq = .stopped p) ∧ (e.advance inB).produced = e.produced := by
  have hleft := h.left
  cases hseq : e.seq with
  | start =>
    left
    simpa only [Engine.advance, hseq, h.seq] using h
  | stopped p => exact .inr ⟨⟨p, by rw [e.advance_stopped inB p hseq, hseq]⟩, by rw [e.advance_stopped inB p hseq]⟩
  | flagStep =>
    have hflags : e'.shiftedFlags = e.shiftedFlags := by simp only [Engine.shiftedFlags, h.flags]
    simp only [Engine.advance, hseq, h.seq.trans hseq, Engine.flagStep, h.fetchDue, Engine.flagOperand]
    by_cases hdue : e.fetchDue = true
    · by_cases hend : e.endIdx ≤ e.ip
      · exact .inr (by simp [hdue, hend])
      · simp only [hdue, if_true, if_neg hend, if_neg (show ¬ e'.endIdx ≤ e'.ip by omega), h.peek (k := 0) (by omega)]
        exact .inl (h.shift _ (by omega))
    · simp only [hdue, hflags]
      exact .inl (h.shift _ (Nat.zero_le _))
  | unit =>
    simp only [Engine.advance, hseq, h.seq.trans hseq, h.selectsLit]
    by_cases hlit : e.selectsLit = true
    · simp only [hlit, if_true, Engine.literal]
      by_cases hend : e.endIdx ≤ e.ip
      · exact .inr (by simp [hend])
      · simp only [if_neg hend, if_neg (show ¬ e'.endIdx ≤ e'.ip by omega), h.peek (k := 0) (by omega),
          Engine.produce_eq_produceAll]
        exact .inl (h.produce _ (by omega))
    · simp only [if_neg hlit, Engine.backReference, Engine.copyRing_eq_produceAll]
      by_cases hshort : e.endIdx - e.ip < 2
      · exact .inr (by simp [hshort])
      · simp only [if_neg hshort, if_neg (show ¬ e'.endIdx - e'.ip < 2 by omega), h.peek (k := 0) (by omega),
          h.peek (k := 1) (by omega), Engine.copyBytes_congr _ _ _ h.ring]
        exact .inl (h.produce _ (by omega))

/-- The output of the decode that is ahead extends that of the other. -/
theorem Engine.Ahead.produced_advanceBy (h : e.Ahead inB inB' e') {k k' : Nat} (hk : k ≤ k') :
    (Engine.advanceBy inB k e).produced <+: (Engine.advanceBy inB' k' e').produced := by
  induction k generalizing e e' k' with
  | zero =>
    rw [Engine.advanceBy, ← h.produced]
    exact e'.produced_advanceBy inB' k'
  | succ k ih =>
    obtain ⟨k', rfl⟩ : ∃ m, k' = m + 1 := ⟨k' - 1, by omega⟩
    obtain hahead | ⟨⟨p, hstop⟩, hsame⟩ := h.advance
    · exact ih hahead (Nat.le_of_succ_le_succ hk)
    · rw [Engine.advanceBy, Engine.advanceBy_stopped inB _ _ p hstop, hsame, ← h.produced]
      exact e'.produced_advanceBy inB' _

end

/-- A decode of a payload that begins with the bytes of another has an output that begins with its output (R90 (d)),
wherever the two payloads stand and whatever the working registers held (R90 (c), (e)). -/
theorem Engine.decode_produced_prefix {inB inB' : Nat → Byte} (a a' : Attempt) {lo lo' n n' : Nat} (e e' : Engine)
    (hn : n ≤ n') (hbytes : ∀ i < n, inB' (lo' + i) = inB (lo + i)) :
    (Engine.decode inB a lo (lo + n) e).produced <+: (Engine.decode inB' a' lo' (lo' + n') e').produced := by
  have hahead : (e.beginDecode a lo (lo + n)).Ahead inB inB' (e'.beginDecode a' lo' (lo' + n')) :=
    ⟨rfl, rfl, rfl, rfl, by simp only [Engine.beginDecode_endIdx, Engine.beginDecode_ip]; omega,
      fun i hi => hbytes i (by simpa using hi)⟩
  exact hahead.produced_advanceBy (by omega)

theorem Engine.decode_produced_congr {inB inB' : Nat → Byte} (a a' : Attempt) {lo lo' n : Nat} (e e' : Engine)
    (hbytes : ∀ i < n, inB (lo + i) = inB' (lo' + i)) :
    (Engine.decode inB a lo (lo + n) e).produced = (Engine.decode inB' a' lo' (lo' + n) e').produced := by
  have hle := Engine.decode_produced_prefix a a' e e' (Nat.le_refl n) fun i hi => (hbytes i hi).symm
  have hge := Engine.decode_produced_prefix a' a e' e (Nat.le_refl n) hbytes
  exact hle.eq_of_length_le hge.length_le

/-- A decode of IN[lo..lo + |p|) that finds the bytes `p` there is the decode of `p` (R81, R90 (e)). -/
theorem Engine.decode_produced_eq_decodeBytes {inB : Nat → Byte} (a : Attempt) (lo : Nat) (e : Engine) (p : List Byte)
    (hbytes : ∀ i < p.length, inB (lo + i) = p.getD i 0#8) :
    (Engine.decode inB a lo (lo + p.length) e).produced = decodeBytes p := by
  have h := Engine.decode_produced_congr (inB := inB) (inB' := fun i => p.getD i 0#8) a .headerless (lo := lo)
    (lo' := 0) e (Engine.atReset 0) (fun i hi => by simpa only [Nat.zero_add] using hbytes i hi)
  rwa [Nat.zero_add] at h

/-- Settles O11 (R90 (c), (e)). -/
theorem decodeDependsOnPayloadAlone : Obligations.DecodeDependsOnPayloadAlone := by
  unfold Obligations.DecodeDependsOnPayloadAlone
  intro inB inB' a a' lo lo' n e e' hbytes
  exact Engine.decode_produced_congr a a' e e' hbytes

/-- Settles O13 (R90 (d)). -/
theorem decodeIsMonotoneInPayload : Obligations.DecodeIsMonotoneInPayload := by
  unfold Obligations.DecodeIsMonotoneInPayload
  rintro p _ ⟨r, rfl⟩
  have h := Engine.decode_produced_prefix (inB := fun i => p.getD i 0#8) (inB' := fun i => (p ++ r).getD i 0#8)
    .headerless .headerless (lo := 0) (lo' := 0) (n := p.length) (n' := (p ++ r).length) (Engine.atReset 0)
    (Engine.atReset 0) (by rw [List.length_append]; omega)
    (fun i hi => by simpa only [Nat.zero_add] using List.getD_append p r 0#8 i hi)
  rwa [Nat.zero_add, Nat.zero_add] at h

end Sys2Proof.Machine
end

section
/-! The stream units one at a time (spec/40_decompress.md R84 to R86, R91, R92), and the first units of a payload (R137). -/

namespace Sys2Proof.Machine

open Sys2Proof

/-! ## A loaded flag byte (R84) -/

/-- The low byte of FLAGS after a fetch is the flag byte. -/
theorem getLsbD_loadedFlags_low (f : Byte) {i : Nat} (hi : i < 8) :
    (0xFF00#16 ||| f.setWidth 16).getLsbD i = f.getLsbD i := by
  have hsentinel : ∀ i < 8, (0xFF00#16).getLsbD i = false := by decide
  have hi16 : i < 16 := by omega
  rw [BitVec.getLsbD_or, hsentinel i hi, Bool.false_or, BitVec.getLsbD_setWidth, decide_eq_true hi16, Bool.true_and]

/-- The eight bits above it are ones, so the next eight flag steps can count the units. -/
theorem getLsbD_loadedFlags_high (f : Byte) {i : Nat} (hlo : 8 ≤ i) (hhi : i < 16) :
    (0xFF00#16 ||| f.setWidth 16).getLsbD i = true := by
  have hsentinel : ∀ i < 16, 8 ≤ i → (0xFF00#16).getLsbD i = true := by decide
  rw [BitVec.getLsbD_or, hsentinel i hhi hlo, Bool.true_or]

/-- After `j` more flag steps the kind bit is bit `j` of the flag byte. -/
theorem Engine.selectsLit_of_loaded {e : Engine} {f : Byte} {j : Nat} (hj : j < 8)
    (h : e.flags = (0xFF00#16 ||| f.setWidth 16) >>> j) : e.selectsLit = f.getLsbD j := by
  rw [Engine.selectsLit, h, BitVec.getLsbD_ushiftRight, Nat.add_zero, getLsbD_loadedFlags_low f hj]

/-- A fetch is due exactly after the eighth unit. -/
theorem Engine.fetchDue_of_loaded {e : Engine} {f : Byte} {j : Nat} (hj : j < 8)
    (h : e.flags = (0xFF00#16 ||| f.setWidth 16) >>> j) : e.fetchDue = decide (j = 7) := by
  rw [Engine.fetchDue, Engine.shiftedFlags, h, BitVec.getLsbD_ushiftRight, BitVec.getLsbD_ushiftRight]
  by_cases hlast : j = 7
  · subst hlast
    simp
  · rw [getLsbD_loadedFlags_high f (by omega) (by omega), decide_eq_false hlast]
    rfl

/-! ## The units as instructions -/

/-- The flag step by its three outcomes, as the test of bit 8 orders them (R84). -/
theorem Engine.flagStep_eq (e : Engine) (f : Byte) :
    e.flagStep f =
      if (e.flags >>> 1).getLsbD 8 = true then { e with flags := e.flags >>> 1, seq := .unit }
      else if e.ip < e.endIdx then { e with flags := 0xFF00#16 ||| f.setWidth 16, ip := e.ip + 1, seq := .unit }
      else { e with flags := e.flags >>> 1, seq := .stopped .atFlag } := by
  obtain ⟨hdue, h⟩ | ⟨hdue, hin, h⟩ | ⟨hdue, hend, h⟩ := e.flagStep_cases f <;>
    simp only [Engine.fetchDue, Engine.shiftedFlags, Bool.not_eq_eq_eq_not, Bool.not_true, Bool.not_false] at hdue h
  · rw [h, if_pos hdue]
  · rw [h, if_neg (ne_true_of_eq_false hdue), if_pos hin]
  · rw [h, if_neg (ne_true_of_eq_false hdue), if_neg (by omega)]

/-- A flag byte loaded and shifted `j` times (R84). -/
theorem Engine.flags_iterate_flagStep (f g : Byte) (e : Engine) (hdue : e.fetchDue = true) (hin : e.ip < e.endIdx)
    {j : Nat} (hj : j ≤ 7) :
    ((fun x : Engine => x.flagStep g)^[j] (e.flagStep f)).flags = (0xFF00#16 ||| f.setWidth 16) >>> j ∧
      ((fun x : Engine => x.flagStep g)^[j] (e.flagStep f)).ip = e.ip + 1 := by
  induction j with
  | zero => simp [Engine.flagStep, hdue, Nat.not_le.2 hin]
  | succ j ih =>
    obtain ⟨hflags, hip⟩ := ih (by omega)
    rw [Function.iterate_succ_apply']
    generalize (fun x : Engine => x.flagStep g)^[j] (e.flagStep f) = x at hflags hip
    have hnot : x.fetchDue = false := by
      rw [Engine.fetchDue_of_loaded (by omega) hflags]
      exact decide_eq_false (by omega)
    simp only [Engine.flagStep, hnot, Bool.false_eq_true, if_false, Engine.shiftedFlags, hflags, hip, and_true]
    exact (BitVec.shiftRight_add _ j 1).symm

/-- Settles O5 (R84). -/
theorem flagStepShiftsFetchesOrStops : Obligations.FlagStepShiftsFetchesOrStops := by
  unfold Obligations.FlagStepShiftsFetchesOrStops
  refine ⟨fun f s => ?_, fun f g e hdue hin => ⟨fun j hj => ?_, ?_⟩⟩
  · rw [exec, execFlag, Engine.flagStep_eq]
  · obtain ⟨hflags, hip⟩ := Engine.flags_iterate_flagStep f g e hdue hin hj
    exact ⟨hflags, Engine.selectsLit_of_loaded (by omega) hflags, hip⟩
  · exact Engine.fetchDue_of_loaded (by decide) (Engine.flags_iterate_flagStep f g e hdue hin (Nat.le_refl 7)).1

/-- A unit that produces `bs` writes them at OUT[OP..] below OUT_CAP (R31). -/
theorem State.runUnit_of_produced {s : State} {e : Engine} {bs : List Byte} (h : e.produced = s.engine.produced ++ bs) :
    s.runUnit e = { s with engine := e, outBuf := s.outBuf.writeBelow s.cfg.outCap s.engine.op bs } := by
  rw [State.runUnit, h, List.drop_left]

/-- A unit that produces nothing leaves OUT alone. -/
theorem State.runUnit_of_same {s : State} {e : Engine} (h : e.produced = s.engine.produced) :
    s.runUnit e = { s with engine := e } := by
  rw [State.runUnit_of_produced (bs := []) (by rw [h, List.append_nil])]
  rfl

/-- The bytes of a run as `getD` reads them: OUT after a unit. -/
theorem Memory.read_writeBelow_getD (m : Memory) (cap a : Nat) (bs : List Byte) (b : Nat) :
    (m.writeBelow cap a bs).read b =
      if a ≤ b ∧ b < a + bs.length ∧ b < cap then bs.getD (b - a) 0#8 else m.read b := by
  rw [Memory.read_writeBelow]
  by_cases h : (a ≤ b ∧ b < a + bs.length) ∧ b < cap
  · rw [dif_pos h, if_pos ⟨h.1.1, h.1.2, h.2⟩, List.getD_eq_getElem _ _ (by omega)]
  · rw [dif_neg h, if_neg (by rwa [← and_assoc])]

/-- Settles O6 (R85). -/
theorem literalStoresOneByte : Obligations.LiteralStoresOneByte := by
  unfold Obligations.LiteralStoresOneByte
  refine ⟨fun c s => ⟨_, rfl, fun hend => ?_, fun hin => ?_⟩, by decide⟩
  · obtain ⟨-, h⟩ | ⟨hin, -⟩ := s.engine.literal_cases c
    · rw [h]
      exact State.runUnit_of_same rfl
    · omega
  · obtain ⟨hend, -⟩ | ⟨-, h⟩ := s.engine.literal_cases c
    · omega
    · rw [State.runUnit_of_produced (s := s) (bs := [c]) (congrArg Engine.produced h), h]
      refine ⟨rfl, fun a => Memory.read_write _ _ a _, fun a => ?_⟩
      rw [Memory.read_writeBelow_getD, List.length_singleton]
      by_cases ha : a = s.engine.op ∧ a < s.cfg.outCap
      · obtain ⟨rfl, hcap⟩ := ha
        rw [if_pos ⟨Nat.le_refl _, Nat.lt_succ_self _, hcap⟩, if_pos ⟨rfl, hcap⟩, Nat.sub_self, List.getD_cons_zero]
      · rw [if_neg (by omega), if_neg ha]

/-- Settles O7 (R86, R88): the bytes are those of the copy loop. -/
theorem backReferenceCopiesWithOverlap : Obligations.BackReferenceCopiesWithOverlap := by
  unfold Obligations.BackReferenceCopiesWithOverlap
  refine ⟨fun off len s hoff hlo hhi => ⟨_, rfl, fun hshort => ?_, fun henough => ?_⟩, by decide⟩
  · obtain ⟨-, h⟩ | ⟨henough, -⟩ := s.engine.backReference_cases off len
    · rw [h]
      exact State.runUnit_of_same rfl
    · omega
  · have hlen : (Engine.copyBytes off 0 len s.engine).length = len := Engine.length_copyBytes off 0 len s.engine
    obtain ⟨hshort, -⟩ | ⟨-, h⟩ := s.engine.backReference_cases off len
    · omega
    · rw [Engine.copyRing_eq_produceAll] at h
      rw [State.runUnit_of_produced (s := s) (bs := Engine.copyBytes off 0 len s.engine) (congrArg Engine.produced h), h]
      refine ⟨_, hlen, fun k hk => Engine.copyBytes_overlap off len s.engine hoff (by omega) hk, ?_, fun k hk => ?_,
        fun a ha => ?_, fun a => ?_⟩
      · rw [Engine.produceAll, pushRing_rpos, hlen]
        rfl
      · exact read_pushRing_at s.engine.ringState _ (by omega) (by omega)
      · exact (Engine.read_ring_produceAll _ _ (by omega) a).trans (if_neg (by omega))
      · rw [Memory.read_writeBelow_getD, hlen]

/-- HDR_POLICY as the two cases of R92. -/
theorem headerAccept_iff (policy : HdrPolicy) (size n : Nat) : headerAccept policy size n = true ↔
    4 ≤ n ∧ (policy = .fits ∧ 4 + size ≤ n ∨ policy = .exact ∧ 4 + size = n) := by
  cases policy <;> simp [headerAccept]

theorem exec_hdr_of_busy {s : State} {code : Word} {n : Nat} (size : Word) (h : s.phase = .busy code n) :
    exec (.hdr size) s = .next { s with engine := s.engine.header s.cfg.hdrPolicy size n } := by
  simp only [exec, execHdr]
  split
  next hidle => cases hidle.symm.trans h
  next hbusy => cases hbusy.symm.trans h; rfl

/-- Settles O8 (R91, R92). -/
theorem headerUnitSelectsPayload : Obligations.HeaderUnitSelectsPayload := by
  unfold Obligations.HeaderUnitSelectsPayload
  intro size code n s hphase
  rw [← headerAccept_iff]
  refine ⟨_, exec_hdr_of_busy size hphase, fun haccept => ?_, fun hreject => ?_⟩
  · rw [Engine.header, if_pos haccept]
    rfl
  · rw [Engine.header, if_neg hreject]
    rfl

/-! ## The first units of a payload (R137) -/

/-- The headerless decode of `f :: rest` with its first flag byte taken. -/
def Engine.afterFirstFlag (f : Byte) (rest : List Byte) : Engine :=
  { (Engine.atReset 0).beginDecode .headerless 0 (f :: rest).length with
    flags := 0xFF00#16 ||| f.setWidth 16, ip := 1, seq := .unit }

theorem Engine.advance_beginDecode (f : Byte) (rest : List Byte) :
    ((Engine.atReset 0).beginDecode .headerless 0 (f :: rest).length).advance (fun i => (f :: rest).getD i 0#8) =
      Engine.afterFirstFlag f rest := by
  have hdue := Engine.beginDecode_fetchDue (Engine.atReset 0) .headerless 0 (f :: rest).length
  simp only [Engine.advance, Engine.beginDecode_seq, Engine.flagStep, Engine.flagOperand, hdue]
  rfl

/-- The output of a payload begins with that of its first unit, and is it when the decode stops there. -/
theorem firstUnit_prefix_decodeBytes (f : Byte) (rest : List Byte) :
    ((Engine.afterFirstFlag f rest).advance fun i => (f :: rest).getD i 0#8).produced <+: decodeBytes (f :: rest) := by
  rw [← Engine.advance_beginDecode]
  exact Engine.produced_advanceBy _ (2 * (f :: rest).length) _

theorem decodeBytes_eq_firstUnit {f : Byte} {rest : List Byte} {p : StopPoint}
    (h : ((Engine.afterFirstFlag f rest).advance fun i => (f :: rest).getD i 0#8).seq = .stopped p) :
    decodeBytes (f :: rest) = ((Engine.afterFirstFlag f rest).advance fun i => (f :: rest).getD i 0#8).produced := by
  rw [← Engine.advance_beginDecode] at h ⊢
  exact congrArg Engine.produced (Engine.decode_eq_of_stopped _ .headerless (k := 2) h)

theorem Engine.selectsLit_afterFirstFlag (f : Byte) (rest : List Byte) :
    (Engine.afterFirstFlag f rest).selectsLit = f.getLsbD 0 :=
  Engine.selectsLit_of_loaded (by decide) (BitVec.ushiftRight_zero _).symm

/-- The first unit stops the decode with no output exactly when its bytes are missing. -/
theorem decodeBytes_cons_eq_nil_iff (f : Byte) (rest : List Byte) :
    decodeBytes (f :: rest) = [] ↔ rest = [] ∨ rest.length = 1 ∧ f.getLsbD 0 = false := by
  have hfirst : (Engine.afterFirstFlag f rest).advance (fun i => (f :: rest).getD i 0#8) = _ := rfl
  have hprefix := firstUnit_prefix_decodeBytes f rest
  have hend := @decodeBytes_eq_firstUnit f rest
  have hleft : (Engine.afterFirstFlag f rest).endIdx = rest.length + 1 := rfl
  have hip : (Engine.afterFirstFlag f rest).ip = 1 := rfl
  simp only [Engine.advance, show (Engine.afterFirstFlag f rest).seq = .unit from rfl,
    Engine.selectsLit_afterFirstFlag] at hprefix hend
  cases hlit : f.getLsbD 0 with
  | true =>
    simp only [hlit, if_true] at hprefix hend
    obtain ⟨hout, h⟩ | ⟨hin, h⟩ := (Engine.afterFirstFlag f rest).literal_cases
        ((Engine.afterFirstFlag f rest).peek (fun i => (f :: rest).getD i 0#8) 0) <;> rw [h] at hprefix hend
    · have hrest : rest = [] := List.length_eq_zero_iff.mp (by omega)
      exact iff_of_true (hend rfl) (.inl hrest)
    · refine iff_of_false (fun hnil => ?_) (by rintro (rfl | ⟨-, hkind⟩) <;> simp_all)
      rw [hnil] at hprefix
      simp [List.prefix_nil] at hprefix
  | false =>
    simp only [hlit, Bool.false_eq_true, if_false] at hprefix hend
    obtain ⟨hshort, h⟩ | ⟨henough, h⟩ := (Engine.afterFirstFlag f rest).backReference_cases
        (refOffset ((Engine.afterFirstFlag f rest).peek (fun i => (f :: rest).getD i 0#8) 0)
          ((Engine.afterFirstFlag f rest).peek (fun i => (f :: rest).getD i 0#8) 1)).toNat
        (refLength ((Engine.afterFirstFlag f rest).peek (fun i => (f :: rest).getD i 0#8) 1)) <;> rw [h] at hprefix hend
    · refine iff_of_true (hend rfl) ?_
      obtain hzero | hone : rest.length = 0 ∨ rest.length = 1 := by omega
      · exact .inl (List.length_eq_zero_iff.mp hzero)
      · exact .inr ⟨hone, rfl⟩
    · refine iff_of_false (fun hnil => ?_) (by rintro (rfl | ⟨hone, -⟩) <;> simp_all)
      have hlen := hprefix.length_le
      have hbounds := refLength_bounds ((Engine.afterFirstFlag f rest).peek (fun i => (f :: rest).getD i 0#8) 1)
      rw [hnil, Engine.copyRing_eq_produceAll] at hlen
      simp only [Engine.produceAll_produced, List.length_append, Engine.length_copyBytes, List.length_nil] at hlen
      omega

/-- Settles O14 (R137). -/
theorem decodeEmptyOnlyForShortPayloads : Obligations.DecodeEmptyOnlyForShortPayloads := by
  unfold Obligations.DecodeEmptyOnlyForShortPayloads
  intro p
  cases p with
  | nil => exact iff_of_true (by decide) (.inl (by decide))
  | cons f rest =>
    rw [decodeBytes_cons_eq_nil_iff, ← List.length_eq_zero_iff]
    simp

end Sys2Proof.Machine
end

section
/-! The compressor's turn (spec/41_compress.md R101 to R114): what it leaves in each register, the invariant of a
compression in progress, and that it sees nothing but IN[0..n). -/

namespace Sys2Proof.Machine

open Sys2Proof

/-! ## Runs of input bytes -/

/-- IN[i..i + u). -/
def inputBytes (inB : Nat → Byte) : Nat → Nat → List Byte
  | _, 0 => []
  | i, u + 1 => inB i :: inputBytes inB (i + 1) u

@[simp] theorem length_inputBytes (inB : Nat → Byte) (i u : Nat) : (inputBytes inB i u).length = u := by
  induction u generalizing i with
  | zero => rfl
  | succ u ih => simp [inputBytes, ih]

theorem getD_inputBytes (inB : Nat → Byte) (i u : Nat) {k : Nat} (hk : k < u) :
    (inputBytes inB i u).getD k 0#8 = inB (i + k) := by
  induction u generalizing i k with
  | zero => exact absurd hk (Nat.not_lt_zero k)
  | succ u ih =>
    cases k with
    | zero => rfl
    | succ k => rw [inputBytes, List.getD_cons_succ, ih (i + 1) (Nat.lt_of_succ_lt_succ hk), Nat.add_right_comm, Nat.add_assoc]

theorem inputBytes_append (inB : Nat → Byte) (i u v : Nat) :
    inputBytes inB i u ++ inputBytes inB (i + u) v = inputBytes inB i (u + v) := by
  induction u generalizing i with
  | zero => rw [Nat.zero_add]; rfl
  | succ u ih => rw [Nat.add_right_comm, inputBytes, inputBytes, List.cons_append, ← ih (i + 1), Nat.add_right_comm i 1 u,
      Nat.add_assoc i u 1]

/-- Two lists of one length with the same bytes are equal. -/
theorem eq_of_getD_eq {xs ys : List Byte} (hlen : xs.length = ys.length)
    (h : ∀ k < ys.length, xs.getD k 0#8 = ys.getD k 0#8) : xs = ys := by
  refine List.ext_getElem hlen fun k hx hy => ?_
  have hk := h k hy
  rwa [List.getD_eq_getElem _ _ hx, List.getD_eq_getElem _ _ hy] at hk

theorem inputBytes_getD (b : List Byte) : inputBytes (fun i => b.getD i 0#8) 0 b.length = b :=
  eq_of_getD_eq (length_inputBytes _ _ _) fun k hk => by rw [getD_inputBytes _ _ _ hk, Nat.zero_add]

theorem Memory.readBytes_eq_inputBytes (m : Memory) (a n : Nat) : m.readBytes a n = inputBytes m.read a n := by
  induction n generalizing a with
  | zero => rfl
  | succ n ih => rw [Memory.readBytes, ih, inputBytes]

/-! ## One turn, register by register (R107 to R111) -/

theorem Engine.absorb_eq (inB : Nat → Byte) (i u : Nat) (e : Engine) :
    Engine.absorb inB i u e =
      { e with ring := (pushRing e.ringState (inputBytes inB i u)).1, rpos := (pushRing e.ringState (inputBytes inB i u)).2 } := by
  induction u generalizing i e with
  | zero => rfl
  | succ u ih => rw [Engine.absorb, ih, inputBytes]; rfl

/-- The stream with the control byte of the unit's group in it (R109). -/
def Engine.openedStream (e : Engine) : List Byte := if e.grpBit = 8 then e.produced ++ [0#8] else e.produced

/-- Where the control byte of the unit's group stands (R109). -/
def Engine.controlIdx (e : Engine) : Nat := if e.grpBit = 8 then e.op else e.grpIdx

/-- The unit's control bit (R109). -/
def Engine.controlBit (e : Engine) : Nat := if e.grpBit = 8 then 0 else e.grpBit

theorem Engine.openGroup_eq (e : Engine) :
    e.openGroup = { e with
      produced := e.openedStream, op := e.op + (if e.grpBit = 8 then 1 else 0), grpIdx := e.controlIdx
      grpBit := e.controlBit } := by
  unfold Engine.openGroup Engine.openedStream Engine.controlIdx Engine.controlBit
  by_cases h : e.grpBit = 8 <;> simp [h, Engine.emit]

/-- The bytes that a unit appends (R107, R108). -/
def Engine.unitBytes (inB : Nat → Byte) (e : Engine) (len d : Nat) : List Byte :=
  if 3 ≤ len then [refByte0 (e.matchAddr d), refByte1 (e.matchAddr d) len] else [inB e.cpos]

/-- The stream with the unit's control bit set for a literal (R109). -/
def Engine.markedStream (e : Engine) (len : Nat) : List Byte :=
  if 3 ≤ len then e.openedStream
  else e.openedStream.set e.controlIdx (e.openedStream.getD e.controlIdx 0#8 ||| (1#8 <<< e.controlBit))

section
variable (inB : Nat → Byte) (n maxDist : Nat) (e : Engine)

/-- One turn of R101 as one update. -/
theorem Engine.compressUnit_eq :
    e.compressUnit inB n maxDist = { e with
      ring := (pushRing e.ringState (inputBytes inB e.cpos (unitSpan (e.select inB n maxDist).1))).1
      rpos := (pushRing e.ringState (inputBytes inB e.cpos (unitSpan (e.select inB n maxDist).1))).2
      cpos := e.cpos + unitSpan (e.select inB n maxDist).1
      grpIdx := e.controlIdx
      grpBit := e.controlBit + 1
      op := e.op + (if e.grpBit = 8 then 1 else 0) +
        (e.unitBytes inB (e.select inB n maxDist).1 (e.select inB n maxDist).2).length
      produced := e.markedStream (e.select inB n maxDist).1 ++
        e.unitBytes inB (e.select inB n maxDist).1 (e.select inB n maxDist).2 } := by
  unfold Engine.compressUnit Engine.unitBytes Engine.markedStream
  generalize e.select inB n maxDist = sel
  rw [Engine.openGroup_eq]
  by_cases h : 3 ≤ sel.1 <;> simp only [Engine.emitUnit, minMatch, h, if_true, if_false] <;> rw [Engine.absorb_eq] <;> rfl

theorem Engine.compressUnit_ringState : (e.compressUnit inB n maxDist).ringState =
    pushRing e.ringState (inputBytes inB e.cpos (unitSpan (e.select inB n maxDist).1)) := by
  rw [Engine.compressUnit_eq]; rfl

@[simp] theorem Engine.compressUnit_cpos :
    (e.compressUnit inB n maxDist).cpos = e.cpos + unitSpan (e.select inB n maxDist).1 := by
  rw [Engine.compressUnit_eq]

@[simp] theorem Engine.compressUnit_grpIdx : (e.compressUnit inB n maxDist).grpIdx = e.controlIdx := by
  rw [Engine.compressUnit_eq]

@[simp] theorem Engine.compressUnit_grpBit : (e.compressUnit inB n maxDist).grpBit = e.controlBit + 1 := by
  rw [Engine.compressUnit_eq]

theorem Engine.compressUnit_op : (e.compressUnit inB n maxDist).op = e.op + (if e.grpBit = 8 then 1 else 0) +
    (e.unitBytes inB (e.select inB n maxDist).1 (e.select inB n maxDist).2).length := by
  rw [Engine.compressUnit_eq]

theorem Engine.compressUnit_produced : (e.compressUnit inB n maxDist).produced =
    e.markedStream (e.select inB n maxDist).1 ++
      e.unitBytes inB (e.select inB n maxDist).1 (e.select inB n maxDist).2 := by
  rw [Engine.compressUnit_eq]

theorem Engine.compressUnit_ip : (e.compressUnit inB n maxDist).ip = e.ip := by rw [Engine.compressUnit_eq]

theorem Engine.compressUnit_endIdx : (e.compressUnit inB n maxDist).endIdx = e.endIdx := by
  rw [Engine.compressUnit_eq]

@[simp] theorem Engine.length_openedStream :
    e.openedStream.length = e.produced.length + (if e.grpBit = 8 then 1 else 0) := by
  unfold Engine.openedStream
  split <;> simp

@[simp] theorem Engine.length_markedStream (len : Nat) : (e.markedStream len).length = e.openedStream.length := by
  unfold Engine.markedStream
  split
  · rfl
  · exact List.length_set

theorem Engine.length_unitBytes (len d : Nat) : (e.unitBytes inB len d).length = if 3 ≤ len then 2 else 1 := by
  unfold Engine.unitBytes
  split <;> rfl

theorem longestNearest_fst_le {m : Nat → Nat} {B : Nat} (h : ∀ d, m d ≤ B) (D : Nat) : (longestNearest m D).1 ≤ B := by
  induction D with
  | zero => exact Nat.zero_le B
  | succ D ih =>
    rw [longestNearest]
    split
    · exact h _
    · exact ih

/-- No match goes past the lookahead or the end of the input (R105). -/
theorem Engine.select_fst_le : (e.select inB n maxDist).1 ≤ min 18 (n - e.cpos) :=
  longestNearest_fst_le (e.matchLength_le inB n) maxDist

theorem unitSpan_eq (len : Nat) : unitSpan len = if 3 ≤ len then len else 1 := rfl

/-- A turn covers at least one byte and none beyond the input (R107, R112). -/
theorem Engine.unitSpan_select_bounds (h : e.cpos < n) :
    1 ≤ unitSpan (e.select inB n maxDist).1 ∧ unitSpan (e.select inB n maxDist).1 ≤ 18 ∧
      e.cpos + unitSpan (e.select inB n maxDist).1 ≤ n := by
  have hle := e.select_fst_le inB n maxDist
  rw [unitSpan_eq]
  split <;> omega

end

/-! ## A compression in progress -/

/-- What every turn of the loop of R101 keeps. `groups` counts the control bytes (R114). -/
structure Engine.Compressing (inB : Nat → Byte) (n : Nat) (e : Engine) : Prop where
  ring : e.ringState = pushRing ringStart (inputBytes inB 0 e.cpos)
  op : e.op = e.produced.length
  cpos_le : e.cpos ≤ n
  grpBit_pos : 1 ≤ e.grpBit
  grpBit_le : e.grpBit ≤ 8
  grpIdx_lt : e.grpBit < 8 → e.grpIdx < e.produced.length
  size : ∃ groups, e.produced.length ≤ groups + e.cpos ∧ 8 * groups + e.grpBit ≤ e.cpos + 8
  control : e.grpBit < 8 → ∀ j, e.grpBit ≤ j → (e.produced.getD e.grpIdx 0#8).getLsbD j = false

theorem Engine.beginCompress_compressing (inB : Nat → Byte) (n : Nat) (e : Engine) (tree : List Nat) :
    (e.beginCompress tree).Compressing inB n where
  ring := rfl
  op := rfl
  cpos_le := Nat.zero_le n
  grpBit_pos := (by decide : 1 ≤ groupUnits)
  grpBit_le := Nat.le_refl 8
  grpIdx_lt h := absurd h (Nat.lt_irrefl 8)
  size := ⟨0, Nat.le_refl 0, Nat.le_refl 8⟩
  control h := absurd h (Nat.lt_irrefl 8)

section
variable {inB : Nat → Byte} {n : Nat} {e : Engine}

theorem Engine.Compressing.controlBit_lt (h : e.Compressing inB n) : e.controlBit < 8 := by
  have hle := h.grpBit_le
  unfold Engine.controlBit
  split <;> omega

theorem Engine.Compressing.controlIdx_lt (h : e.Compressing inB n) : e.controlIdx < e.openedStream.length := by
  have hle := h.grpBit_le
  rw [Engine.length_openedStream, Engine.controlIdx, h.op]
  split
  · omega
  · have := h.grpIdx_lt (by omega)
    omega

/-- The control byte's bits are 0 from the unit's own bit on (R109). -/
theorem Engine.Compressing.control_openedStream (h : e.Compressing inB n) {j : Nat} (hj : e.controlBit ≤ j) :
    (e.openedStream.getD e.controlIdx 0#8).getLsbD j = false := by
  have hle := h.grpBit_le
  unfold Engine.controlBit at hj
  unfold Engine.openedStream Engine.controlIdx
  split at hj
  next hfull => simp [hfull, h.op]
  next hopen => rw [if_neg hopen, if_neg hopen]; exact h.control (by omega) j hj

/-- The unit's own control bit says its kind, and no other bit changes (R109). -/
theorem Engine.Compressing.control_markedStream (h : e.Compressing inB n) (len j : Nat) :
    ((e.markedStream len).getD e.controlIdx 0#8).getLsbD j =
      ((e.openedStream.getD e.controlIdx 0#8).getLsbD j || (decide (j = e.controlBit) && decide (len < 3))) := by
  have hidx := h.controlIdx_lt
  have hbit := h.controlBit_lt
  unfold Engine.markedStream
  by_cases hlen : 3 ≤ len
  · rw [if_pos hlen, decide_eq_false (Nat.not_lt.2 hlen), Bool.and_false, Bool.or_false]
  · rw [if_neg hlen, decide_eq_true (Nat.not_le.1 hlen), Bool.and_true, List.getD_eq_getElem _ _ (by rwa [List.length_set]),
      List.getElem_set_self, BitVec.getLsbD_or]
    congr 1
    rw [BitVec.getLsbD_shiftLeft, BitVec.getLsbD_one]
    by_cases hj : j = e.controlBit
    · simp [hj, hbit]
    · by_cases hlt : j < e.controlBit
      · simp [hlt, hj]
      · simp [hj, show j - e.controlBit ≠ 0 by omega]

theorem Engine.Compressing.compressUnit (h : e.Compressing inB n) (hlt : e.cpos < n) (maxDist : Nat) :
    (e.compressUnit inB n maxDist).Compressing inB n := by
  have hbit := h.controlBit_lt
  have hidx := h.controlIdx_lt
  obtain ⟨hspan, -, hend⟩ := e.unitSpan_select_bounds inB n maxDist hlt
  have hlen : (e.compressUnit inB n maxDist).produced.length = e.produced.length + (if e.grpBit = 8 then 1 else 0) +
      (if 3 ≤ (e.select inB n maxDist).1 then 2 else 1) := by
    rw [Engine.compressUnit_produced, List.length_append, Engine.length_markedStream, Engine.length_openedStream,
      Engine.length_unitBytes]
  have hgrow : (if 3 ≤ (e.select inB n maxDist).1 then 2 else 1) ≤ unitSpan (e.select inB n maxDist).1 := by
    rw [unitSpan_eq]
    split <;> omega
  refine ⟨?ring, ?op, ?cpos_le, ?grpBit_pos, ?grpBit_le, fun _ => ?grpIdx_lt, ?size, fun _ j hj => ?control⟩
  case ring =>
    rw [Engine.compressUnit_ringState, h.ring, ← pushRing_append, Engine.compressUnit_cpos]
    have happend := inputBytes_append inB 0 e.cpos (unitSpan (e.select inB n maxDist).1)
    rw [Nat.zero_add] at happend
    rw [happend]
  case op => rw [hlen, Engine.compressUnit_op, h.op, Engine.length_unitBytes]
  case cpos_le => rwa [Engine.compressUnit_cpos]
  case grpBit_pos => rw [Engine.compressUnit_grpBit]; omega
  case grpBit_le => rw [Engine.compressUnit_grpBit]; omega
  case grpIdx_lt =>
    rw [Engine.compressUnit_grpIdx, hlen]
    rw [Engine.length_openedStream] at hidx
    omega
  case size =>
    obtain ⟨groups, hsize, hgroups⟩ := h.size
    rw [hlen, Engine.compressUnit_cpos, Engine.compressUnit_grpBit, Engine.controlBit]
    split
    · exact ⟨groups + 1, by omega, by omega⟩
    · exact ⟨groups, by omega, by omega⟩
  case control =>
    rw [Engine.compressUnit_grpBit] at hj
    rw [Engine.compressUnit_grpIdx, Engine.compressUnit_produced,
      List.getD_append _ _ _ _ (by rwa [Engine.length_markedStream]), h.control_markedStream,
      h.control_openedStream (by omega), decide_eq_false (show ¬ j = e.controlBit by omega)]
    rfl

end

/-- An invariant of the turns is one of the loop (R101). -/
theorem Engine.compressLoop_keeps (inB : Nat → Byte) (n maxDist : Nat) {P : Engine → Prop}
    (hunit : ∀ e, P e → e.cpos < n → P (e.compressUnit inB n maxDist)) (k : Nat) (e : Engine) (h : P e) :
    P (Engine.compressLoop inB n maxDist k e) := by
  induction k generalizing e with
  | zero => exact h
  | succ k ih =>
    rw [Engine.compressLoop]
    split
    · exact h
    · next hlt => exact ih _ (hunit e h (Nat.not_le.1 hlt))

theorem Engine.compressLoop_compressing (inB : Nat → Byte) (n maxDist k : Nat) (e : Engine) (tree : List Nat) :
    (Engine.compressLoop inB n maxDist k (e.beginCompress tree)).Compressing inB n :=
  Engine.compressLoop_keeps inB n maxDist (fun _ h hlt => h.compressUnit hlt maxDist) k _
    (e.beginCompress_compressing inB n tree)

/-- Every turn covers a byte, so `n - CPOS` turns cover the input (R112). -/
theorem Engine.le_cpos_compressLoop (inB : Nat → Byte) (n maxDist k : Nat) (e : Engine) (hk : n ≤ e.cpos + k) :
    n ≤ (Engine.compressLoop inB n maxDist k e).cpos := by
  induction k generalizing e with
  | zero => exact hk
  | succ k ih =>
    rw [Engine.compressLoop]
    split
    · assumption
    · next hlt =>
      obtain ⟨hspan, -⟩ := e.unitSpan_select_bounds inB n maxDist (Nat.not_le.1 hlt)
      exact ih _ (by rw [Engine.compressUnit_cpos]; omega)

theorem Engine.cpos_compressLoop (inB : Nat → Byte) (n maxDist : Nat) (e : Engine) (tree : List Nat) :
    (Engine.compressLoop inB n maxDist n (e.beginCompress tree)).cpos = n :=
  Nat.le_antisymm (Engine.compressLoop_compressing inB n maxDist n e tree).cpos_le
    (Engine.le_cpos_compressLoop inB n maxDist n _ (Nat.le_add_left _ _))

theorem one_shiftLeft_eq_ofNat (bit : Nat) : 1#8 <<< bit = BitVec.ofNat 8 (2 ^ bit) := by
  apply BitVec.eq_of_toNat_eq
  simp [BitVec.toNat_shiftLeft, Nat.shiftLeft_eq]

/-- The two bytes of a match as numbers (R108). -/
theorem Engine.unitBytes_of_match (inB : Nat → Byte) (e : Engine) {len d : Nat} (hlo : 3 ≤ len) (hhi : len ≤ 18)
    (hd : d ≤ 4096) : e.unitBytes inB len d =
      [BitVec.ofNat 8 ((e.rpos.toNat + 4096 - d) % 4096),
       BitVec.ofNat 8 ((e.rpos.toNat + 4096 - d) % 4096 / 256 * 16 + (len - 3))] := by
  have haddr := e.matchAddr_toNat hd
  have hbyte0 : refByte0 (e.matchAddr d) = BitVec.ofNat 8 ((e.rpos.toNat + 4096 - d) % 4096) := by
    apply BitVec.eq_of_toNat_eq
    rw [toNat_refByte0, haddr, BitVec.toNat_ofNat]
  have hbyte1 : refByte1 (e.matchAddr d) len =
      BitVec.ofNat 8 ((e.rpos.toNat + 4096 - d) % 4096 / 256 * 16 + (len - 3)) := by
    apply BitVec.eq_of_toNat_eq
    rw [toNat_refByte1 _ hhi, haddr, BitVec.toNat_ofNat]
    omega
  rw [Engine.unitBytes, if_pos hlo, hbyte0, hbyte1]

/-- Settles O18 (R107 to R109, R111). -/
theorem compressTurnEmitsOneUnit : Obligations.CompressTurnEmitsOneUnit := by
  unfold Obligations.CompressTurnEmitsOneUnit
  intro inB n maxDist e hpos hmax hlt hop _ _ L d u idx bit opened hsel hu hidx hbit hopened
  have hL : (e.select inB n maxDist).1 = L := by rw [← hsel]
  have hd : (e.select inB n maxDist).2 = d := by rw [← hsel]
  have hlimit := e.select_fst_le inB n maxDist
  have hbest := e.select_isLongestNearest inB n hpos
  have hdist := hbest.le_bound
  obtain ⟨hspan, hspan18, -⟩ := e.unitSpan_select_bounds inB n maxDist hlt
  rw [hL] at hlimit hspan18
  rw [hd] at hdist
  obtain rfl : u = unitSpan L := hu
  obtain rfl : idx = e.controlIdx := by rw [hidx, Engine.controlIdx, hop]
  obtain rfl : bit = e.controlBit := hbit
  obtain rfl : opened = e.openedStream := hopened
  have hproduced := e.compressUnit_produced inB n maxDist
  rw [hL, hd] at hproduced
  refine ⟨fun hmatch => ?_, fun hlit => ?_, ?_, Engine.compressUnit_grpBit .., Engine.compressUnit_grpIdx .., ?_, ?_,
    fun a => ?_⟩
  · rw [hproduced, Engine.markedStream, if_pos hmatch, Engine.unitBytes_of_match inB e hmatch (by omega) (by omega)]
  · rw [hproduced, Engine.markedStream, Engine.unitBytes, if_neg (by omega), if_neg (by omega),
      one_shiftLeft_eq_ofNat]
  · rw [Engine.compressUnit_cpos, hL]
  · rw [Engine.compressUnit_op, hproduced, hL, hd, List.length_append, Engine.length_markedStream,
      Engine.length_openedStream, hop]
  · have hcursor := congrArg Prod.snd (e.compressUnit_ringState inB n maxDist)
    rw [pushRing_rpos, length_inputBytes, hL] at hcursor
    exact hcursor
  · have hring := congrArg (fun r => r.1.read a) (e.compressUnit_ringState inB n maxDist)
    simp only [hL] at hring
    rw [read_pushRing _ _ (by rw [length_inputBytes]; omega), length_inputBytes] at hring
    refine hring.trans ?_
    by_cases hcov : a < 4096 ∧ (a + 4096 - e.rpos.toNat) % 4096 < unitSpan L
    · rw [if_pos hcov]
      exact (if_pos hcov).trans (getD_inputBytes _ _ _ hcov.2)
    · rw [if_neg hcov]
      exact if_neg hcov

/-- Settles O19 (R112). -/
theorem compressConsumesWholeInput : Obligations.CompressConsumesWholeInput := by
  unfold Obligations.CompressConsumesWholeInput
  intro inB n maxDist tree e hn
  rw [compressOp, if_neg hn]
  exact ⟨Engine.cpos_compressLoop inB n maxDist e tree, (Engine.compressLoop_compressing inB n maxDist n e tree).op⟩

/-- Settles O20 (R114): one control byte for each eight units, and a unit is no longer than what it covers. -/
theorem compressOutputIsBounded : Obligations.CompressOutputIsBounded := by
  unfold Obligations.CompressOutputIsBounded
  intro maxDist b
  have hinv := Engine.compressLoop_compressing (fun i => b.getD i 0#8) b.length maxDist b.length (Engine.atReset 0) []
  obtain ⟨groups, hsize, hgroups⟩ := hinv.size
  have hpos := hinv.grpBit_pos
  rw [Engine.cpos_compressLoop] at hsize hgroups
  rw [compressBytes]
  omega

/-! ## A compression sees IN[0..n) alone (R118) -/

/-- The registers that the compressor reads are the same in both. -/
structure Engine.SameCompressor (e e' : Engine) : Prop where
  ring : e'.ringState = e.ringState
  op : e'.op = e.op
  cpos : e'.cpos = e.cpos
  grpIdx : e'.grpIdx = e.grpIdx
  grpBit : e'.grpBit = e.grpBit
  produced : e'.produced = e.produced

section
variable {inB inB' : Nat → Byte} {n : Nat} {e e' : Engine}

theorem Engine.SameCompressor.matchAddr (h : e.SameCompressor e') (d : Nat) : e'.matchAddr d = e.matchAddr d := by
  have hrpos : e'.rpos = e.rpos := congrArg Prod.snd h.ring
  rw [Engine.matchAddr, Engine.matchAddr, hrpos]

theorem Engine.SameCompressor.matchSource (h : e.SameCompressor e') (hin : ∀ i < n, inB' i = inB i) {d k : Nat}
    (hk : e.cpos + k < n) : e'.matchSource inB' d k = e.matchSource inB d k := by
  have hring : e'.ring = e.ring := congrArg Prod.fst h.ring
  rw [Engine.matchSource, Engine.matchSource, Engine.ringRead, Engine.ringRead, hring, h.matchAddr, h.cpos,
    hin _ (show e.cpos + k - d < n by omega)]

theorem Engine.SameCompressor.matchFrom (h : e.SameCompressor e') (hin : ∀ i < n, inB' i = inB i) (d r k : Nat)
    (hr : r = 0 ∨ e.cpos + k + r ≤ n) : Engine.matchFrom inB' e' d r k = Engine.matchFrom inB e d r k := by
  induction r generalizing k with
  | zero => rfl
  | succ r ih =>
    rw [Engine.matchFrom, Engine.matchFrom, h.matchSource hin (by omega), h.cpos, hin _ (by omega), ih (k + 1) (by omega)]

theorem Engine.SameCompressor.select (h : e.SameCompressor e') (hin : ∀ i < n, inB' i = inB i) (maxDist : Nat) :
    e'.select inB' n maxDist = e.select inB n maxDist := by
  have hlength : e'.matchLength inB' n = e.matchLength inB n := by
    funext d
    rw [Engine.matchLength, Engine.matchLength, Engine.matchLimit, Engine.matchLimit, h.cpos]
    exact h.matchFrom hin d _ 0 (by simp only [lookahead]; omega)
  rw [Engine.select, Engine.select, hlength]

theorem inputBytes_congr {i u : Nat} (hin : ∀ i < n, inB' i = inB i) (h : i + u ≤ n) :
    inputBytes inB' i u = inputBytes inB i u := by
  induction u generalizing i with
  | zero => rfl
  | succ u ih => rw [inputBytes, inputBytes, hin i (by omega), ih (by omega)]

theorem Engine.SameCompressor.compressUnit (h : e.SameCompressor e') (hin : ∀ i < n, inB' i = inB i) (hlt : e.cpos < n)
    (maxDist : Nat) : (e.compressUnit inB n maxDist).SameCompressor (e'.compressUnit inB' n maxDist) := by
  obtain ⟨-, -, hend⟩ := e.unitSpan_select_bounds inB n maxDist hlt
  have hopened : e'.openedStream = e.openedStream := by rw [Engine.openedStream, Engine.openedStream, h.grpBit, h.produced]
  have hidx : e'.controlIdx = e.controlIdx := by rw [Engine.controlIdx, Engine.controlIdx, h.grpBit, h.op, h.grpIdx]
  have hbit : e'.controlBit = e.controlBit := by rw [Engine.controlBit, Engine.controlBit, h.grpBit]
  have hbytes : ∀ len d, e'.unitBytes inB' len d = e.unitBytes inB len d := fun len d => by
    rw [Engine.unitBytes, Engine.unitBytes, h.matchAddr, h.cpos, hin _ hlt]
  refine ⟨?_, ?_, ?_, ?_, ?_, ?_⟩
  · rw [Engine.compressUnit_ringState, Engine.compressUnit_ringState, h.select hin, h.ring, h.cpos, inputBytes_congr hin hend]
  · rw [Engine.compressUnit_op, Engine.compressUnit_op, h.select hin, hbytes, h.op, h.grpBit]
  · rw [Engine.compressUnit_cpos, Engine.compressUnit_cpos, h.select hin, h.cpos]
  · rw [Engine.compressUnit_grpIdx, Engine.compressUnit_grpIdx, hidx]
  · rw [Engine.compressUnit_grpBit, Engine.compressUnit_grpBit, hbit]
  · rw [Engine.compressUnit_produced, Engine.compressUnit_produced, h.select hin, hbytes, Engine.markedStream,
      Engine.markedStream, hopened, hidx, hbit]

theorem Engine.SameCompressor.compressLoop (h : e.SameCompressor e') (hin : ∀ i < n, inB' i = inB i) (maxDist k : Nat) :
    (Engine.compressLoop inB n maxDist k e).SameCompressor (Engine.compressLoop inB' n maxDist k e') := by
  induction k generalizing e e' with
  | zero => exact h
  | succ k ih =>
    rw [Engine.compressLoop, Engine.compressLoop, h.cpos]
    split
    · exact h
    · next hlt => exact ih (h.compressUnit hin (Nat.not_le.1 hlt) maxDist)

end

/-- COMPRESS of an input that holds the bytes `b` is Compress(b), whatever the working registers and TREE held (R118). -/
theorem compressLoop_produced_eq_compressBytes {inB : Nat → Byte} (maxDist : Nat) (tree : List Nat) (e : Engine)
    (b : List Byte) (hin : ∀ i < b.length, inB i = b.getD i 0#8) :
    (Engine.compressLoop inB b.length maxDist b.length (e.beginCompress tree)).produced = compressBytes maxDist b := by
  have hsame : ((Engine.atReset 0).beginCompress []).SameCompressor (e.beginCompress tree) :=
    ⟨rfl, rfl, rfl, rfl, rfl, rfl⟩
  exact (hsame.compressLoop hin maxDist b.length).produced

end Sys2Proof.Machine
end

section
/-! The round trip (spec/41_compress.md R103, R119): a decoder that runs on the compressor's stream keeps pace with it, turn
by turn. A later turn of the compressor can still set bits of the last control byte, so the decoder is taken on every
stream that the one written so far can become. -/

namespace Sys2Proof.Machine

open Sys2Proof

/-- `s` is a stream that the one of `e` can become: it goes on from it, and in the control byte of the open group at least
the bits of the emitted units agree. -/
structure Engine.ExtendsTo (e : Engine) (s : List Byte) : Prop where
  len : e.produced.length ≤ s.length
  bytes : ∀ i < e.produced.length, i ≠ e.grpIdx → s.getD i 0#8 = e.produced.getD i 0#8
  bits : e.grpIdx < e.produced.length → ∀ j < e.grpBit,
    (s.getD e.grpIdx 0#8).getLsbD j = (e.produced.getD e.grpIdx 0#8).getLsbD j

theorem Engine.extendsTo_produced (e : Engine) : e.ExtendsTo e.produced :=
  ⟨Nat.le_refl _, fun _ _ _ => rfl, fun _ _ _ => rfl⟩

/-- The decoder `d` stands on the stream `s` where the compressor `e` stands on its input: at the boundary of the same
unit, with the same output, and with the flag bits of the open group left in FLAGS. -/
structure Engine.KeepsPace (inB : Nat → Byte) (s : List Byte) (e d : Engine) : Prop where
  seq : d.seq = .flagStep
  ip : d.ip = e.produced.length
  endIdx : d.endIdx = s.length
  produced : d.produced = inputBytes inB 0 e.cpos
  ring : d.ringState = pushRing ringStart d.produced
  full : e.grpBit = 8 → d.fetchDue = true
  opened : e.grpBit < 8 → d.flags = (0xFF00#16 ||| (s.getD e.grpIdx 0#8).setWidth 16) >>> (e.grpBit - 1)

/-- The decoder with the flag step of the compressor's next unit taken. -/
structure Engine.AtUnitOf (inB : Nat → Byte) (s : List Byte) (e d : Engine) : Prop where
  seq : d.seq = .unit
  ip : d.ip = e.openedStream.length
  endIdx : d.endIdx = s.length
  produced : d.produced = inputBytes inB 0 e.cpos
  ring : d.ringState = pushRing ringStart d.produced
  flags : d.flags = (0xFF00#16 ||| (s.getD e.controlIdx 0#8).setWidth 16) >>> e.controlBit

section
variable {inB : Nat → Byte} {n maxDist : Nat} {e : Engine} {s : List Byte}

/-! ## The stream after a turn and the stream before it -/

theorem Engine.getD_markedStream_of_ne (len : Nat) {i : Nat} (hi : i ≠ e.controlIdx) :
    (e.markedStream len).getD i 0#8 = e.openedStream.getD i 0#8 := by
  unfold Engine.markedStream
  split
  · rfl
  · simp only [List.getD_eq_getElem?_getD, List.getElem?_set_ne (Ne.symm hi)]

theorem Engine.getD_openedStream {i : Nat} (hi : i < e.produced.length) :
    e.openedStream.getD i 0#8 = e.produced.getD i 0#8 := by
  unfold Engine.openedStream
  split
  · exact List.getD_append _ _ _ _ hi
  · rfl

/-- Outside the control byte, `s` has the bytes of the opened stream. -/
theorem Engine.ExtendsTo.getD_of_ne_controlIdx (hext : (e.compressUnit inB n maxDist).ExtendsTo s) {i : Nat}
    (hi : i < e.openedStream.length) (hne : i ≠ e.controlIdx) : s.getD i 0#8 = e.openedStream.getD i 0#8 := by
  have hbytes := hext.bytes i (by rw [Engine.compressUnit_produced, List.length_append, Engine.length_markedStream]; omega)
    (by rwa [Engine.compressUnit_grpIdx])
  rw [hbytes, Engine.compressUnit_produced, List.getD_append _ _ _ _ (by rwa [Engine.length_markedStream]),
    Engine.getD_markedStream_of_ne _ hne]

/-- The control bits up to the unit's own in `s`. -/
theorem Engine.ExtendsTo.getLsbD_control (h : e.Compressing inB n) (hext : (e.compressUnit inB n maxDist).ExtendsTo s)
    {j : Nat} (hj : j ≤ e.controlBit) :
    (s.getD e.controlIdx 0#8).getLsbD j = ((e.openedStream.getD e.controlIdx 0#8).getLsbD j ||
      (decide (j = e.controlBit) && decide ((e.select inB n maxDist).1 < 3))) := by
  have hidx := h.controlIdx_lt
  have hbits := hext.bits
  simp only [Engine.compressUnit_grpIdx, Engine.compressUnit_grpBit, Engine.compressUnit_produced, List.length_append,
    Engine.length_markedStream] at hbits
  rw [hbits (by omega) j (by omega), List.getD_append _ _ _ _ (by rwa [Engine.length_markedStream]),
    h.control_markedStream]

/-- The bytes that the unit appended stand in `s`. -/
theorem Engine.ExtendsTo.getD_unitBytes (h : e.Compressing inB n) (hext : (e.compressUnit inB n maxDist).ExtendsTo s)
    {k : Nat} (hk : k < (e.unitBytes inB (e.select inB n maxDist).1 (e.select inB n maxDist).2).length) :
    e.openedStream.length + k < s.length ∧ s.getD (e.openedStream.length + k) 0#8 =
      (e.unitBytes inB (e.select inB n maxDist).1 (e.select inB n maxDist).2).getD k 0#8 := by
  have hidx := h.controlIdx_lt
  have hlen := hext.len
  have hbytes := hext.bytes (e.openedStream.length + k)
  simp only [Engine.compressUnit_grpIdx, Engine.compressUnit_produced, List.length_append,
    Engine.length_markedStream] at hlen hbytes
  refine ⟨by omega, ?_⟩
  rw [hbytes (by omega) (by omega), List.getD_append_right _ _ _ _ (by rw [Engine.length_markedStream]; omega),
    Engine.length_markedStream, Nat.add_sub_cancel_left]

/-- What the stream after a turn can become, the stream before it could. -/
theorem Engine.ExtendsTo.of_compressUnit (h : e.Compressing inB n) (hext : (e.compressUnit inB n maxDist).ExtendsTo s) :
    e.ExtendsTo s := by
  have hgrp := h.grpBit_le
  have hidx := h.controlIdx_lt
  have hopened := e.length_openedStream
  have hlen := hext.len
  rw [Engine.compressUnit_produced, List.length_append, Engine.length_markedStream] at hlen
  have hold : ∀ i < e.produced.length, i ≠ e.controlIdx → s.getD i 0#8 = e.produced.getD i 0#8 := fun i hi hne => by
    rw [hext.getD_of_ne_controlIdx (by omega) hne, Engine.getD_openedStream hi]
  by_cases hfull : e.grpBit = 8
  · have hfresh : e.controlIdx = e.produced.length := by rw [Engine.controlIdx, if_pos hfull, h.op]
    exact ⟨by omega, fun i hi _ => hold i hi (by omega), fun hin j _ => by rw [hold _ hin (by omega)]⟩
  · have hsame : e.controlIdx = e.grpIdx := if_neg hfull
    have hbit : e.controlBit = e.grpBit := if_neg hfull
    refine ⟨by omega, fun i hi hne => hold i hi (by rwa [hsame]), fun hin j hj => ?_⟩
    rw [← hsame, hext.getLsbD_control h (by omega), decide_eq_false (show ¬ j = e.controlBit by omega), Bool.false_and,
      Bool.or_false, hsame, Engine.getD_openedStream hin]

/-! ## The decoder's two points of the loop for one turn -/

/-- The flag step brings the decoder to the unit, by a fetch when the compressor has opened a group (R84, R109). -/
theorem Engine.KeepsPace.flagStep {d : Engine} (h : e.Compressing inB n)
    (hext : (e.compressUnit inB n maxDist).ExtendsTo s) (hpace : e.KeepsPace inB s d) :
    Engine.AtUnitOf inB s e (d.advance fun i => s.getD i 0#8) := by
  obtain ⟨seq, ip, endIdx, produced, ring, full, opened⟩ := hpace
  have hlen := hext.len
  have hpos := h.grpBit_pos
  rw [Engine.compressUnit_produced, List.length_append, Engine.length_markedStream, Engine.length_openedStream] at hlen
  simp only [Engine.advance, seq]
  by_cases hfull : e.grpBit = 8
  · have hdue := full hfull
    rw [if_pos hfull] at hlen
    have hidx : e.controlIdx = e.produced.length := by rw [Engine.controlIdx, if_pos hfull, h.op]
    have hoperand : d.flagOperand (fun i => s.getD i 0#8) = s.getD e.controlIdx 0#8 := by
      rw [Engine.flagOperand, if_pos hdue, Engine.peek, if_pos (by omega), Nat.add_zero, ip, hidx]
    rw [hoperand, Engine.flagStep, if_pos hdue, if_neg (by omega)]
    refine ⟨rfl, ?_, endIdx, produced, ring, ?_⟩
    · rw [Engine.length_openedStream, if_pos hfull, ip]
    · rw [Engine.controlBit, if_pos hfull, BitVec.ushiftRight_zero]
  · have hgrp := h.grpBit_le
    have hflags := opened (by omega)
    have hdue : ¬ d.fetchDue = true := by
      rw [Engine.fetchDue_of_loaded (by omega) hflags, decide_eq_true_eq]
      omega
    rw [Engine.flagStep, if_neg hdue]
    refine ⟨rfl, ?_, endIdx, produced, ring, ?_⟩
    · rw [Engine.length_openedStream, if_neg hfull, ip, Nat.add_zero]
    · rw [Engine.controlIdx, Engine.controlBit, if_neg hfull, if_neg hfull, Engine.shiftedFlags, hflags,
        ← BitVec.shiftRight_add, Nat.sub_add_cancel hpos]

/-- Copying from the address of an agreeing candidate gives the input bytes back, overlap included (R86, R105). -/
theorem Engine.copyBytes_matchAddr {d : Engine} (hring : d.ringState = e.ringState) {dist len : Nat} (hpos : 1 ≤ dist)
    (hdist : dist ≤ 4096) (hlen : len ≤ 18) (hagree : ∀ k < len, e.matchSource inB dist k = inB (e.cpos + k)) :
    Engine.copyBytes (e.matchAddr dist).toNat 0 len d = inputBytes inB e.cpos len := by
  have hmem : d.ring = e.ring := congrArg Prod.fst hring
  have hcur : d.rpos = e.rpos := congrArg Prod.snd hring
  have hrpos := e.rpos.isLt
  have haddr := e.matchAddr_toNat hdist
  have hback : (d.rpos.toNat + 4096 - (e.matchAddr dist).toNat) % 4096 = dist % 4096 := by rw [hcur, haddr]; omega
  refine eq_of_getD_eq (by rw [Engine.length_copyBytes, length_inputBytes]) fun k hk => ?_
  rw [length_inputBytes] at hk
  induction k using Nat.strong_induction_on with
  | _ k ih =>
    have hsrc := hagree k hk
    rw [e.matchSource_eq inB hdist, ← haddr] at hsrc
    rw [Engine.copyBytes_overlap _ _ _ (e.matchAddr dist).isLt (by omega) hk, hback, getD_inputBytes _ _ _ hk, ← hsrc]
    by_cases hown : dist ≤ k
    · have hmod : dist % 4096 = dist := Nat.mod_eq_of_lt (by omega)
      rw [hmod, if_pos ⟨hpos, hown⟩, if_neg (Nat.not_lt.2 hown), ih (k - dist) (by omega) (by omega),
        getD_inputBytes _ _ _ (by omega), Nat.add_sub_assoc hown]
    · rw [if_neg (by omega), if_pos (Nat.not_le.1 hown), hmem]

/-- At the unit, the decoder reads the kind that the compressor marked (R85, R107). -/
theorem Engine.AtUnitOf.selectsLit {d : Engine} (h : e.Compressing inB n)
    (hext : (e.compressUnit inB n maxDist).ExtendsTo s) (hunit : Engine.AtUnitOf inB s e d) :
    d.selectsLit = decide ((e.select inB n maxDist).1 < 3) := by
  obtain ⟨-, -, -, -, -, flags⟩ := hunit
  rw [Engine.selectsLit_of_loaded h.controlBit_lt flags, hext.getLsbD_control h (Nat.le_refl _),
    h.control_openedStream (Nat.le_refl _), decide_eq_true rfl, Bool.true_and, Bool.false_or]

/-- At the unit, the decoder reads the bytes that the compressor appended. -/
theorem Engine.AtUnitOf.peek {d : Engine} (h : e.Compressing inB n)
    (hext : (e.compressUnit inB n maxDist).ExtendsTo s) (hunit : Engine.AtUnitOf inB s e d) {k : Nat}
    (hk : k < (e.unitBytes inB (e.select inB n maxDist).1 (e.select inB n maxDist).2).length) :
    d.ip + k < d.endIdx ∧ d.peek (fun i => s.getD i 0#8) k =
      (e.unitBytes inB (e.select inB n maxDist).1 (e.select inB n maxDist).2).getD k 0#8 := by
  obtain ⟨-, ip, endIdx, -, -, -⟩ := hunit
  obtain ⟨hin, hbyte⟩ := hext.getD_unitBytes h hk
  rw [Engine.peek, ip, endIdx, if_pos hin]
  exact ⟨hin, hbyte⟩

/-- A unit that takes the appended bytes and produces the covered ones leaves the decoder where the compressor is. -/
theorem Engine.AtUnitOf.keepsPace {d : Engine} (h : e.Compressing inB n) (hunit : Engine.AtUnitOf inB s e d)
    {bs : List Byte} {u : Nat} (hbs : bs = inputBytes inB e.cpos (unitSpan (e.select inB n maxDist).1))
    (hu : u = (e.unitBytes inB (e.select inB n maxDist).1 (e.select inB n maxDist).2).length) :
    (e.compressUnit inB n maxDist).KeepsPace inB s { d.produceAll bs with ip := d.ip + u, seq := .flagStep } := by
  obtain ⟨-, ip, endIdx, produced, ring, flags⟩ := hunit
  have hbit := h.controlBit_lt
  have hpast := inputBytes_append inB 0 e.cpos (unitSpan (e.select inB n maxDist).1)
  simp only [Nat.zero_add] at hpast
  refine ⟨rfl, ?_, endIdx, ?_, ?_, fun hfull => ?_, fun _ => ?_⟩
  · rw [Engine.compressUnit_produced, List.length_append, Engine.length_markedStream, ← hu, ← ip]
  · rw [Engine.compressUnit_cpos, ← hpast, ← hbs, ← produced]
    rfl
  · simp only [Engine.produceAll_produced, pushRing_append, ← ring]
    rfl
  · rw [Engine.compressUnit_grpBit] at hfull
    rw [Engine.fetchDue_of_loaded (e := { d.produceAll bs with ip := d.ip + u, seq := .flagStep }) hbit flags,
      decide_eq_true_eq]
    omega
  · rw [Engine.compressUnit_grpBit, Engine.compressUnit_grpIdx, Nat.add_sub_cancel]
    exact flags

/-- A literal of the decoder undoes a literal of the compressor (R85, R107). -/
theorem Engine.AtUnitOf.literal {d : Engine} (h : e.Compressing inB n)
    (hext : (e.compressUnit inB n maxDist).ExtendsTo s) (hunit : Engine.AtUnitOf inB s e d)
    (hshort : (e.select inB n maxDist).1 < 3) :
    (e.compressUnit inB n maxDist).KeepsPace inB s (d.literal (d.peek (fun i => s.getD i 0#8) 0)) := by
  have hshape : e.unitBytes inB (e.select inB n maxDist).1 (e.select inB n maxDist).2 = [inB e.cpos] :=
    if_neg (Nat.not_le.2 hshort)
  obtain ⟨hin, hpeek⟩ := hunit.peek h hext (k := 0) (by simp [hshape])
  rw [hshape] at hpeek
  rw [hpeek, Engine.literal, if_neg (by omega), Engine.produce_eq_produceAll]
  exact hunit.keepsPace h (u := 1) (by rw [unitSpan_eq, if_neg (by omega)]; rfl) (by rw [hshape]; rfl)

/-- A back-reference of the decoder undoes a match of the compressor (R86, R105, R108). -/
theorem Engine.AtUnitOf.backReference {d : Engine} (hmin : 1 ≤ maxDist) (hmax : maxDist ≤ 4096)
    (h : e.Compressing inB n) (hext : (e.compressUnit inB n maxDist).ExtendsTo s) (hunit : Engine.AtUnitOf inB s e d)
    (hlong : 3 ≤ (e.select inB n maxDist).1) :
    (e.compressUnit inB n maxDist).KeepsPace inB s
      (d.backReference (refOffset (d.peek (fun i => s.getD i 0#8) 0) (d.peek (fun i => s.getD i 0#8) 1)).toNat
        (refLength (d.peek (fun i => s.getD i 0#8) 1))) := by
  obtain ⟨-, one_le, le_bound, attained, -⟩ := e.select_isLongestNearest inB n hmin
  have hlimit := e.select_fst_le inB n maxDist
  have hagree := fun k hk => e.matchSource_eq_of_lt_matchLength inB n (e.select inB n maxDist).2 (k := k) hk
  rw [attained] at hagree
  have hring : d.ringState = e.ringState := by rw [hunit.ring, hunit.produced, h.ring]
  have hshape : e.unitBytes inB (e.select inB n maxDist).1 (e.select inB n maxDist).2 =
      [refByte0 (e.matchAddr (e.select inB n maxDist).2),
        refByte1 (e.matchAddr (e.select inB n maxDist).2) (e.select inB n maxDist).1] := if_pos hlong
  obtain ⟨-, hpeek0⟩ := hunit.peek h hext (k := 0) (by simp [hshape])
  obtain ⟨hin, hpeek1⟩ := hunit.peek h hext (k := 1) (by simp [hshape])
  rw [hshape, List.getD_cons_zero] at hpeek0
  rw [hshape, List.getD_cons_succ, List.getD_cons_zero] at hpeek1
  rw [hpeek0, hpeek1, refOffset_refBytes _ (by omega), refLength_refByte1 _ (by omega) (by omega),
    Engine.backReference, if_neg (by omega), Engine.copyRing_eq_produceAll,
    Engine.copyBytes_matchAddr hring one_le (by omega) (by omega) hagree]
  exact hunit.keepsPace h (u := 2) (by rw [unitSpan_eq, if_pos (by omega)]) (by rw [hshape]; rfl)

/-- The unit of the decoder undoes the unit of the compressor (R85, R86, R107, R108). -/
theorem Engine.AtUnitOf.unit {d : Engine} (hmin : 1 ≤ maxDist) (hmax : maxDist ≤ 4096) (h : e.Compressing inB n)
    (hext : (e.compressUnit inB n maxDist).ExtendsTo s) (hunit : Engine.AtUnitOf inB s e d) :
    (e.compressUnit inB n maxDist).KeepsPace inB s (d.advance fun i => s.getD i 0#8) := by
  simp only [Engine.advance, hunit.seq, hunit.selectsLit h hext, decide_eq_true_eq]
  split
  · next hshort => exact hunit.literal h hext hshort
  · next hlong => exact hunit.backReference hmin hmax h hext (Nat.not_lt.1 hlong)

end

/-! ## The whole stream -/

/-- On every stream that the one written so far can become, the decoder comes to where the compressor is. -/
def Engine.FollowedByDecoder (inB : Nat → Byte) (e : Engine) : Prop :=
  ∀ s : List Byte, e.ExtendsTo s → ∃ k, e.KeepsPace inB s
    (Engine.advanceBy (fun i => s.getD i 0#8) k ((Engine.atReset 0).beginDecode .headerless 0 s.length))

/-- Before the first turn the decoder stands at its start (R82, R103). -/
theorem Engine.beginCompress_followedByDecoder (inB : Nat → Byte) (e : Engine) (tree : List Nat) :
    (e.beginCompress tree).FollowedByDecoder inB := fun _ _ =>
  ⟨0, rfl, rfl, rfl, rfl, rfl, fun _ => Engine.beginDecode_fetchDue _ _ _ _, fun h => absurd h (Nat.lt_irrefl 8)⟩

theorem Engine.FollowedByDecoder.compressUnit {inB : Nat → Byte} {n maxDist : Nat} {e : Engine} (hmin : 1 ≤ maxDist)
    (hmax : maxDist ≤ 4096) (h : e.Compressing inB n) (hfol : e.FollowedByDecoder inB) :
    (e.compressUnit inB n maxDist).FollowedByDecoder inB := fun s hext => by
  obtain ⟨k, hpace⟩ := hfol s (hext.of_compressUnit h)
  exact ⟨k + 2, by rw [Engine.advanceBy_add]; exact (hpace.flagStep h hext).unit hmin hmax h hext⟩

theorem Engine.compressLoop_followedByDecoder (inB : Nat → Byte) (n maxDist k : Nat) (e : Engine) (tree : List Nat)
    (hmin : 1 ≤ maxDist) (hmax : maxDist ≤ 4096) :
    (Engine.compressLoop inB n maxDist k (e.beginCompress tree)).FollowedByDecoder inB :=
  (Engine.compressLoop_keeps inB n maxDist (P := fun e => e.Compressing inB n ∧ e.FollowedByDecoder inB)
    (fun _ h hlt => ⟨h.1.compressUnit hlt maxDist, h.2.compressUnit hmin hmax h.1⟩) k _
    ⟨e.beginCompress_compressing inB n tree, e.beginCompress_followedByDecoder inB tree⟩).2

/-- A decode whose input is used up produces no more. -/
theorem Engine.produced_advanceBy_of_exhausted (inB : Nat → Byte) (k : Nat) (e : Engine) (h : e.endIdx ≤ e.ip) :
    (Engine.advanceBy inB k e).produced = e.produced := by
  have hkeep : (Engine.advanceBy inB k e).endIdx ≤ (Engine.advanceBy inB k e).ip ∧
      (Engine.advanceBy inB k e).produced = e.produced := by
    refine Engine.advanceBy_keeps inB (P := fun x => x.endIdx ≤ x.ip ∧ x.produced = e.produced) ?_ ?_ k e ⟨h, rfl⟩
    · rintro x _ ⟨hend, hout⟩ (⟨fl, m, hm⟩ | ⟨fl, p, hp⟩)
      · exact ⟨by simp only; omega, hout⟩
      · exact ⟨hend, hout⟩
    · rintro x _ ⟨hend, hout⟩ (⟨bs, m, hm, hin, hlen⟩ | ⟨p, hp⟩)
      · omega
      · exact ⟨hend, hout⟩
  exact hkeep.2

/-- A decode that has come to the end of its payload has its whole output. -/
theorem decodeBytes_eq_of_exhausted {s : List Byte} {k : Nat}
    (h : (Engine.advanceBy (fun i => s.getD i 0#8) k ((Engine.atReset 0).beginDecode .headerless 0 s.length)).endIdx ≤
      (Engine.advanceBy (fun i => s.getD i 0#8) k ((Engine.atReset 0).beginDecode .headerless 0 s.length)).ip) :
    decodeBytes s =
      (Engine.advanceBy (fun i => s.getD i 0#8) k ((Engine.atReset 0).beginDecode .headerless 0 s.length)).produced := by
  obtain ⟨p, hp⟩ := Engine.decode_stops (fun i => s.getD i 0#8) .headerless 0 s.length (Engine.atReset 0)
  rw [decodeBytes, ← Engine.advanceBy_stopped (fun i => s.getD i 0#8) k _ p hp, Engine.decode, ← Engine.advanceBy_add,
    Nat.add_comm, Engine.advanceBy_add, Engine.produced_advanceBy_of_exhausted _ _ _ h]

/-- Settles O21 (R119): at the end the decoder has come to where the compressor is, which is the end of its input. -/
theorem decodeInvertsCompress : Obligations.DecodeInvertsCompress := by
  unfold Obligations.DecodeInvertsCompress
  intro maxDist b hmin hmax
  have hfol := Engine.compressLoop_followedByDecoder (fun i => b.getD i 0#8) b.length maxDist b.length
    (Engine.atReset 0) [] hmin hmax
  obtain ⟨k, hpace⟩ := hfol _ (Engine.extendsTo_produced _)
  have hend := decodeBytes_eq_of_exhausted (k := k) (hpace.endIdx.trans hpace.ip.symm).le
  rw [compressBytes, hend, hpace.produced, Engine.cpos_compressLoop, inputBytes_getD]

end Sys2Proof.Machine
end

section
/-! The commands (spec/40_decompress.md R83, R93 to R95, spec/41_compress.md R101, R113, spec/60_exceptions.md R139): the
result of each operation as a function of the input bytes, and what completing a command with it leaves. -/

namespace Sys2Proof.Machine

open Sys2Proof

/-! ## The results of the three operations -/

theorem Engine.decode_produced_inputBytes (inB : Nat → Byte) (a : Attempt) (lo m : Nat) (e : Engine) :
    (Engine.decode inB a lo (lo + m) e).produced = decodeBytes (inputBytes inB lo m) := by
  have h := Engine.decode_produced_eq_decodeBytes (inB := inB) a lo e (inputBytes inB lo m) fun i hi => by
    rw [length_inputBytes] at hi
    exact (getD_inputBytes inB lo m hi).symm
  rwa [length_inputBytes] at h

theorem Engine.decode_zero_produced (inB : Nat → Byte) (a : Attempt) (n : Nat) (e : Engine) :
    (Engine.decode inB a 0 n e).produced = decodeBytes (inputBytes inB 0 n) := by
  have h := Engine.decode_produced_inputBytes inB a 0 n e
  rwa [Nat.zero_add] at h

/-- What the header reading of R93 decodes. -/
def headerOutput (inB : Nat → Byte) : List Byte := decodeBytes (inputBytes inB 4 (headerSize inB).toNat)

theorem fallbackDecode_result (inB : Nat → Byte) (n : Nat) (e : Engine) :
    (fallbackDecode inB n e).1 =
      if decodeBytes (inputBytes inB 0 n) = [] then .err .decodeEmptyOutput
      else .ok (decodeBytes (inputBytes inB 0 n)) .headerless := by
  rw [fallbackDecode, Engine.decode_zero_produced]
  by_cases h : decodeBytes (inputBytes inB 0 n) = []
  · simp [h]
  · simp [h, List.isEmpty_iff]

/-- DECOMPRESS as a function of the input (R93). -/
theorem decompressOp_result (policy : HdrPolicy) (inB : Nat → Byte) (n : Nat) (e : Engine) :
    (decompressOp policy inB n e).1 =
      if n = 0 then .err .emptyInput
      else if takesHeader policy inB n = true ∧ headerOutput inB ≠ [] then .ok (headerOutput inB) .header
      else if decodeBytes (inputBytes inB 0 n) = [] then .err .decodeEmptyOutput
      else .ok (decodeBytes (inputBytes inB 0 n)) .headerless := by
  unfold decompressOp
  split
  · rfl
  · by_cases hheader : takesHeader policy inB n = true
    · simp only [hheader, if_true, true_and, Engine.decode_produced_inputBytes, List.isEmpty_iff, hdrBytes]
      change (if headerOutput inB = [] then _ else _ : Result × Engine).1 = _
      by_cases hempty : headerOutput inB = []
      · rw [if_pos hempty, if_neg (not_not.mpr hempty), fallbackDecode_result]
      · rw [if_neg hempty, if_pos hempty]
        rfl
    · rw [if_neg hheader, if_neg (fun h => hheader h.1), fallbackDecode_result]

/-- DECOMPRESS_RAW as a function of the input (R94). -/
theorem decompressRawOp_result (inB : Nat → Byte) (n : Nat) (e : Engine) :
    (decompressRawOp inB n e).1 =
      if n = 0 then .err .emptyInput else .ok (decodeBytes (inputBytes inB 0 n)) .headerless := by
  unfold decompressRawOp
  split
  · rfl
  · simp only [Engine.decode_zero_produced]

/-- COMPRESS as a function of the input, the empty one included (R101, R113). -/
theorem compressOp_result (inB : Nat → Byte) (n maxDist : Nat) (tree : List Nat) (e : Engine) :
    (compressOp inB n maxDist tree e).1 = .ok (compressBytes maxDist (inputBytes inB 0 n)) .none := by
  unfold compressOp
  split
  next h => subst h; rfl
  next =>
    have hloop := compressLoop_produced_eq_compressBytes (inB := inB) maxDist tree e (inputBytes inB 0 n) fun i hi => by
      rw [length_inputBytes] at hi
      rw [getD_inputBytes inB 0 n hi, Nat.zero_add]
    rw [length_inputBytes] at hloop
    simp only [hloop]

/-! ## Completing a command with a result (R83, R95, R136) -/

theorem State.failedWith_finish (s : State) (k : ErrorKind) (e : Engine) :
    s.failedWith (s.finish (.err k, e)) k.code := rfl

theorem State.finish_ok_of_fits {s : State} {bs : List Byte} (p : Path) (e : Engine) (h : bs.length ≤ s.cfg.outCap) :
    s.finish (.ok bs p, e) = ({ s with engine := e }).commit bs p :=
  if_neg (Nat.not_lt.2 h)

theorem State.finish_ok_of_overflow {s : State} {bs : List Byte} (p : Path) (e : Engine) (h : s.cfg.outCap < bs.length) :
    s.finish (.ok bs p, e) = ({ s with engine := e }).raise .outputOverflow :=
  if_pos h

theorem State.endsWith_finish (s : State) (bs : List Byte) (p : Path) (e : Engine) :
    s.endsWith (s.finish (.ok bs p, e)) bs p.bits := by
  refine ⟨fun hfits => ?_, fun hover => ?_⟩
  · rw [State.finish_ok_of_fits p e hfits]
    exact ⟨rfl, Memory.writeBytes_fill _ _ _, fun i hi => (State.commit_read _ bs p i).trans (dif_pos hi)⟩
  · rw [State.finish_ok_of_overflow p e hover]
    rfl

theorem State.endsWith_of_result {s : State} {r : Result × Engine} {bs : List Byte} {p : Path} (h : r.1 = .ok bs p) :
    s.endsWith (s.finish r) bs p.bits := by
  obtain ⟨r1, e⟩ := r
  cases h
  exact s.endsWith_finish bs p e

theorem State.failedWith_of_result {s : State} {r : Result × Engine} {k : ErrorKind} (h : r.1 = .err k) :
    s.failedWith (s.finish r) k.code := by
  obtain ⟨r1, e⟩ := r
  cases h
  exact s.failedWith_finish k e

@[simp] theorem State.finish_engine (s : State) (r : Result × Engine) : (s.finish r).engine = r.2 := by
  unfold State.finish
  obtain ⟨bs, p, -, -, h⟩ | ⟨bs, p, -, -, h⟩ | ⟨k, -, h⟩ := State.complete_cases { s with engine := r.2 } r.1 <;>
    rw [h] <;> rfl

/-! ## The commands as instructions -/

section
variable {s : State} {code : Word} {n : Nat}

theorem exec_decompress_of_busy (h : s.phase = .busy code n) :
    exec .decompress s = .next (s.finish (decompressOp s.cfg.hdrPolicy s.inByte n s.engine)) := by
  simp only [exec, execDecompress, h]

theorem exec_decompressRaw_of_busy (h : s.phase = .busy code n) :
    exec .decompressRaw s = .next (s.finish (decompressRawOp s.inByte n s.engine)) := by
  simp only [exec, execDecompressRaw, h]

theorem exec_compress_of_busy (h : s.phase = .busy code n) :
    exec .compress s =
      .next (s.finish (compressOp s.inByte n s.cfg.maxDist (Config.freeTree s.draws) s.engine)) := by
  simp only [exec, execCompress, h]

theorem exec_badCommand_of_busy (c : Word) (h : s.phase = .busy code n) :
    exec (.badCommand c) s = .next (s.raise .badCommand) := by
  simp only [exec, execBadCommand, h]

end

theorem State.inBuf_readBytes (s : State) (a n : Nat) : s.inBuf.readBytes a n = inputBytes s.inByte a n :=
  s.inBuf.readBytes_eq_inputBytes a n

/-- The header reading is taken as R92 says. -/
theorem takesHeader_iff (policy : HdrPolicy) (inB : Nat → Byte) (n : Nat) : takesHeader policy inB n = true ↔
    4 ≤ n ∧ (policy = .fits ∧ 4 + (headerSize inB).toNat ≤ n ∨ policy = .exact ∧ 4 + (headerSize inB).toNat = n) := by
  rw [takesHeader, Bool.and_eq_true, headerAccept_iff, decide_eq_true_eq, hdrBytes, and_self_left]

/-- Settles O24 (R92, R93, R95). -/
theorem decompressTriesHeaderThenHeaderless : Obligations.DecompressTriesHeaderThenHeaderless := by
  unfold Obligations.DecompressTriesHeaderThenHeaderless
  intro s code n size o1 o2 hphase hsize ho1 ho2
  rw [State.inBuf_readBytes] at ho1 ho2
  have hheader : size = (headerSize s.inByte).toNat := by rw [hsize, headerSize, toNat_hdrSize]
  have hout : o1 = headerOutput s.inByte := by rw [ho1, hheader, headerOutput]
  have hresult := decompressOp_result s.cfg.hdrPolicy s.inByte n s.engine
  rw [← hout, ← ho2] at hresult
  have htaken := takesHeader_iff s.cfg.hdrPolicy s.inByte n
  rw [← hheader] at htaken
  refine ⟨_, exec_decompress_of_busy hphase, fun hzero => ?empty, fun hn => ⟨fun ⟨hle, hpolicy, hne⟩ => ?header,
    fun hnot => ?headerless⟩⟩
  case empty => exact State.failedWith_of_result (hresult.trans (if_pos hzero))
  case header =>
    rw [if_neg hn, if_pos ⟨htaken.mpr ⟨hle, hpolicy⟩, hne⟩] at hresult
    exact State.endsWith_of_result hresult
  case headerless =>
    rw [if_neg hn, if_neg (by rw [htaken]; tauto)] at hresult
    exact ⟨fun hempty => State.failedWith_of_result (hresult.trans (if_pos hempty)),
      fun hne => State.endsWith_of_result (hresult.trans (if_neg hne))⟩

/-- Settles O25 (R94). -/
theorem decompressRawDecodesWholeInput : Obligations.DecompressRawDecodesWholeInput := by
  unfold Obligations.DecompressRawDecodesWholeInput
  intro s code n hphase
  have hresult := decompressRawOp_result s.inByte n s.engine
  rw [State.inBuf_readBytes]
  exact ⟨_, exec_decompressRaw_of_busy hphase, fun hzero => State.failedWith_of_result (hresult.trans (if_pos hzero)),
    fun hn => State.endsWith_of_result (hresult.trans (if_neg hn))⟩

/-- Settles O26 (R101, R102, R113): the stream of the empty input is empty, and it fits. -/
theorem compressCommitsStream : Obligations.CompressCommitsStream := by
  unfold Obligations.CompressCommitsStream
  intro s code n hphase
  have hends := State.endsWith_of_result (s := s)
    (compressOp_result s.inByte n s.cfg.maxDist (Config.freeTree s.draws) s.engine)
  rw [State.inBuf_readBytes]
  refine ⟨_, exec_compress_of_busy hphase, fun hzero => ?_, hends⟩
  subst hzero
  exact hends.1 (Nat.zero_le _)

/-- Settles O27 (R77, R139). -/
theorem reservedCommandFails : Obligations.ReservedCommandFails := by
  unfold Obligations.ReservedCommandFails
  intro s code c n h1 h2 h3 hphase
  refine ⟨?_, _, exec_badCommand_of_busy code hphase, rfl, rfl, fun m => ?_⟩
  · simp only [decodeCommand, h1, h2, h3, if_false]
  · exact exec_badCommand_of_busy (s := { s with inBuf := m }) code hphase

/-- Settles O29 (R145): ones to DONE and ERR clear both, and ERRCODE with ERR. -/
theorem acknowledgeClearsError : Obligations.AcknowledgeClearsError := by
  unfold Obligations.AcknowledgeClearsError
  intro s k
  refine ⟨_, rfl, ?_, ?_, rfl, rfl⟩
  · rw [State.statusWord_eq_or]
    cases hovr : s.status.ovr <;> simp [Status.writeOneToClear, hovr]
  · rw [State.irq_clearStatus]
    exact Bool.and_false _

/-! ## Commands over the same input (R37, R97, R118) -/

section
variable {inB inB' : Nat → Byte} {n : Nat}

theorem headerSize_congr (hin : ∀ i < n, inB' i = inB i) (h4 : 4 ≤ n) : headerSize inB' = headerSize inB := by
  rw [headerSize, headerSize, hin 0 (by omega), hin 1 (by omega), hin 2 (by omega), hin 3 (by omega)]

theorem takesHeader_congr (policy : HdrPolicy) (hin : ∀ i < n, inB' i = inB i) :
    takesHeader policy inB' n = takesHeader policy inB n := by
  by_cases h4 : 4 ≤ n
  · rw [takesHeader, takesHeader, headerSize_congr hin h4]
  · simp only [takesHeader, hdrBytes, h4, decide_false, Bool.false_and]

theorem le_of_takesHeader {policy : HdrPolicy} (h : takesHeader policy inB n = true) :
    4 ≤ n ∧ 4 + (headerSize inB).toNat ≤ n := by
  obtain ⟨h4, ⟨-, hle⟩ | ⟨-, heq⟩⟩ := (takesHeader_iff policy inB n).mp h
  · exact ⟨h4, hle⟩
  · exact ⟨h4, heq.le⟩

theorem decompressOp_result_congr (policy : HdrPolicy) (hin : ∀ i < n, inB' i = inB i) (e e' : Engine) :
    (decompressOp policy inB' n e').1 = (decompressOp policy inB n e).1 := by
  rw [decompressOp_result, decompressOp_result, takesHeader_congr policy hin,
    inputBytes_congr hin (show 0 + n ≤ n by omega)]
  by_cases hheader : takesHeader policy inB n = true
  · obtain ⟨h4, hsize⟩ := le_of_takesHeader hheader
    rw [headerOutput, headerOutput, headerSize_congr hin h4, inputBytes_congr hin hsize]
  · simp only [hheader, Bool.false_eq_true, false_and, if_false]

theorem decompressRawOp_result_congr (hin : ∀ i < n, inB' i = inB i) (e e' : Engine) :
    (decompressRawOp inB' n e').1 = (decompressRawOp inB n e).1 := by
  rw [decompressRawOp_result, decompressRawOp_result, inputBytes_congr hin (show 0 + n ≤ n by omega)]

theorem compressOp_result_congr (maxDist : Nat) (hin : ∀ i < n, inB' i = inB i) (tree tree' : List Nat) (e e' : Engine) :
    (compressOp inB' n maxDist tree' e').1 = (compressOp inB n maxDist tree e).1 := by
  rw [compressOp_result, compressOp_result, inputBytes_congr hin (show 0 + n ≤ n by omega)]

end

/-- What a host sees of a completed command comes from its result, OUT_CAP and the OVR that was set before. -/
theorem State.finish_observation {s1 s2 : State} {r1 r2 : Result × Engine} (hcfg : s1.cfg = s2.cfg) (hr : r1.1 = r2.1) :
    (s1.finish r1).outLen = (s2.finish r2).outLen ∧
    (s1.finish r1).status = { (s2.finish r2).status with ovr := s1.status.ovr } ∧
    ∀ k < (s1.finish r1).outLen, (s1.finish r1).outBuf.read k = (s2.finish r2).outBuf.read k := by
  obtain ⟨res, e1⟩ := r1
  obtain ⟨res2, e2⟩ := r2
  obtain rfl : res = res2 := hr
  cases res with
  | err k => exact ⟨rfl, rfl, fun k hk => absurd hk (Nat.not_lt_zero k)⟩
  | ok bs p =>
    obtain hfits | hover := le_or_gt bs.length s1.cfg.outCap
    · rw [State.finish_ok_of_fits p e1 hfits, State.finish_ok_of_fits p e2 (by rwa [← hcfg])]
      exact ⟨rfl, rfl, fun k hk => ((State.commit_read _ bs p k).trans (dif_pos hk)).trans
        ((State.commit_read _ bs p k).trans (dif_pos hk)).symm⟩
    · rw [State.finish_ok_of_overflow p e1 hover, State.finish_ok_of_overflow p e2 (by rwa [← hcfg])]
      exact ⟨rfl, rfl, fun k hk => absurd hk (Nat.not_lt_zero k)⟩

/-- Settles O30 (R37, R97, R118), command by command. -/
theorem commandResultIgnoresHistory : Obligations.CommandResultIgnoresHistory := by
  unfold Obligations.CommandResultIgnoresHistory
  intro i s1 s2 t1 t2 code n hi hphase1 hphase2 hcfg hin hexec1 hexec2
  obtain rfl | rfl | rfl := hi
  · rw [exec_decompress_of_busy hphase1] at hexec1
    rw [exec_decompress_of_busy hphase2, ← hcfg] at hexec2
    cases hexec1
    cases hexec2
    exact State.finish_observation hcfg (decompressOp_result_congr _ hin _ _)
  · rw [exec_decompressRaw_of_busy hphase1] at hexec1
    rw [exec_decompressRaw_of_busy hphase2] at hexec2
    cases hexec1
    cases hexec2
    exact State.finish_observation hcfg (decompressRawOp_result_congr hin _ _)
  · rw [exec_compress_of_busy hphase1] at hexec1
    rw [exec_compress_of_busy hphase2, ← hcfg] at hexec2
    cases hexec1
    cases hexec2
    exact State.finish_observation hcfg (compressOp_result_congr _ hin _ _ _ _)

/-! ## The compressor's registers during a decompression (R36, R45) -/

/-- A decode leaves the compressor's registers as they were. -/
theorem Engine.decode_withCompressorOf (inB : Nat → Byte) (a : Attempt) (lo hi : Nat) (e : Engine) :
    (Engine.decode inB a lo hi e).withCompressorOf e = Engine.decode inB a lo hi e :=
  (Engine.decode_eq_withCompressorOf inB a lo hi e e).symm

theorem fallbackDecode_engine (inB : Nat → Byte) (n : Nat) (e : Engine) :
    (fallbackDecode inB n e).2 = Engine.decode inB .headerless 0 n e := by
  simp only [fallbackDecode]
  split <;> rfl

/-- A second decode overwrites all that a first one left. -/
theorem Engine.decode_of_withCompressorOf {inB : Nat → Byte} (a : Attempt) (lo hi : Nat) {e e' : Engine}
    (h : e'.withCompressorOf e = e') : Engine.decode inB a lo hi e' = Engine.decode inB a lo hi e := by
  rw [Engine.decode_eq_withCompressorOf inB a lo hi e e', ← h]
  exact Engine.decode_withCompressorOf inB a lo hi e

/-- The working registers that DECOMPRESS leaves are those of its last decode (R93). -/
theorem decompressOp_engine (policy : HdrPolicy) (inB : Nat → Byte) {n : Nat} (e : Engine) (hn : n ≠ 0) :
    (decompressOp policy inB n e).2 =
      if takesHeader policy inB n = true ∧ headerOutput inB ≠ [] then
        Engine.decode inB .header 4 (4 + (headerSize inB).toNat) e
      else Engine.decode inB .headerless 0 n e := by
  unfold decompressOp
  rw [if_neg hn]
  by_cases hheader : takesHeader policy inB n = true
  · simp only [hheader, if_true, true_and, Engine.decode_produced_inputBytes, List.isEmpty_iff, hdrBytes]
    change (if headerOutput inB = [] then _ else _ : Result × Engine).2 = _
    by_cases hempty : headerOutput inB = []
    · rw [if_pos hempty, if_neg (not_not.mpr hempty), fallbackDecode_engine]
      exact Engine.decode_of_withCompressorOf _ _ _ (Engine.decode_withCompressorOf _ _ _ _ e)
    · rw [if_neg hempty, if_pos hempty]
  · rw [if_neg hheader, if_neg (fun h => hheader h.1), fallbackDecode_engine]

theorem decompressRawOp_engine (inB : Nat → Byte) {n : Nat} (e : Engine) (hn : n ≠ 0) :
    (decompressRawOp inB n e).2 = Engine.decode inB .headerless 0 n e := by
  rw [decompressRawOp, if_neg hn]

theorem decompressOp_withCompressorOf (policy : HdrPolicy) (inB : Nat → Byte) (n : Nat) (e : Engine) :
    (decompressOp policy inB n e).2.withCompressorOf e = (decompressOp policy inB n e).2 := by
  by_cases hn : n = 0
  · subst hn; rfl
  · rw [decompressOp_engine policy inB e hn]
    split <;> exact Engine.decode_withCompressorOf _ _ _ _ e

theorem decompressRawOp_withCompressorOf (inB : Nat → Byte) (n : Nat) (e : Engine) :
    (decompressRawOp inB n e).2.withCompressorOf e = (decompressRawOp inB n e).2 := by
  by_cases hn : n = 0
  · subst hn; rfl
  · rw [decompressRawOp_engine inB e hn]
    exact Engine.decode_withCompressorOf _ _ _ _ e

/-- Settles O31 (R36, R45): while IDLE nothing changes, and while BUSY the operation keeps the compressor's registers. -/
theorem decodingLeavesCompressorState : Obligations.DecodingLeavesCompressorState := by
  unfold Obligations.DecodingLeavesCompressorState
  intro i s t hi hexec
  suffices h : t.engine.withCompressorOf s.engine = t.engine by
    rw [← h]
    exact ⟨rfl, rfl, rfl, rfl⟩
  cases hphase : s.phase with
  | idle => obtain rfl | rfl := hi <;> simp only [exec, execDecompress, execDecompressRaw, hphase] at hexec <;> cases hexec <;> rfl
  | busy code n =>
    obtain rfl | rfl := hi
    · rw [exec_decompress_of_busy hphase] at hexec
      cases hexec
      rw [State.finish_engine, decompressOp_withCompressorOf]
    · rw [exec_decompressRaw_of_busy hphase] at hexec
      cases hexec
      rw [State.finish_engine, decompressRawOp_withCompressorOf]

/-! ## The round trip as commands (R119, R120) -/

/-- The stream of an input that is not empty is not empty. -/
theorem compressBytes_ne_nil {maxDist : Nat} {b : List Byte} (hmin : 1 ≤ maxDist) (hmax : maxDist ≤ 4096) (hb : b ≠ []) :
    compressBytes maxDist b ≠ [] := by
  intro hempty
  have hround := decodeInvertsCompress maxDist b hmin hmax
  rw [hempty] at hround
  exact hb (hround.symm.trans (by decide))

/-- Settles O22 (R119): DECOMPRESS_RAW sees exactly the stream that COMPRESS committed. -/
theorem compressThenRawRestoresInput : Obligations.CompressThenRawRestoresInput := by
  unfold Obligations.CompressThenRawRestoresInput
  rintro s s2 t n ⟨-, -, -, -, hmin, hmax⟩ hphase hn hexec herr hphase2 hcopy hcap
  rw [exec_compress_of_busy hphase] at hexec
  cases hexec
  obtain ⟨hfits, hover⟩ := State.endsWith_of_result (s := s)
    (compressOp_result s.inByte n s.cfg.maxDist (Config.freeTree s.draws) s.engine)
  generalize s.finish _ = t at *
  have hcommitted : (compressBytes s.cfg.maxDist (inputBytes s.inByte 0 n)).length ≤ s.cfg.outCap := by
    by_contra hlong
    rw [hover (Nat.not_le.1 hlong)] at herr
    cases herr
  obtain ⟨ht, -, hbytes⟩ := hfits hcommitted
  have hlen : t.outLen = (compressBytes s.cfg.maxDist (inputBytes s.inByte 0 n)).length := by rw [ht]
  have hne := compressBytes_ne_nil hmin hmax (b := inputBytes s.inByte 0 n)
    (List.ne_nil_of_length_pos (by rw [length_inputBytes]; omega))
  have hstream : inputBytes s2.inByte 0 t.outLen = compressBytes s.cfg.maxDist (inputBytes s.inByte 0 n) :=
    eq_of_getD_eq (by rw [length_inputBytes, hlen]) fun k hk => by
      rw [getD_inputBytes _ _ _ (by omega), Nat.zero_add, State.inByte, hcopy k (by omega), hbytes k hk,
        List.getD_eq_getElem _ _ hk]
  have hresult := decompressRawOp_result s2.inByte t.outLen s2.engine
  rw [if_neg (by rw [hlen]; exact fun h => hne (List.length_eq_zero_iff.mp h)), hstream,
    decodeInvertsCompress _ _ hmin hmax] at hresult
  obtain ⟨hfits2, -⟩ := State.endsWith_of_result (s := s2) hresult
  obtain ⟨ht2, -, hbytes2⟩ := hfits2 (by rwa [length_inputBytes])
  refine ⟨_, exec_decompressRaw_of_busy hphase2, by rw [ht2], by rw [ht2]; rfl, by rw [ht2, length_inputBytes],
    fun i hi => ?_⟩
  have hi' : i < (inputBytes s.inByte 0 n).length := by rwa [length_inputBytes]
  rw [hbytes2 i hi', ← List.getD_eq_getElem _ 0#8 hi', getD_inputBytes _ _ _ hi, Nat.zero_add]
  rfl

/-- A part of a list as input bytes. -/
theorem inputBytes_eq_take_drop (s : List Byte) {i m : Nat} (h : i + m ≤ s.length) :
    inputBytes (fun k => s.getD k 0#8) i m = (s.drop i).take m := by
  refine eq_of_getD_eq (by rw [length_inputBytes, List.length_take, List.length_drop]; omega) fun k hk => ?_
  rw [List.length_take, List.length_drop] at hk
  rw [getD_inputBytes _ _ _ (by omega), List.getD_eq_getElem?_getD, List.getD_eq_getElem?_getD,
    List.getElem?_take_of_lt (by omega), List.getElem?_drop]

/-- Settles O23 (R120), by the two readings of R93. -/
theorem decompressRoundTripCondition : Obligations.DecompressRoundTripCondition := by
  unfold Obligations.DecompressRoundTripCondition
  intro maxDist b s o1 policy e hmin hmax hb hs ho1
  have hraw : decodeBytes (inputBytes (fun i => s.getD i 0#8) 0 s.length) = b := by
    rw [inputBytes_getD, hs, decodeInvertsCompress _ _ hmin hmax]
  have hne : s.length ≠ 0 := fun h => compressBytes_ne_nil hmin hmax hb (by rw [← hs]; exact List.length_eq_zero_iff.mp h)
  rw [decompressOp_result, if_neg hne, hraw, if_neg hb]
  have htakes : takesHeader policy (fun i => s.getD i 0#8) s.length = true ↔
      ¬ s.length < 4 ∧ ¬ headerAccept policy (headerSize fun i => s.getD i 0#8).toNat s.length = false := by
    rw [takesHeader, Bool.and_eq_true, decide_eq_true_eq, Bool.not_eq_false, Nat.not_lt]
  by_cases hheader : takesHeader policy (fun i => s.getD i 0#8) s.length = true
  · obtain ⟨hlong, haccept⟩ := htakes.mp hheader
    have hout : headerOutput (fun i => s.getD i 0#8) = o1 := by
      rw [headerOutput, inputBytes_eq_take_drop s (le_of_takesHeader hheader).2, ← ho1]
    simp only [hheader, true_and, hout, hlong, haccept, false_or]
    by_cases hempty : o1 = []
    · simp [hempty]
    · simp [hempty]
  · have hreject : s.length < 4 ∨ headerAccept policy (headerSize fun i => s.getD i 0#8).toNat s.length = false := by
      rw [htakes] at hheader
      tauto
    rw [if_neg (fun h => hheader h.1)]
    exact iff_of_true ⟨_, rfl⟩ (by tauto)

end Sys2Proof.Machine
end

section
/-! The windows (spec/20_memory.md R50, spec/42_control.md R128, R129): little-endian values of a run of bytes, and the
window accesses in each phase. -/

namespace Sys2Proof.Machine

open Sys2Proof

/-! ## The accesses by phase -/

section
variable {s : State} (i : Nat) (w : Width)

theorem exec_inWindowWrite_of_idle (v : Word) (h : s.phase = .idle) :
    exec (.inWindowAccess (.write v) i w) s = .next { s with inBuf := s.inBuf.writeBytes i (dataBytes w v) } := by
  simp only [exec, execInWindowAccess, h]

theorem exec_outWindowRead_of_idle (h : s.phase = .idle) :
    exec (.outWindowRead i w) s = .next (s.answer (assemble (s.outBuf.readBytes i w.bytes))) := by
  simp only [exec, execOutWindowRead, h]

theorem exec_outWindowRead_of_busy {code : Word} {n : Nat} (h : s.phase = .busy code n) :
    exec (.outWindowRead i w) s =
      .next { s.answer (assemble ((Memory.blank (.drawn s.draws)).readBytes i w.bytes)) with draws := s.draws + 1 } := by
  simp only [exec, execOutWindowRead, h]

end

/-! ## Little-endian values (R50) -/

/-- Byte `k` of an assembled value is the `k`-th byte of the run; above the run it is 0. -/
theorem extractLsb'_assemble (bs : List Byte) {k : Nat} (hk : k < 4) :
    (assemble bs).extractLsb' (8 * k) 8 = bs.getD k 0#8 := by
  induction bs generalizing k with
  | nil => simp [assemble]
  | cons b rest ih =>
    apply BitVec.eq_of_getLsbD_eq
    intro j hj
    have hin : 8 * k + j < 32 := by omega
    rw [BitVec.getLsbD_extractLsb', decide_eq_true hj, Bool.true_and, assemble, BitVec.getLsbD_or,
      BitVec.getLsbD_shiftLeft, BitVec.getLsbD_setWidth, decide_eq_true hin, Bool.true_and, Bool.true_and]
    cases k with
    | zero => simp [hj]
    | succ k =>
      have hbyte := congrArg (fun x : Byte => x.getLsbD j) (ih (k := k) (by omega))
      simp only [BitVec.getLsbD_extractLsb', hj, decide_true, Bool.true_and] at hbyte
      have habove : b.getLsbD (8 * (k + 1) + j) = false := BitVec.getLsbD_of_ge _ _ (by omega)
      rw [decide_eq_false (by omega), habove, List.getD_cons_succ, ← hbyte, Bool.not_false, Bool.true_and, Bool.or_false]
      congr 1
      omega

/-- Byte `k` of a window read (R128, R129). -/
theorem extractLsb'_assemble_readBytes (m : Memory) (i : Nat) (w : Width) {k : Nat} (hk : k < 4) :
    (assemble (m.readBytes i w.bytes)).extractLsb' (8 * k) 8 = if k < w.bytes then m.read (i + k) else 0#8 := by
  rw [extractLsb'_assemble _ hk, Memory.readBytes_eq_inputBytes]
  split
  next hin => exact getD_inputBytes _ _ _ hin
  next hout => exact List.getD_eq_default _ _ (by rw [length_inputBytes]; omega)

@[simp] theorem length_dataBytes (w : Width) (v : Word) : (dataBytes w v).length = w.bytes := by
  cases w <;> rfl

theorem getElem_dataBytes (w : Width) (v : Word) {k : Nat} (hk : k < (dataBytes w v).length) :
    (dataBytes w v)[k] = v.extractLsb' (8 * k) 8 := by
  have hfour : k < 4 := by
    rw [length_dataBytes] at hk
    cases w <;> simp only [Width.bytes] at hk <;> omega
  simp only [dataBytes, List.getElem_take]
  obtain rfl | rfl | rfl | rfl : k = 0 ∨ k = 1 ∨ k = 2 ∨ k = 3 := by omega
  all_goals rfl

/-- Settles O38 (R50, R128). -/
theorem inWindowAccessIsLittleEndian : Obligations.InWindowAccessIsLittleEndian := by
  unfold Obligations.InWindowAccessIsLittleEndian
  intro i w s _
  refine ⟨⟨_, rfl, rfl, fun k hk => extractLsb'_assemble_readBytes _ _ _ hk⟩, fun v hidle =>
    ⟨_, exec_inWindowWrite_of_idle i w v hidle, rfl, fun a => ?_⟩,
    fun v c n hbusy => exec_of_refusedWhileBusy rfl (s.busy_of_busy c n hbusy)⟩
  simp only [Memory.read_writeBytes, length_dataBytes, getElem_dataBytes]
  split <;> rfl

/-- The OUT window is read-only: the decoder rejects every write to it (R129). -/
theorem decodeWrite_outWindow_error {cfg : Config} {busy : Bool} {i : Nat} (hi : i < capMax) (w : Width) (v : Word) :
    ∃ r, decodeWrite cfg busy (BitVec.ofNat 32 (outBase + i)) w v = .error r := by
  rw [decodeWrite, regionOf_outAddr hi]
  cases hwindow : decodeWindow cfg.outCap i w with
  | error r => exact ⟨r, by simp only [hwindow]; rfl⟩
  | ok _ => exact ⟨.readOnly, by simp only [hwindow]; rfl⟩

/-- Settles O39 (R50, R129). -/
theorem outWindowIsReadOnly : Obligations.OutWindowIsReadOnly := by
  unfold Obligations.OutWindowIsReadOnly
  rintro i w s ⟨-, -, -, hcap, -⟩ hfits
  refine ⟨fun hidle => ⟨_, exec_outWindowRead_of_idle i w hidle, rfl, fun k hk => extractLsb'_assemble_readBytes _ _ _ hk⟩,
    fun c n hbusy => ⟨_, exec_outWindowRead_of_busy i w hbusy, rfl⟩, fun v rest => ?_⟩
  have hi : i < capMax := (windowFits_lt hfits).trans_le hcap
  have haddr : (BitVec.ofNat 32 (outBase + i)).toNat = 0x02000000 + i := by
    simp only [capMax, outBase] at *
    rw [BitVec.toNat_ofNat, Nat.mod_eq_of_lt (by omega)]
  have hstep := step_write_of_error (s := s) (rest := rest) (decodeWrite_outWindow_error (cfg := s.cfg) (busy := s.busy) hi w v)
  rwa [haddr, ← Nat.add_assoc] at hstep

end Sys2Proof.Machine
end

section
/-! What an instruction and a step can do (spec/10_state.md R16, spec/20_memory.md R57, spec/42_control.md R132,
spec/70_reset_and_hazards.md R150 to R152): one inversion lemma for `exec`, and from it what changes PHASE, IN, IN_LEN and
the parameters. -/

namespace Sys2Proof

/-- The engine's commands (R76, R77). -/
def Instr.IsCommand (i : Instr) : Prop :=
  i = .decompress ∨ i = .decompressRaw ∨ i = .compress ∨ ∃ code, i = .badCommand code

/-- The instructions of an engine turn: the stream units and the commands. -/
def Instr.ofEngine : Instr → Bool
  | .flag _ | .lit _ | .ref _ _ | .hdr _ | .decompress | .decompressRaw | .compress | .badCommand _ => true
  | _ => false

/-- The host's writes to IN and IN_LEN (R127, R128). -/
def Instr.writesInput : Instr → Bool
  | .inLenWrite _ => true
  | .inWindowAccess (.write _) _ _ => true
  | _ => false

theorem Instr.ofEngine_of_writesInput {i : Instr} (h : i.writesInput = true) : i.ofEngine = false := by
  unfold Instr.writesInput at h
  split at h
  · rfl
  · rfl
  · cases h

theorem isCommand_decodeCommand (w : Word) : (decodeCommand w).IsCommand := by
  obtain ⟨-, h⟩ | ⟨-, h⟩ | ⟨-, h⟩ | ⟨-, -, -, h⟩ := Machine.decodeCommand_cases w <;> rw [h]
  · exact .inl rfl
  · exact .inr (.inl rfl)
  · exact .inr (.inr (.inl rfl))
  · exact .inr (.inr (.inr ⟨w, rfl⟩))

theorem Instr.IsCommand.ofEngine {i : Instr} (h : i.IsCommand) : i.ofEngine = true := by
  obtain rfl | rfl | rfl | ⟨code, rfl⟩ := h <;> rfl

end Sys2Proof

namespace Sys2Proof.Machine

open Sys2Proof

/-! ## What an instruction can do -/

/-- The effects an instruction can have: a reset, the completion of a command, the acceptance of one, a host write to IN or
IN_LEN while IDLE, or one that leaves PHASE, IN, IN_LEN, OUT_LEN and the parameters alone. -/
inductive ExecEffect (i : Instr) (s : State) : State → Prop
  | reset (v : Word) (h : i = .softReset v ∨ i = .ctrlWrite v ∧ srstBit v = true) : ExecEffect i s s.toReset
  | complete (h : i.IsCommand) (hbusy : s.busy = true) (r : Result × Engine) : ExecEffect i s (s.finish r)
  | accept (v : Word) (h : i = .cmdWriteAccepted v ∨ i = .cmdWriteRefused v) (hidle : s.phase = .idle) :
      ExecEffect i s (s.accept v)
  | input (h : i.writesInput = true) (hidle : s.phase = .idle) (m : Memory) (len : Nat) :
      ExecEffect i s { s with inBuf := m, inLen := len }
  | other (ie : Bool) (st : Status) (out : Memory) (e : Engine) (rd : Word) (dr : Nat) :
      ExecEffect i s { s with ie := ie, status := st, outBuf := out, engine := e, rdata := rd, draws := dr }

/-- An instruction that changes nothing has no effect beyond those. -/
theorem ExecEffect.none (i : Instr) (s : State) : ExecEffect i s s :=
  .other s.ie s.status s.outBuf s.engine s.rdata s.draws

theorem ExecEffect.refuse (i : Instr) (s : State) : ExecEffect i s s.refuse :=
  .other s.ie s.status.onRefused s.outBuf s.engine s.rdata s.draws

theorem exec_of_isCommand_of_idle {i : Instr} {s : State} (hi : i.IsCommand) (h : s.phase = .idle) :
    exec i s = .next s := by
  obtain rfl | rfl | rfl | ⟨code, rfl⟩ := hi <;>
    simp only [exec, execDecompress, execDecompressRaw, execCompress, execBadCommand, h]

/-- A command while BUSY completes with a result (R83). -/
theorem exec_of_isCommand_of_busy {i : Instr} {s : State} (hi : i.IsCommand) {code : Word} {n : Nat}
    (h : s.phase = .busy code n) : ∃ r, exec i s = .next (s.finish r) := by
  obtain rfl | rfl | rfl | ⟨c, rfl⟩ := hi
  · exact ⟨_, exec_decompress_of_busy h⟩
  · exact ⟨_, exec_decompressRaw_of_busy h⟩
  · exact ⟨_, exec_compress_of_busy h⟩
  · exact ⟨(.err .badCommand, s.engine), exec_badCommand_of_busy c h⟩

theorem exec_effect_of_isCommand {i : Instr} (s : State) (hi : i.IsCommand) :
    ∃ t, exec i s = .next t ∧ ExecEffect i s t := by
  cases h : s.phase with
  | idle => exact ⟨s, exec_of_isCommand_of_idle hi h, .none i s⟩
  | busy code n =>
    obtain ⟨r, hr⟩ := exec_of_isCommand_of_busy hi h
    exact ⟨_, hr, .complete hi (s.busy_of_busy code n h) r⟩

/-- A CMD write is accepted while IDLE and refused while BUSY (R122, R123). -/
theorem exec_effect_of_cmdWrite {i : Instr} (s : State) {v : Word} (hi : i = .cmdWriteAccepted v ∨ i = .cmdWriteRefused v) :
    ∃ t, exec i s = .next t ∧ ExecEffect i s t := by
  cases h : s.phase with
  | idle =>
    refine ⟨s.accept v, ?_, .accept v hi h⟩
    obtain rfl | rfl := hi <;> simp only [exec, execCmdWriteAccepted, execCmdWriteRefused, h]
  | busy code n =>
    refine ⟨s.refuse, ?_, .refuse i s⟩
    obtain rfl | rfl := hi <;> simp only [exec, execCmdWriteAccepted, execCmdWriteRefused, h]

/-- Every instruction has a next state, and one of the effects (R133, R141). -/
theorem exec_effect (i : Instr) (s : State) : ∃ t, exec i s = .next t ∧ ExecEffect i s t := by
  cases i with
  | flag f => exact ⟨_, rfl, .other s.ie s.status s.outBuf _ s.rdata s.draws⟩
  | lit _ | ref _ _ => exact ⟨_, rfl, .other s.ie s.status _ _ s.rdata s.draws⟩
  | hdr size =>
    cases h : s.phase with
    | idle => exact ⟨s, by simp only [exec, execHdr, h], .none _ s⟩
    | busy code n => exact ⟨_, exec_hdr_of_busy size h, .other s.ie s.status s.outBuf _ s.rdata s.draws⟩
  | decompress => exact exec_effect_of_isCommand s (.inl rfl)
  | decompressRaw => exact exec_effect_of_isCommand s (.inr (.inl rfl))
  | compress => exact exec_effect_of_isCommand s (.inr (.inr (.inl rfl)))
  | badCommand code => exact exec_effect_of_isCommand s (.inr (.inr (.inr ⟨code, rfl⟩)))
  | cmdWriteAccepted v => exact exec_effect_of_cmdWrite s (.inl rfl)
  | cmdWriteRefused v => exact exec_effect_of_cmdWrite s (.inr rfl)
  | ctrlWrite v =>
    cases h : srstBit v with
    | false => exact ⟨_, exec_ctrlWrite_of_not_srst s h, .other _ s.status s.outBuf s.engine s.rdata s.draws⟩
    | true => exact ⟨_, exec_ctrlWrite_of_srst s h, .reset v (.inr ⟨rfl, h⟩)⟩
  | softReset v => exact ⟨_, rfl, .reset v (.inl rfl)⟩
  | statusWrite v => exact ⟨_, rfl, .other s.ie _ s.outBuf s.engine s.rdata s.draws⟩
  | inLenWrite v =>
    cases h : s.phase with
    | idle => exact ⟨_, exec_inLenWrite_of_idle v h, .input rfl h s.inBuf _⟩
    | busy code n => exact ⟨_, exec_of_refusedWhileBusy rfl (s.busy_of_busy code n h), .refuse _ s⟩
  | inWindowAccess op j w =>
    cases op with
    | read => exact ⟨_, rfl, .other s.ie s.status s.outBuf s.engine _ s.draws⟩
    | write v =>
      cases h : s.phase with
      | idle => exact ⟨_, exec_inWindowWrite_of_idle j w v h, .input rfl h _ s.inLen⟩
      | busy code n => exact ⟨_, exec_of_refusedWhileBusy rfl (s.busy_of_busy code n h), .refuse _ s⟩
  | outWindowRead j w =>
    cases h : s.phase with
    | idle => exact ⟨_, exec_outWindowRead_of_idle j w h, .other s.ie s.status s.outBuf s.engine _ s.draws⟩
    | busy code n => exact ⟨_, exec_outWindowRead_of_busy j w h, .other s.ie s.status s.outBuf s.engine _ _⟩
  | registerRead r => exact ⟨_, rfl, .other s.ie s.status s.outBuf s.engine _ s.draws⟩

theorem execEffect_of_exec {i : Instr} {s t : State} (h : exec i s = .next t) : ExecEffect i s t := by
  obtain ⟨t', h', heffect⟩ := exec_effect i s
  rw [h] at h'
  cases h'
  exact heffect

/-- Settles O43 (R133, R141, R147). -/
theorem everyStepAnswersNext : Obligations.EveryStepAnswersNext := by
  unfold Obligations.EveryStepAnswersNext
  intro s
  cases hf : fetch s with
  | run i s1 =>
    obtain ⟨t, ht, -⟩ := exec_effect i s1
    exact ⟨t, (step_of_run s s1 i hf).trans ht⟩
  | quiet t => exact ⟨t, step_of_quiet s t hf⟩

/-! ## What a step can do -/

/-- `s1` differs from `s` at most as a fetch other than a hard reset leaves it. -/
def State.FetchedFrom (s1 s : State) : Prop :=
  s1 = { s with pending := s1.pending, engine := s1.engine, rdata := s1.rdata }

/-- All a step can do: reset, take the quiet effect of its event, or run an instruction from what it fetched. -/
theorem step_effect {s t : State} (h : step s = .next t) :
    (s.hardResetNext = true ∧ ∃ s1 : State, s1.cfg = s.cfg ∧ t = s1.toReset) ∨
    (s.hardResetNext = false ∧ t.FetchedFrom s) ∨
    (s.hardResetNext = false ∧ ∃ i s1, s.nextInstr = some i ∧ fetch s = .run i s1 ∧ s1.FetchedFrom s ∧
      i.wellFormed s.cfg = true ∧ i.admitsPhase s.busy = true ∧ ExecEffect i s1 t) := by
  cases hr : s.hardResetNext with
  | true =>
    obtain ⟨rest, hp⟩ : ∃ rest, s.pending = .hardReset :: rest := by
      unfold State.hardResetNext at hr
      split at hr <;> simp_all
    have hfetch : fetch s = .quiet ({ s with pending := rest }).toReset := by simp only [fetch, hp, State.fetchEvent]
    rw [step_of_quiet s _ hfetch] at h
    cases h
    exact .inl ⟨rfl, { s with pending := rest }, rfl, rfl⟩
  | false =>
    have hframe := fetch_frameOf hr
    obtain ⟨htrue, -⟩ | ⟨-, hsound⟩ := fetch_hardReset_or_soundFor s
    · rw [hr] at htrue
      cases htrue
    · obtain ⟨i, s1, hf, hexec⟩ | hf := step_cases s t h <;> rw [hf] at hsound hframe
      · obtain ⟨hwf, hphase, -, -⟩ := hsound
        exact .inr (.inr ⟨rfl, i, s1, State.nextInstr_of_run hf, hf, hframe, hwf, hphase, execEffect_of_exec hexec⟩)
      · exact .inr (.inl ⟨rfl, hframe⟩)

section
variable {s s1 : State}

theorem State.FetchedFrom.phase (h : s1.FetchedFrom s) : s1.phase = s.phase := by rw [h]
theorem State.FetchedFrom.inBuf (h : s1.FetchedFrom s) : s1.inBuf = s.inBuf := by rw [h]
theorem State.FetchedFrom.inLen (h : s1.FetchedFrom s) : s1.inLen = s.inLen := by rw [h]
theorem State.FetchedFrom.cfg (h : s1.FetchedFrom s) : s1.cfg = s.cfg := by rw [h]

end

/-- Completing a command leaves IN, IN_LEN, IE, the parameters and the event list, and sets IDLE and DONE (R83, R136). -/
theorem State.finish_frame (s : State) (r : Result × Engine) :
    (s.finish r).phase = .idle ∧ (s.finish r).status.done = true ∧ (s.finish r).inBuf = s.inBuf ∧
      (s.finish r).inLen = s.inLen ∧ (s.finish r).cfg = s.cfg ∧ (s.finish r).pending = s.pending := by
  unfold State.finish
  obtain ⟨bs, p, -, -, h⟩ | ⟨bs, p, -, -, h⟩ | ⟨k, -, h⟩ := State.complete_cases { s with engine := r.2 } r.1 <;>
    rw [h] <;> exact ⟨rfl, rfl, rfl, rfl, rfl, rfl⟩

/-- No instruction changes the parameters (R7, R15). -/
theorem ExecEffect.cfg {i : Instr} {s t : State} (h : ExecEffect i s t) : t.cfg = s.cfg := by
  cases h with
  | complete _ _ r =>
    obtain ⟨-, -, -, -, hcfg, -⟩ := s.finish_frame r
    exact hcfg
  | reset | accept | input | other => rfl

/-- While BUSY only a reset changes IN or IN_LEN, and PHASE changes only by a completion besides (R57). -/
theorem ExecEffect.of_busy {i : Instr} {s t : State} (h : ExecEffect i s t) (hbusy : s.busy = true) :
    (∃ v, i = .softReset v ∨ i = .ctrlWrite v ∧ srstBit v = true) ∧ t.phase = .idle ∨
    t.inBuf = s.inBuf ∧ t.inLen = s.inLen ∧ (t.phase = s.phase ∨ i.IsCommand ∧ t.phase = .idle) := by
  cases h with
  | reset v hi => exact .inl ⟨⟨v, hi⟩, rfl⟩
  | complete hi _ r =>
    obtain ⟨hphase, -, hin, hlen, -, -⟩ := s.finish_frame r
    exact .inr ⟨hin, hlen, .inr ⟨hi, hphase⟩⟩
  | accept v _ hidle => rw [s.busy_of_idle hidle] at hbusy; cases hbusy
  | input _ hidle => rw [s.busy_of_idle hidle] at hbusy; cases hbusy
  | other => exact .inr ⟨rfl, rfl, .inl rfl⟩

/-- While IDLE PHASE changes only by the acceptance of a command (R122). -/
theorem ExecEffect.of_idle {i : Instr} {s t : State} (h : ExecEffect i s t) (hidle : s.phase = .idle) :
    t.phase = .idle ∨
      ∃ v, (i = .cmdWriteAccepted v ∨ i = .cmdWriteRefused v) ∧ t.phase = .busy v s.inLen := by
  cases h with
  | reset => exact .inl rfl
  | complete _ hbusy => rw [s.busy_of_idle hidle] at hbusy; cases hbusy
  | accept v hi => exact .inr ⟨v, hi, rfl⟩
  | input | other => exact .inl hidle

/-- An instruction of an engine turn leaves IN and IN_LEN alone (R16). -/
theorem ExecEffect.of_ofEngine {i : Instr} {s t : State} (h : ExecEffect i s t) (hi : i.ofEngine = true) :
    t.inBuf = s.inBuf ∧ t.inLen = s.inLen := by
  cases h with
  | reset v hreset => obtain rfl | ⟨rfl, -⟩ := hreset <;> cases hi
  | complete _ _ r =>
    obtain ⟨-, -, hin, hlen, -, -⟩ := s.finish_frame r
    exact ⟨hin, hlen⟩
  | accept | other => exact ⟨rfl, rfl⟩
  | input hwrites => rw [Instr.ofEngine_of_writesInput hwrites] at hi; cases hi

/-- The CTRL write that resets is read as SOFT_RESET (R124, R125). -/
theorem softReset_of_wellFormed {cfg : Config} {i : Instr} (hwf : i.wellFormed cfg = true)
    (h : ∃ v, i = .softReset v ∨ i = .ctrlWrite v ∧ srstBit v = true) : ∃ v, i = .softReset v := by
  obtain ⟨v, hi | ⟨rfl, hv⟩⟩ := h
  · exact ⟨v, hi⟩
  · simp [Instr.wellFormed, hv] at hwf

/-- Settles O55 (R7, R15). -/
theorem parametersNeverChange : Obligations.ParametersNeverChange := by
  unfold Obligations.ParametersNeverChange
  intro s t h
  obtain ⟨-, s1, hcfg, rfl⟩ | ⟨-, hquiet⟩ | ⟨-, i, s1, -, -, hfrom, -, -, heffect⟩ := step_effect h
  · exact hcfg
  · exact hquiet.cfg
  · exact heffect.cfg.trans hfrom.cfg

/-- From a BUSY state short of a reset, IN and IN_LEN stay, and PHASE stays or a command completes (R57, R132). -/
theorem step_of_busy {s t : State} (hbusy : s.busy = true) (hreset : ¬ s.resetNext) (h : step s = .next t) :
    t.inBuf = s.inBuf ∧ t.inLen = s.inLen ∧ (t.phase = s.phase ∨ s.commandNext ∧ t.phase = .idle) := by
  obtain ⟨hr, -⟩ | ⟨-, hquiet⟩ | ⟨-, i, s1, hn, -, hfrom, hwf, -, heffect⟩ := step_effect h
  · exact absurd (.inl hr) hreset
  · exact ⟨hquiet.inBuf, hquiet.inLen, .inl hquiet.phase⟩
  · have hbusy1 : s1.busy = true := by rw [State.busy_eq_true_iff, hfrom.phase, ← State.busy_eq_true_iff, hbusy]
    obtain ⟨hi, -⟩ | ⟨hin, hlen, hphase⟩ := heffect.of_busy hbusy1
    · obtain ⟨v, rfl⟩ := softReset_of_wellFormed hwf hi
      exact absurd (.inr ⟨v, hn⟩) hreset
    · refine ⟨hin.trans hfrom.inBuf, hlen.trans hfrom.inLen, hphase.imp (·.trans hfrom.phase) fun ⟨hi, hidle⟩ => ⟨?_, hidle⟩⟩
      simpa only [State.commandNext, hn, Option.some.injEq, Instr.IsCommand] using hi

/-- Settles O51 (R57). -/
theorem busyInputIsFrozen : Obligations.BusyInputIsFrozen := by
  unfold Obligations.BusyInputIsFrozen
  intro s t hbusy hreset h
  obtain ⟨hin, hlen, hphase⟩ := step_of_busy hbusy hreset h
  exact ⟨hin, hlen, hphase.imp_right And.right⟩

/-- A reset of either source leaves the block IDLE (R40, R151). -/
theorem phase_of_resetNext {s t : State} (hreset : s.resetNext) (h : step s = .next t) : t.phase = .idle := by
  obtain ⟨-, s1, -, rfl⟩ | ⟨hr, -⟩ | ⟨hr, i, s1, hn, hf, -, -, -, -⟩ := step_effect h
  · rfl
  · obtain hhard | ⟨v, hsoft⟩ := hreset
    · rw [hr] at hhard; cases hhard
    · obtain ⟨i, s1, hf, hexec⟩ | hf := step_cases s t h
      · rw [State.nextInstr_of_run hf] at hsoft; cases hsoft; cases hexec; rfl
      · rw [State.nextInstr_of_quiet hf] at hsoft; cases hsoft
  · obtain hhard | ⟨v, hsoft⟩ := hreset
    · rw [hr] at hhard; cases hhard
    · rw [hn] at hsoft
      cases hsoft
      rw [step_of_run s s1 _ hf] at h
      cases h
      rfl

/-- From an IDLE state PHASE changes only by an accepted CMD write (R122, R132). -/
theorem step_of_idle {s t : State} (hidle : s.phase = .idle) (h : step s = .next t) :
    t.phase = .idle ∨ ∃ v, s.nextInstr = some (.cmdWriteAccepted v) ∧ t.phase = .busy v s.inLen := by
  obtain ⟨-, s1, -, rfl⟩ | ⟨-, hquiet⟩ | ⟨-, i, s1, hn, -, hfrom, -, hadmits, heffect⟩ := step_effect h
  · exact .inl rfl
  · exact .inl (hquiet.phase.trans hidle)
  · obtain hphase | ⟨v, rfl | rfl, hphase⟩ := heffect.of_idle (hfrom.phase.trans hidle)
    · exact .inl hphase
    · exact .inr ⟨v, hn, by rw [hphase, hfrom.inLen]⟩
    · rw [s.busy_of_idle hidle] at hadmits
      cases hadmits

/-- Settles O50 (R132), by the phase before the step. -/
theorem phaseChangesOnlyThreeWays : Obligations.PhaseChangesOnlyThreeWays := by
  unfold Obligations.PhaseChangesOnlyThreeWays
  intro s t h
  refine ⟨fun hne => ?_, fun hbusy hin => ?_⟩
  · by_cases hreset : s.resetNext
    · exact .inr (.inr ⟨phase_of_resetNext hreset h, hreset⟩)
    · by_cases hidle : s.phase = .idle
      · obtain hphase | ⟨v, hn, hphase⟩ := step_of_idle hidle h
        · exact absurd (hphase.trans hidle.symm) hne
        · exact .inl ⟨hidle, v, hn, hphase⟩
      · have hbusy : s.busy = true := s.busy_eq_true_iff.mpr hidle
        obtain ⟨-, -, hphase | ⟨hcommand, hphase⟩⟩ := step_of_busy hbusy hreset h
        · exact absurd hphase hne
        · exact .inr (.inl ⟨hbusy, hphase, hcommand⟩)
  · by_contra hreset
    exact hin (step_of_busy hbusy hreset h).1

/-! ## Engine turns (R16, R83, R150) -/

theorem State.fetchCommand_ofEngine {s s1 : State} {i : Instr} (h : s.fetchCommand = .run i s1) : i.ofEngine = true := by
  obtain ⟨code, n, -, hf⟩ | ⟨-, hf⟩ := s.fetchCommand_cases <;> rw [hf] at h <;> cases h
  exact (isCommand_decodeCommand code).ofEngine

theorem State.fetchUnit_ofEngine {s s1 : State} {i : Instr} (h : s.fetchUnit = .run i s1) : i.ofEngine = true := by
  unfold State.fetchUnit at h
  split at h
  · cases h
  · next code n _ =>
    have hcommand := (isCommand_decodeCommand code).ofEngine
    split at h
    · split_ifs at h <;> cases h
      · rfl
      · rfl
      · exact hcommand
    · cases h; rfl
    · split_ifs at h <;> cases h <;> rfl
    · split_ifs at h <;> cases h
      · rfl
      · exact hcommand

/-- Settles O52 (R16). -/
theorem engineNeverWritesInput : Obligations.EngineNeverWritesInput := by
  unfold Obligations.EngineNeverWritesInput
  intro s t rest hpending h
  obtain ⟨hr, -⟩ | ⟨-, hquiet⟩ | ⟨-, i, s1, -, hf, hfrom, -, -, heffect⟩ := step_effect h
  · obtain hp | hp | hp := hpending <;> simp [State.hardResetNext, hp] at hr
  · exact ⟨hquiet.inBuf, hquiet.inLen⟩
  · have hengine : i.ofEngine = true := by
      obtain hp | hp | hp := hpending <;> simp only [fetch, hp, State.fetchEvent] at hf
      · exact State.fetchCommand_ofEngine hf
      · exact State.fetchUnit_ofEngine hf
      · exact State.fetchCommand_ofEngine hf
    obtain ⟨hin, hlen⟩ := heffect.of_ofEngine hengine
    exact ⟨hin.trans hfrom.inBuf, hlen.trans hfrom.inLen⟩

theorem fetch_command {s : State} {rest : List Event} {code : Word} {n : Nat} (h : s.phase = .busy code n) :
    fetch { s with pending := .command :: rest } = .run (decodeCommand code) { s with pending := rest } := by
  simp only [fetch, State.fetchEvent, State.fetchCommand, h]

theorem fetch_nothing_of_busy {s : State} {code : Word} {n : Nat} (h : s.phase = .busy code n) :
    fetch { s with pending := [] } = .run (decodeCommand code) { s with pending := [] } := by
  simp only [fetch, State.fetchCommand, h]

/-- The command step completes whatever the command word (R58, R83). -/
theorem exec_decodeCommand_completes {s : State} {code : Word} {n : Nat} (h : s.phase = .busy code n) (w : Word) :
    ∃ t, exec (decodeCommand w) s = .next t ∧ t.phase = .idle ∧ t.status.done = true ∧ t.pending = s.pending ∧
      t.irq = s.ie := by
  obtain ⟨r, hexec⟩ := exec_of_isCommand_of_busy (isCommand_decodeCommand w) h
  obtain ⟨hphase, hdone, -, -, -, hpending⟩ := s.finish_frame r
  exact ⟨_, hexec, hphase, hdone, hpending, s.irq_finish r⟩

/-- Settles O49 (R58, R83). -/
theorem engineTurnCompletesCommand : Obligations.EngineTurnCompletesCommand := by
  unfold Obligations.EngineTurnCompletesCommand
  intro s code n rest hphase
  rw [step_of_run _ _ _ (fetch_command hphase), step_of_run _ _ _ (fetch_nothing_of_busy hphase)]
  obtain ⟨t, hexec, hidle, hdone, -, hirq⟩ :=
    exec_decodeCommand_completes (s := { s with pending := [] }) (code := code) (n := n) hphase code
  exact ⟨exec_decodeCommand_completes (s := { s with pending := rest }) (code := code) (n := n) hphase code,
    t, hexec, hidle, hdone, hirq⟩

/-- Settles O48 (R150): an engine turn finds no command to run. -/
theorem idleBlockKeepsState : Obligations.IdleBlockKeepsState := by
  unfold Obligations.IdleBlockKeepsState
  intro s rest hidle
  refine ⟨step_of_quiet _ _ ?_, step_of_quiet _ _ ?_, step_of_quiet _ _ ?_⟩
  · simp only [fetch, State.fetchCommand, hidle]
  · simp only [fetch, State.fetchEvent, State.fetchCommand, hidle]
  · simp only [fetch, State.fetchEvent, State.fetchUnit, hidle]

/-! ## Resets (R40, R125, R151) -/

/-- STATUS = 0x0000_0000 (R40). -/
theorem Status.word_clear : Status.clear.word false = 0#32 := by decide

/-- Settles O35 (R40, R125): IN and OUT take the first two of the fresh draws. -/
theorem softResetGivesResetTable : Obligations.SoftResetGivesResetTable := by
  unfold Obligations.SoftResetGivesResetTable
  intro v s
  refine ⟨s.toReset, rfl, State.ctrlWord_eq _, Status.word_clear, rfl, rfl, rfl, rfl, s.draws, s.draws + 1, ?_⟩
  rw [State.toReset_draws, State.toReset_inBuf, State.toReset_outBuf]
  exact ⟨by omega, by omega, by omega, by omega, by omega, Memory.read_blank_drawn _, Memory.read_blank_drawn _⟩

/-- Settles O46 (R40, R153): each register of the reset table by evaluation. -/
theorem resetRegistersAreClear : Obligations.ResetRegistersAreClear := by
  unfold Obligations.ResetRegistersAreClear
  exact fun _ _ => ⟨State.ctrlWord_eq _, Status.word_clear, rfl, rfl, rfl, rfl⟩

/-- Settles O47 (R151, R152): both resets are `State.toReset`. -/
theorem hardResetEqualsSoftReset : Obligations.HardResetEqualsSoftReset := by
  unfold Obligations.HardResetEqualsSoftReset
  exact fun s _ rest => ⟨rfl, ({ s with pending := rest }).toReset, rfl, rfl, rfl, rfl, rfl, rfl, rfl⟩

end Sys2Proof.Machine
end

section
/-! The invariant (spec/10_state.md sections 2 to 6, spec/20_memory.md R45): the parts of it that the operations keep, then
what is fetched meets it, and every instruction keeps it. -/

namespace Sys2Proof

/-- The stream units FLAG, LIT and REF, which go on with a decode. -/
def Instr.isStreamUnit : Instr → Bool
  | .flag _ | .lit _ | .ref _ _ => true
  | _ => false

theorem Instr.IsCommand.isStreamUnit {i : Instr} (h : i.IsCommand) : i.isStreamUnit = false := by
  obtain rfl | rfl | rfl | ⟨code, rfl⟩ := h <;> rfl

/-- No host access is a stream unit: its encoding is no stream byte (R64 to R69). -/
theorem isStreamUnit_of_decodeAccess {cfg : Config} {busy : Bool} {a : Access} {i : Instr}
    (h : decodeAccess cfg busy a = .ok i) : i.isStreamUnit = false := by
  have hencode : encode i = .bus a := by
    cases a with
    | read addr w => exact encode_of_decodeRead h
    | write addr w v => exact encode_of_decodeWrite h
  cases i with
  | flag _ | lit _ | ref _ _ => cases hencode
  | _ => rfl

end Sys2Proof

namespace Sys2Proof.Machine

open Sys2Proof

/-! ## The working registers -/

/-- The clauses of the invariant on the working registers (R26, R29, R31, R35, R45). -/
structure Engine.Sound (e : Engine) : Prop where
  ip_le : e.ip ≤ e.endIdx
  op_eq : e.op = e.produced.length
  grpBit_le : e.grpBit ≤ groupUnits
  ring : e.ring.wf = true ∧ e.ring.below ringSize = true

/-- RING starts canonical and stays so (R82, R89, R103, R111). -/
theorem pushRing_ringStart_good (bs : List Byte) :
    (pushRing ringStart bs).1.wf = true ∧ (pushRing ringStart bs).1.below ringSize = true :=
  pushRing_good ringStart bs ⟨Memory.wf_blank _, Memory.below_blank _ _⟩

theorem Engine.beginDecode_sound {e : Engine} (h : e.Sound) (a : Attempt) {lo hi : Nat} (hle : lo ≤ hi) :
    (e.beginDecode a lo hi).Sound :=
  ⟨hle, rfl, h.grpBit_le, Memory.wf_blank _, Memory.below_blank _ _⟩

theorem Engine.Sound.of_flagMove {e e' : Engine} (h : e.Sound) (hmove : e.FlagMove e') : e'.Sound := by
  obtain ⟨ip_le, op_eq, grpBit_le, ring⟩ := h
  cases hmove with
  | shift fl n hn => exact ⟨by simp only; omega, op_eq, grpBit_le, ring⟩
  | stop fl p hp => exact ⟨ip_le, op_eq, grpBit_le, ring⟩

theorem Engine.Sound.of_unitMove {e e' : Engine} (h : e.Sound) (hmove : e.UnitMove e') : e'.Sound := by
  obtain ⟨ip_le, op_eq, grpBit_le, ring⟩ := h
  cases hmove with
  | produce bs n hn hin hlen => exact ⟨hin, by simp [op_eq], grpBit_le, pushRing_good e.ringState bs ring⟩
  | stop p hp => exact ⟨ip_le, op_eq, grpBit_le, ring⟩

theorem Engine.decode_sound {e : Engine} (h : e.Sound) (inB : Nat → Byte) (a : Attempt) {lo hi : Nat} (hle : lo ≤ hi) :
    (Engine.decode inB a lo hi e).Sound :=
  Engine.advanceBy_keeps inB (fun _ _ => .of_flagMove) (fun _ _ => .of_unitMove) _ _ (e.beginDecode_sound h a hle)

theorem decompressOp_sound {e : Engine} (h : e.Sound) (policy : HdrPolicy) (inB : Nat → Byte) (n : Nat) :
    (decompressOp policy inB n e).2.Sound := by
  by_cases hn : n = 0
  · subst hn; exact h
  · rw [decompressOp_engine policy inB e hn]
    split
    · exact e.decode_sound h inB _ (Nat.le_add_right _ _)
    · exact e.decode_sound h inB _ (Nat.zero_le n)

theorem decompressRawOp_sound {e : Engine} (h : e.Sound) (inB : Nat → Byte) (n : Nat) :
    (decompressRawOp inB n e).2.Sound := by
  by_cases hn : n = 0
  · subst hn; exact h
  · rw [decompressRawOp_engine inB e hn]
    exact e.decode_sound h inB _ (Nat.zero_le n)

/-- The compressor leaves IP and END as they are. -/
theorem Engine.compressLoop_ip_endIdx (inB : Nat → Byte) (n maxDist k : Nat) (e : Engine) :
    (Engine.compressLoop inB n maxDist k e).ip = e.ip ∧ (Engine.compressLoop inB n maxDist k e).endIdx = e.endIdx :=
  Engine.compressLoop_keeps inB n maxDist (P := fun x => x.ip = e.ip ∧ x.endIdx = e.endIdx)
    (fun x h _ => ⟨(x.compressUnit_ip inB n maxDist).trans h.1, (x.compressUnit_endIdx inB n maxDist).trans h.2⟩) k e
    ⟨rfl, rfl⟩

theorem compressOp_sound {e : Engine} (h : e.Sound) (inB : Nat → Byte) (n maxDist : Nat) (tree : List Nat) :
    (compressOp inB n maxDist tree e).2.Sound := by
  unfold compressOp
  split
  · exact h
  · have hinv := Engine.compressLoop_compressing inB n maxDist n e tree
    obtain ⟨hip, hend⟩ := Engine.compressLoop_ip_endIdx inB n maxDist n (e.beginCompress tree)
    have hring : (Engine.compressLoop inB n maxDist n (e.beginCompress tree)).ring = (pushRing ringStart _).1 :=
      congrArg Prod.fst hinv.ring
    refine ⟨by rw [hip, hend]; exact h.ip_le, hinv.op, hinv.grpBit_le, ?_⟩
    rw [hring]
    exact pushRing_ringStart_good _

/-! ## STATUS (R24, R25, R134) -/

theorem Status.onSuccess_good (st : Status) (p : Path) : (st.onSuccess p).good :=
  ⟨fun _ => rfl, nofun, by cases p <;> simp [Path.bits]⟩

theorem Status.onError_good (st : Status) (k : ErrorKind) : (st.onError k).good :=
  ⟨nofun, fun _ => ⟨rfl, by cases k <;> simp [ErrorKind.code]⟩, by simp⟩

theorem Status.onAccept_good (st : Status) : st.onAccept.good := ⟨fun _ => rfl, nofun, by simp⟩

/-- Bit 2 of a STATUS write clears ERR and ERRCODE together (R126). -/
theorem Status.writeOneToClear_good {st : Status} (h : st.good) (v : Word) : (st.writeOneToClear v).good := by
  obtain ⟨hclear, herr, hpath⟩ := h
  cases hv : v.getLsbD 2 with
  | true =>
    have herrOff : (st.writeOneToClear v).err = false := by
      simp only [Status.writeOneToClear, hv, Bool.not_true, Bool.and_false]
    exact ⟨fun _ => by simp only [Status.writeOneToClear, hv, if_true], fun hset => Bool.noConfusion (herrOff.symm.trans hset),
      hpath⟩
  | false =>
    have herrSame : (st.writeOneToClear v).err = st.err := by
      simp only [Status.writeOneToClear, hv, Bool.not_false, Bool.and_true]
    have hcodeSame : (st.writeOneToClear v).errCode = st.errCode := by
      simp only [Status.writeOneToClear, hv, Bool.false_eq_true, if_false]
    exact ⟨by rwa [herrSame, hcodeSame], by rwa [herrSame, hcodeSame], hpath⟩

/-! ## The operations on a state -/

theorem Config.default_wf : Config.default.wf := by decide

theorem State.resetWith_inv {cfg : Config} (h : cfg.wf) (draw : Nat) : (State.resetWith cfg draw).Inv :=
  ⟨h, Nat.zero_le _, Nat.zero_le _,
    ⟨Memory.wf_blank _, Memory.below_blank _ _, Memory.wf_blank _, Memory.below_blank _ _, Memory.wf_blank _,
      Memory.below_blank _ _⟩,
    ⟨fun _ => rfl, nofun, by simp [State.resetWith, Status.clear]⟩, nofun, Nat.le_refl 0, rfl, Nat.zero_le _⟩

/-- Settles O45 (R40, R153). -/
theorem resetMeetsInvariant : Obligations.ResetMeetsInvariant := by
  unfold Obligations.ResetMeetsInvariant
  exact ⟨State.resetWith_inv Config.default_wf 0, fun cfg d h => State.resetWith_inv h d⟩

section
variable {s : State}

theorem State.Inv.engine_sound (h : s.Inv) : s.engine.Sound := by
  obtain ⟨-, -, -, ⟨-, -, -, -, hwf, hbelow⟩, -, -, hip, hop, hgrp⟩ := h
  exact ⟨hip, hop, hgrp, hwf, hbelow⟩

theorem State.Inv.toReset (h : s.Inv) : s.toReset.Inv := State.resetWith_inv h.1 s.draws

theorem State.Inv.answer (h : s.Inv) (v : Word) : (s.answer v).Inv := h

theorem State.Inv.refuse (h : s.Inv) : s.refuse.Inv := h

theorem State.Inv.clearStatus (h : s.Inv) (v : Word) : (s.clearStatus v).Inv := by
  obtain ⟨hcfg, hin, hout, hmem, hst, hbusy, hengine⟩ := h
  refine ⟨hcfg, hin, hout, hmem, Status.writeOneToClear_good hst v, fun hb => ?_, hengine⟩
  obtain ⟨hn, hdone, herr, hcode, hpath, hlen, hend⟩ := hbusy hb
  exact ⟨hn, by simp [Status.writeOneToClear, hdone], by simp [Status.writeOneToClear, herr],
    by simp [Status.writeOneToClear, hcode], hpath, hlen, hend⟩

theorem State.Inv.accept (h : s.Inv) (v : Word) : (s.accept v).Inv := by
  obtain ⟨hcfg, hin, -, hmem, -, -, hengine⟩ := h
  exact ⟨hcfg, hin, Nat.zero_le _, hmem, s.status.onAccept_good,
    fun _ => ⟨rfl, rfl, rfl, rfl, rfl, rfl, fun hne => absurd rfl hne⟩, hengine⟩

/-- New working registers, and a new OUT, that meet their clauses. -/
theorem State.Inv.withEngine (h : s.Inv) {e : Engine} (he : e.Sound)
    (hend : s.busy = true → e.seq ≠ .start → e.endIdx ≤ s.phase.acceptedLength) {m : Memory}
    (hm : m.wf = true ∧ m.below s.cfg.outCap = true) : ({ s with engine := e, outBuf := m }).Inv := by
  obtain ⟨hcfg, hin, hout, ⟨hinwf, hinbelow, -⟩, hst, hbusy, -⟩ := h
  refine ⟨hcfg, hin, hout, ⟨hinwf, hinbelow, hm.1, hm.2, he.ring.1, he.ring.2⟩, hst, fun hb => ?_, he.ip_le, he.op_eq,
    he.grpBit_le⟩
  obtain ⟨hn, hdone, herr, hcode, hpath, hlen, -⟩ := hbusy hb
  exact ⟨hn, hdone, herr, hcode, hpath, hlen, hend hb⟩

theorem State.Inv.outBuf (h : s.Inv) : s.outBuf.wf = true ∧ s.outBuf.below s.cfg.outCap = true := by
  obtain ⟨-, -, -, ⟨-, -, hwf, hbelow, -⟩, -⟩ := h
  exact ⟨hwf, hbelow⟩

/-- A decode in progress stays inside IN[0..n) (R97). -/
theorem State.Inv.endIdx_le (h : s.Inv) (hbusy : s.busy = true) (hseq : s.engine.seq ≠ .start) :
    s.engine.endIdx ≤ s.phase.acceptedLength := by
  obtain ⟨-, -, -, -, -, hgood, -⟩ := h
  obtain ⟨-, -, -, -, -, -, hend⟩ := hgood hbusy
  exact hend hseq

theorem Engine.FlagMove.endIdx {e e' : Engine} (h : e.FlagMove e') : e'.endIdx = e.endIdx := by
  cases h <;> rfl

theorem Engine.UnitMove.endIdx {e e' : Engine} (h : e.UnitMove e') : e'.endIdx = e.endIdx := by
  cases h <;> rfl

theorem State.Inv.flagMove (h : s.Inv) (hseq : s.engine.seq ≠ .start) {e : Engine} (hmove : s.engine.FlagMove e) :
    ({ s with engine := e }).Inv :=
  h.withEngine (h.engine_sound.of_flagMove hmove) (fun hb _ => by rw [hmove.endIdx]; exact h.endIdx_le hb hseq) h.outBuf

theorem State.Inv.unitMove (h : s.Inv) (hseq : s.engine.seq ≠ .start) {e : Engine} (hmove : s.engine.UnitMove e) :
    (s.runUnit e).Inv :=
  h.withEngine (h.engine_sound.of_unitMove hmove) (fun hb _ => by rw [hmove.endIdx]; exact h.endIdx_le hb hseq)
    ⟨Memory.wf_writeBelow _ _ _ _ h.outBuf.1, Memory.below_writeBelow _ _ _ _ h.outBuf.2⟩

/-- Setting up a decode of a part of IN[0..n). -/
theorem State.Inv.beginDecode (h : s.Inv) (a : Attempt) {lo hi : Nat} (hle : lo ≤ hi)
    (hend : s.busy = true → hi ≤ s.phase.acceptedLength) : ({ s with engine := s.engine.beginDecode a lo hi }).Inv :=
  h.withEngine (s.engine.beginDecode_sound h.engine_sound a hle) (fun hb _ => hend hb) h.outBuf

/-- Completing a command leaves an IDLE block with a result that fits, or an error (R83, R95, R136). -/
theorem State.Inv.finish (h : s.Inv) {r : Result × Engine} (hr : r.2.Sound) : (s.finish r).Inv := by
  obtain ⟨hcfg, hin, -, ⟨hinwf, hinbelow, -⟩, -⟩ := h
  unfold State.finish
  obtain ⟨bs, p, -, hfits, heq⟩ | ⟨bs, p, -, -, heq⟩ | ⟨k, -, heq⟩ :=
    State.complete_cases { s with engine := r.2 } r.1 <;> rw [heq]
  · exact ⟨hcfg, hin, hfits, ⟨hinwf, hinbelow, Memory.wf_writeBytes _ _ _ (Memory.wf_blank _),
      Memory.below_writeBytes _ _ _ _ (by rwa [Nat.zero_add]) (Memory.below_blank _ _), hr.ring.1, hr.ring.2⟩,
      Status.onSuccess_good _ p, nofun, hr.ip_le, hr.op_eq, hr.grpBit_le⟩
  · exact ⟨hcfg, hin, Nat.zero_le _, ⟨hinwf, hinbelow, Memory.wf_blank _, Memory.below_blank _ _, hr.ring.1, hr.ring.2⟩,
      Status.onError_good _ _, nofun, hr.ip_le, hr.op_eq, hr.grpBit_le⟩
  · exact ⟨hcfg, hin, Nat.zero_le _, ⟨hinwf, hinbelow, Memory.wf_blank _, Memory.below_blank _ _, hr.ring.1, hr.ring.2⟩,
      Status.onError_good _ _, nofun, hr.ip_le, hr.op_eq, hr.grpBit_le⟩

/-- A host write to IN or IN_LEN while IDLE, inside the window and the capacity (R127, R128). -/
theorem State.Inv.withInput (h : s.Inv) (hidle : s.phase = .idle) {m : Memory} {len : Nat}
    (hm : m.wf = true ∧ m.below s.cfg.inCap = true) (hlen : len ≤ s.cfg.inCap) :
    ({ s with inBuf := m, inLen := len }).Inv := by
  obtain ⟨hcfg, -, hout, ⟨-, -, hmem⟩, hst, -, hengine⟩ := h
  refine ⟨hcfg, hlen, hout, ⟨hm.1, hm.2, hmem⟩, hst, fun hb => ?_, hengine⟩
  rw [State.busy_of_idle { s with inBuf := m, inLen := len } hidle] at hb
  cases hb

theorem State.Inv.inBuf (h : s.Inv) : s.inBuf.wf = true ∧ s.inBuf.below s.cfg.inCap = true := by
  obtain ⟨-, -, -, ⟨hwf, hbelow, -⟩, -⟩ := h
  exact ⟨hwf, hbelow⟩

end

/-! ## Instructions and fetches -/

/-- The working registers that a command leaves are sound. -/
theorem exec_keeps_inv_of_isCommand {i : Instr} {s t : State} (h : s.Inv) (hi : i.IsCommand) (hexec : exec i s = .next t) :
    t.Inv := by
  have hsound := h.engine_sound
  cases hphase : s.phase with
  | idle =>
    rw [exec_of_isCommand_of_idle hi hphase] at hexec
    cases hexec
    exact h
  | busy code n =>
    obtain rfl | rfl | rfl | ⟨c, rfl⟩ := hi
    · rw [exec_decompress_of_busy hphase] at hexec
      cases hexec
      exact h.finish (decompressOp_sound hsound _ _ _)
    · rw [exec_decompressRaw_of_busy hphase] at hexec
      cases hexec
      exact h.finish (decompressRawOp_sound hsound _ _)
    · rw [exec_compress_of_busy hphase] at hexec
      cases hexec
      exact h.finish (compressOp_sound hsound _ _ _ _)
    · rw [exec_badCommand_of_busy c hphase] at hexec
      cases hexec
      exact h.finish (r := (.err .badCommand, s.engine)) hsound

/-- A CMD write starts a command or is refused (R122, R123). -/
theorem exec_keeps_inv_of_cmdWrite {i : Instr} {s t : State} {v : Word} (h : s.Inv)
    (hi : i = .cmdWriteAccepted v ∨ i = .cmdWriteRefused v) (hexec : exec i s = .next t) : t.Inv := by
  have hcases : exec i s = .next (s.accept v) ∨ exec i s = .next s.refuse := by
    cases hphase : s.phase <;> obtain rfl | rfl := hi <;>
      simp only [exec, execCmdWriteAccepted, execCmdWriteRefused, hphase, true_or, or_true]
  obtain hnext | hnext := hcases <;> rw [hnext] at hexec <;> cases hexec
  · exact h.accept v
  · exact h.refuse

/-- A well-formed instruction keeps the invariant, a stream unit when a decode has begun. -/
theorem exec_keeps_inv {i : Instr} {s t : State} (h : s.Inv) (hwf : i.wellFormed s.cfg = true)
    (hunit : i.isStreamUnit = true → s.engine.seq ≠ .start) (hexec : exec i s = .next t) : t.Inv := by
  cases i with
  | flag f => cases hexec; exact h.flagMove (hunit rfl) (s.engine.flagStep_flagMove f)
  | lit c => cases hexec; exact h.unitMove (hunit rfl) (s.engine.literal_unitMove c)
  | ref off len =>
    cases hexec
    obtain ⟨-, hlen⟩ : (off < 4096 ∧ 3 ≤ len) ∧ len ≤ 18 := by simpa [Instr.wellFormed] using hwf
    exact h.unitMove (hunit rfl) (s.engine.backReference_unitMove off hlen)
  | hdr size =>
    cases hphase : s.phase with
    | idle =>
      simp only [exec, execHdr, hphase] at hexec
      cases hexec
      exact h
    | busy code n =>
      rw [exec_hdr_of_busy size hphase] at hexec
      cases hexec
      have haccepted : s.phase.acceptedLength = n := by rw [hphase]; rfl
      obtain ⟨-, hle, he⟩ | ⟨-, he⟩ := s.engine.header_cases s.cfg.hdrPolicy size n <;> rw [he]
      · exact h.beginDecode _ (Nat.le_add_right _ _) fun _ => by rwa [haccepted]
      · exact h.beginDecode _ (Nat.zero_le n) fun _ => by rw [haccepted]
  | decompress => exact exec_keeps_inv_of_isCommand h (.inl rfl) hexec
  | decompressRaw => exact exec_keeps_inv_of_isCommand h (.inr (.inl rfl)) hexec
  | compress => exact exec_keeps_inv_of_isCommand h (.inr (.inr (.inl rfl))) hexec
  | badCommand code => exact exec_keeps_inv_of_isCommand h (.inr (.inr (.inr ⟨code, rfl⟩))) hexec
  | cmdWriteAccepted v => exact exec_keeps_inv_of_cmdWrite h (.inl rfl) hexec
  | cmdWriteRefused v => exact exec_keeps_inv_of_cmdWrite h (.inr rfl) hexec
  | ctrlWrite v =>
    have hsrst : v.getLsbD 1 = false := by simpa [Instr.wellFormed, srstBit] using hwf
    rw [exec_ctrlWrite_of_not_srst s hsrst] at hexec
    cases hexec
    exact h
  | softReset v => cases hexec; exact h.toReset
  | statusWrite v => cases hexec; exact h.clearStatus v
  | inLenWrite v =>
    cases hphase : s.phase with
    | idle =>
      rw [exec_inLenWrite_of_idle v hphase] at hexec
      cases hexec
      exact h.withInput hphase h.inBuf (Nat.min_le_right _ _)
    | busy code n =>
      rw [exec_of_refusedWhileBusy rfl (s.busy_of_busy code n hphase)] at hexec
      cases hexec
      exact h.refuse
  | inWindowAccess op j w =>
    cases op with
    | read => cases hexec; exact h.answer _
    | write v =>
      cases hphase : s.phase with
      | idle =>
        rw [exec_inWindowWrite_of_idle j w v hphase] at hexec
        cases hexec
        have hfits : j + w.bytes ≤ s.cfg.inCap := by
          simp only [Instr.wellFormed, windowFits, Bool.and_eq_true, decide_eq_true_eq] at hwf
          exact hwf.2
        exact h.withInput hphase ⟨Memory.wf_writeBytes _ _ _ h.inBuf.1,
          Memory.below_writeBytes _ _ _ _ (by rwa [length_dataBytes]) h.inBuf.2⟩ h.2.1
      | busy code n =>
        rw [exec_of_refusedWhileBusy rfl (s.busy_of_busy code n hphase)] at hexec
        cases hexec
        exact h.refuse
  | outWindowRead j w =>
    cases hphase : s.phase with
    | idle =>
      rw [exec_outWindowRead_of_idle j w hphase] at hexec
      cases hexec
      exact h.answer _
    | busy code n =>
      rw [exec_outWindowRead_of_busy j w hphase] at hexec
      cases hexec
      exact h
  | registerRead r => cases hexec; exact h.answer _

/-- What a fetch gives meets the invariant, and it gives a stream unit only when a decode has begun. -/
def Fetched.MeetsInv : Fetched → Prop
  | .run i s1 => s1.Inv ∧ (i.isStreamUnit = true → s1.engine.seq ≠ .start)
  | .quiet s1 => s1.Inv

section
variable {s : State}

theorem Fetched.meetsInv_decodeCommand (h : s.Inv) (w : Word) : (Fetched.run (decodeCommand w) s).MeetsInv :=
  ⟨h, fun hunit => by rw [(isCommand_decodeCommand w).isStreamUnit] at hunit; cases hunit⟩

theorem State.Inv.fetchAccess (h : s.Inv) (a : Access) : (s.fetchAccess a).MeetsInv := by
  obtain ⟨i, hd, hf⟩ | ⟨r, -, hf⟩ := s.fetchAccess_cases a <;> rw [hf]
  · exact ⟨h, fun hunit => by rw [isStreamUnit_of_decodeAccess hd] at hunit; cases hunit⟩
  · cases a with
    | read addr w => exact h.answer _
    | write addr w v => exact h

theorem State.Inv.fetchCommand (h : s.Inv) : s.fetchCommand.MeetsInv := by
  obtain ⟨code, n, -, hf⟩ | ⟨-, hf⟩ := s.fetchCommand_cases <;> rw [hf]
  · exact Fetched.meetsInv_decodeCommand h code
  · exact h

theorem State.Inv.fetchHeaderless (h : s.Inv) {code : Word} {n : Nat} (hphase : s.phase = .busy code n) :
    (s.fetchHeaderless n).MeetsInv :=
  ⟨h.beginDecode _ (Nat.zero_le n) fun _ => by rw [hphase]; exact Nat.le_refl n, fun _ => nofun⟩

theorem State.Inv.fetchUnit (h : s.Inv) : s.fetchUnit.MeetsInv := by
  unfold State.fetchUnit
  split
  · exact h
  · next code n hphase =>
    split
    · split_ifs
      · exact ⟨h, nofun⟩
      · exact h.fetchHeaderless hphase
      · exact Fetched.meetsInv_decodeCommand h code
    · next hseq => exact ⟨h, fun _ => by rw [hseq]; nofun⟩
    · next hseq => split_ifs <;> exact ⟨h, fun _ => by rw [hseq]; nofun⟩
    · split_ifs
      · exact h.fetchHeaderless hphase
      · exact Fetched.meetsInv_decodeCommand h code

theorem State.Inv.fetchEvent (h : s.Inv) (ev : Event) : (s.fetchEvent ev).MeetsInv := by
  cases ev with
  | read busAddr w | write busAddr w v =>
    simp only [State.fetchEvent]
    split
    · exact h.fetchAccess _
    · exact h
  | command => exact h.fetchCommand
  | unit => exact h.fetchUnit
  | hardReset => exact h.toReset

theorem State.Inv.fetch (h : s.Inv) : (fetch s).MeetsInv := by
  unfold Machine.fetch
  split
  · exact h.fetchCommand
  · next ev rest _ => exact State.Inv.fetchEvent (s := { s with pending := rest }) h ev

end

/-- Settles O44: what is fetched meets the invariant, and the instruction keeps it. -/
theorem everyStepKeepsInvariant : Obligations.EveryStepKeepsInvariant := by
  unfold Obligations.EveryStepKeepsInvariant
  intro s t h hstep
  have hfetch := h.fetch
  obtain ⟨i, s1, hf, hexec⟩ | hf := step_cases s t hstep <;> rw [hf] at hfetch
  · obtain ⟨hinv, hunit⟩ := hfetch
    obtain ⟨-, s2, hreset⟩ | ⟨hr, hsound⟩ := fetch_hardReset_or_soundFor s
    · rw [hf] at hreset
      cases hreset
    · have hfrom := fetch_frameOf hr
      rw [hf] at hsound hfrom
      obtain ⟨hwf, -⟩ := hsound
      have hcfg : s1.cfg = s.cfg := State.FetchedFrom.cfg hfrom
      exact exec_keeps_inv hinv (by rwa [hcfg]) hunit hexec
  · exact hfetch

end Sys2Proof.Machine
end

section
/-! What the next step runs (spec/40_decompress.md R81 to R93, spec/42_control.md R121): the fetch at each point of the
stream loop, and the decoded host access. -/

namespace Sys2Proof.Machine

open Sys2Proof

/-! ## Host accesses -/

theorem step_read_of_ok {s : State} {addr : Word} {w : Width} {i : Instr} {rest : List Event}
    (h : decodeAccess s.cfg s.busy (.read addr w) = .ok i) :
    step { s with pending := .read (s.cfg.blockBase + addr.toNat) w :: rest } = exec i { s with pending := rest } := by
  refine step_of_run _ _ _ ?_
  have hdecode : decodeAccess s.cfg ({ s with pending := rest } : State).busy (.read addr w) = .ok i := h
  simp only [fetch, State.fetchEvent, blockAddress_blockBase_add, State.fetchAccess, hdecode]

theorem step_write_of_ok {s : State} {addr v : Word} {w : Width} {i : Instr} {rest : List Event}
    (h : decodeAccess s.cfg s.busy (.write addr w v) = .ok i) :
    step { s with pending := .write (s.cfg.blockBase + addr.toNat) w v :: rest } = exec i { s with pending := rest } := by
  refine step_of_run _ _ _ ?_
  have hdecode : decodeAccess s.cfg ({ s with pending := rest } : State).busy (.write addr w v) = .ok i := h
  simp only [fetch, State.fetchEvent, blockAddress_blockBase_add, State.fetchAccess, hdecode]

/-! ## Operands that a unit does not use (assumption 14) -/

theorem exec_flag_congr {s : State} (h : s.engine.fetchDue = false ∨ s.engine.endIdx ≤ s.engine.ip) (f g : Byte) :
    exec (.flag f) s = exec (.flag g) s := by
  have hsame : s.engine.flagStep f = s.engine.flagStep g := by
    unfold Engine.flagStep
    obtain hdue | hend := h
    · simp only [hdue, Bool.false_eq_true, if_false]
    · simp only [hend, if_true]
  simp only [exec, execFlag, hsame]

theorem exec_lit_congr {s : State} (h : s.engine.endIdx ≤ s.engine.ip) (c d : Byte) :
    exec (.lit c) s = exec (.lit d) s := by
  simp only [exec, execLit, Engine.literal, h, if_true]

theorem exec_ref_congr {s : State} (h : s.engine.endIdx ≤ s.engine.ip + 1) (off len off' len' : Nat) :
    exec (.ref off len) s = exec (.ref off' len') s := by
  have hshort : s.engine.endIdx - s.engine.ip < 2 := by omega
  simp only [exec, execRef, Engine.backReference, hshort, if_true]

/-! ## Stream-unit turns, by the point of the loop -/

theorem Engine.peek_of_lt {inB : Nat → Byte} {e : Engine} {k : Nat} (h : e.ip + k < e.endIdx) :
    e.peek inB k = inB (e.ip + k) := if_pos h

theorem step_unit (s : State) (rest : List Event) :
    step { s with pending := .unit :: rest } = ({ s with pending := rest }).fetchUnit.outcome := rfl

section
variable {s : State} {code : Word} {n : Nat} (hphase : s.phase = .busy code n)
include hphase

theorem State.fetchUnit_of_start (hseq : s.engine.seq = .start) : s.fetchUnit =
    if code = 1#32 ∧ 4 ≤ n then .run (decodeHdr (s.inByte 0) (s.inByte 1) (s.inByte 2) (s.inByte 3)) s
    else if (code = 1#32 ∨ code = 2#32) ∧ n ≠ 0 then s.fetchHeaderless n else .run (decodeCommand code) s := by
  simp only [State.fetchUnit, hphase, hseq, hdrBytes]

theorem State.fetchUnit_of_flagStep (hseq : s.engine.seq = .flagStep) :
    s.fetchUnit = .run (.flag (s.engine.flagOperand s.inByte)) s := by
  simp only [State.fetchUnit, hphase, hseq, decodeFlag]

theorem State.fetchUnit_of_lit (hseq : s.engine.seq = .unit) (hlit : s.engine.selectsLit = true) :
    s.fetchUnit = .run (.lit (s.engine.peek s.inByte 0)) s := by
  simp only [State.fetchUnit, hphase, hseq, decodeLit, hlit, if_true]

theorem State.fetchUnit_of_ref (hseq : s.engine.seq = .unit) (href : s.engine.selectsLit = false) :
    s.fetchUnit = .run (decodeRef (s.engine.peek s.inByte 0) (s.engine.peek s.inByte 1)) s := by
  simp only [State.fetchUnit, hphase, hseq, href, Bool.false_eq_true, if_false]

theorem State.fetchUnit_of_stopped {p : StopPoint} (hseq : s.engine.seq = .stopped p) : s.fetchUnit =
    if s.engine.attempt = .header ∧ s.engine.produced = [] then s.fetchHeaderless n else .run (decodeCommand code) s := by
  simp only [State.fetchUnit, hphase, hseq]

end

/-- The headerless reading starts with its first byte as flag byte (R82, R93). -/
theorem State.fetchHeaderless_eq (s : State) {n : Nat} (hn : n ≠ 0) : s.fetchHeaderless n =
    .run (.flag (s.inByte 0)) { s with engine := s.engine.beginDecode .headerless 0 n } := by
  have hdue := s.engine.beginDecode_fetchDue .headerless 0 n
  have hin : (s.engine.beginDecode .headerless 0 n).ip + 0 < (s.engine.beginDecode .headerless 0 n).endIdx :=
    Nat.pos_of_ne_zero hn
  simp only [State.fetchHeaderless, decodeFlag, Engine.flagOperand, hdue, if_true, Engine.peek_of_lt hin]
  rfl

/-- Settles O42: each clause is one branch of the fetch. -/
theorem stepRunsDecodedInstruction : Obligations.StepRunsDecodedInstruction := by
  unfold Obligations.StepRunsDecodedInstruction
  intro s rest
  refine ⟨fun addr w i h => step_read_of_ok h, fun addr v w i h => step_write_of_ok h, fun code n hphase => ?_⟩
  have hphase' : ({ s with pending := rest } : State).phase = .busy code n := hphase
  simp only [step_unit]
  refine ⟨step_of_run _ _ _ (fetch_command hphase), step_of_run _ _ _ (fetch_nothing_of_busy hphase), ?header,
    ?headerless, ?commandAtStart, ?flagFetch, ?flagNoFetch, ?lit, ?litAtEnd, ?ref, ?refAtEnd,
    fun p hseq => ⟨?fallback, ?commandAtStop⟩⟩
  case header =>
    intro hseq hcode hn i hi
    cases hi
    rw [State.fetchUnit_of_start hphase' hseq, if_pos ⟨hcode, hn⟩]
    rfl
  case headerless =>
    intro hseq hcode hn
    have hnoHeader : ¬ (code = 1#32 ∧ 4 ≤ n) := by
      rintro ⟨rfl, hfour⟩
      obtain ⟨-, hshort⟩ | htwo := hcode
      · omega
      · exact absurd htwo (by decide)
    rw [State.fetchUnit_of_start hphase' hseq, if_neg hnoHeader, if_pos ⟨hcode.imp_left And.left, hn⟩,
      State.fetchHeaderless_eq _ hn]
    rfl
  case commandAtStart =>
    intro hseq hcode
    have hnoHeader : ¬ (code = 1#32 ∧ 4 ≤ n) := by
      rintro ⟨hone, hfour⟩
      obtain ⟨hne, -⟩ | hzero := hcode
      · exact hne hone
      · omega
    rw [State.fetchUnit_of_start hphase' hseq, if_neg hnoHeader, if_neg (by tauto)]
    rfl
  case flagFetch =>
    intro hseq hdue hin
    have hoperand : s.engine.flagOperand s.inByte = s.inBuf.read s.engine.ip := by
      rw [Engine.flagOperand, if_pos hdue, Engine.peek_of_lt hin]
      rfl
    rw [State.fetchUnit_of_flagStep hphase' hseq]
    exact congrArg (fun f => exec (.flag f) { s with pending := rest }) hoperand
  case flagNoFetch =>
    intro hseq hnone f
    rw [State.fetchUnit_of_flagStep hphase' hseq]
    exact exec_flag_congr (s := { s with pending := rest }) hnone _ f
  case lit =>
    intro hseq hlit hin
    rw [State.fetchUnit_of_lit hphase' hseq hlit]
    exact congrArg (fun c => exec (.lit c) { s with pending := rest }) (Engine.peek_of_lt (k := 0) hin)
  case litAtEnd =>
    intro hseq hlit hend c
    rw [State.fetchUnit_of_lit hphase' hseq hlit]
    exact exec_lit_congr (s := { s with pending := rest }) hend _ c
  case ref =>
    intro hseq hlit hin i hi
    cases hi
    have hpeek0 : s.engine.peek s.inByte 0 = s.inBuf.read s.engine.ip := Engine.peek_of_lt (k := 0) (by omega)
    have hpeek1 : s.engine.peek s.inByte 1 = s.inBuf.read (s.engine.ip + 1) := Engine.peek_of_lt hin
    rw [State.fetchUnit_of_ref hphase' hseq hlit, ← hpeek0, ← hpeek1]
    rfl
  case refAtEnd =>
    intro hseq hlit hend off len
    rw [State.fetchUnit_of_ref hphase' hseq hlit]
    exact exec_ref_congr (s := { s with pending := rest }) hend _ _ off len
  case fallback =>
    intro hempty hn
    rw [State.fetchUnit_of_stopped hphase' hseq, if_pos hempty, State.fetchHeaderless_eq _ hn]
    rfl
  case commandAtStop =>
    intro hnot
    rw [State.fetchUnit_of_stopped hphase' hseq, if_neg hnot]
    rfl

end Sys2Proof.Machine
end

section
/-! A decompression run one stream unit at a time (spec/40_decompress.md R81, R83, R93, R94; the model's finer schedule):
the unit turns compute the working registers of the command's operation, and the command then commits its result. -/

namespace Sys2Proof.Machine

open Sys2Proof

/-! ## Runs of unit turns -/

theorem Core.run_succ_of_step {s t : State} (k : Nat) (h : step s = .next t) :
    Host.Core.run core (k + 1) s = Host.Core.run core k t := by
  have hstep : core.step s = .next t := h
  simp only [Host.Core.run, hstep]

theorem Core.run_add (j k : Nat) {s t : State} (h : Host.Core.run core j s = .next t) :
    Host.Core.run core (j + k) s = Host.Core.run core k t := by
  induction j generalizing s with
  | zero => cases h; rw [Nat.zero_add]
  | succ j ih =>
    obtain ⟨s', hstep⟩ := everyStepAnswersNext s
    rw [Core.run_succ_of_step j hstep] at h
    rw [Nat.add_right_comm, Core.run_succ_of_step (j + k) hstep]
    exact ih h

/-- `k` unit turns lead from `s` to `u`, whatever is pending after them. -/
def State.RunsUnits (s : State) (k : Nat) (u : State) : Prop :=
  ∀ rest, Host.Core.run core k { s with pending := List.replicate k .unit ++ rest } = .next { u with pending := rest }

theorem State.RunsUnits.refl (s : State) : s.RunsUnits 0 s := fun _ => rfl

theorem State.RunsUnits.trans {s t u : State} {j k : Nat} (h : s.RunsUnits j t) (h' : t.RunsUnits k u) :
    s.RunsUnits (j + k) u := fun rest => by
  rw [List.replicate_add, List.append_assoc, Core.run_add j k (h _)]
  exact h' rest

theorem State.RunsUnits.one {s t : State}
    (h : ∀ rest, ({ s with pending := rest }).fetchUnit.outcome = .next { t with pending := rest }) : s.RunsUnits 1 t :=
  fun rest => Core.run_succ_of_step 0 ((step_unit s rest).trans (h rest))

/-! ## The turns of one decode -/

/-- Inside a decode a unit turn is one point of the loop (R81). -/
theorem State.RunsUnits.advance {s : State} {code : Word} {n : Nat} (hphase : s.phase = .busy code n)
    (hactive : s.engine.seq = .flagStep ∨ s.engine.seq = .unit) :
    s.RunsUnits 1 (s.runUnit (s.engine.advance s.inByte)) := by
  refine .one fun rest => ?_
  have hphase' : ({ s with pending := rest } : State).phase = .busy code n := hphase
  obtain hseq | hseq := hactive
  · have hproduced : (s.engine.flagStep (s.engine.flagOperand s.inByte)).produced = s.engine.produced := by
      obtain ⟨-, h⟩ | ⟨-, -, h⟩ | ⟨-, -, h⟩ := s.engine.flagStep_cases (s.engine.flagOperand s.inByte) <;> rw [h]
    rw [State.fetchUnit_of_flagStep hphase' hseq, Engine.advance]
    simp only [hseq]
    rw [State.runUnit_of_same hproduced]
    rfl
  · rw [Engine.advance]
    simp only [hseq]
    cases hsel : s.engine.selectsLit with
    | true => rw [State.fetchUnit_of_lit hphase' hseq hsel]; rfl
    | false => rw [State.fetchUnit_of_ref hphase' hseq hsel]; rfl

/-- Unit turns reach every state of a decode's working registers (R81). -/
theorem State.runsUnits_advanceBy {s : State} {code : Word} {n : Nat} (hphase : s.phase = .busy code n)
    (hstart : s.engine.seq ≠ .start) (k : Nat) :
    ∃ j m, s.RunsUnits j { s with engine := Engine.advanceBy s.inByte k s.engine, outBuf := m } := by
  induction k generalizing s with
  | zero => exact ⟨0, s.outBuf, .refl s⟩
  | succ k ih =>
    have onward (hactive : s.engine.seq = .flagStep ∨ s.engine.seq = .unit) :
        ∃ j m, s.RunsUnits j { s with engine := Engine.advanceBy s.inByte (k + 1) s.engine, outBuf := m } := by
      obtain ⟨hne, -⟩ := s.engine.turnsLeft_advance s.inByte hactive
      obtain ⟨j, m, hrun⟩ := ih (s := s.runUnit (s.engine.advance s.inByte)) hphase hne
      exact ⟨1 + j, m, (State.RunsUnits.advance hphase hactive).trans hrun⟩
    cases hseq : s.engine.seq with
    | start => exact absurd hseq hstart
    | flagStep => exact onward (.inl hseq)
    | unit => exact onward (.inr hseq)
    | stopped p =>
      rw [Engine.advanceBy_stopped s.inByte (k + 1) s.engine p hseq]
      exact ⟨0, s.outBuf, .refl s⟩

/-- Unit turns from a decode just set up reach its end. -/
theorem State.runsUnits_decode {s : State} {code : Word} {n : Nat} (hphase : s.phase = .busy code n) (a : Attempt)
    (lo hi : Nat) : ∃ j m, State.RunsUnits { s with engine := s.engine.beginDecode a lo hi } j
      { s with engine := Engine.decode s.inByte a lo hi s.engine, outBuf := m } :=
  State.runsUnits_advanceBy (s := { s with engine := s.engine.beginDecode a lo hi }) hphase nofun _

/-- Where the fetch sets up the headerless reading, unit turns reach its end (R93). -/
theorem State.runsUnits_headerless {s : State} {code : Word} {n : Nat} (hphase : s.phase = .busy code n)
    (hfetch : ∀ rest, ({ s with pending := rest }).fetchUnit = ({ s with pending := rest }).fetchHeaderless n) :
    ∃ j m, s.RunsUnits j { s with engine := Engine.decode s.inByte .headerless 0 n s.engine, outBuf := m } := by
  have hfirst : s.RunsUnits 1 { s with engine := (s.engine.beginDecode .headerless 0 n).advance s.inByte } :=
    .one fun rest => by rw [hfetch rest]; rfl
  obtain ⟨hne, -⟩ := (s.engine.beginDecode .headerless 0 n).turnsLeft_advance s.inByte (.inl rfl)
  obtain ⟨j, m, hrun⟩ := State.runsUnits_advanceBy
    (s := { s with engine := (s.engine.beginDecode .headerless 0 n).advance s.inByte }) hphase hne (2 * (n - 0) + 1)
  exact ⟨1 + j, m, hfirst.trans hrun⟩

/-- A decode does not change which reading it is of. -/
theorem Engine.attempt_decode (inB : Nat → Byte) (a : Attempt) (lo hi : Nat) (e : Engine) :
    (Engine.decode inB a lo hi e).attempt = a := by
  refine Engine.advanceBy_keeps inB (P := fun x => x.attempt = a) ?_ ?_ _ _ rfl
  · rintro x _ h (_ | _) <;> exact h
  · rintro x _ h (_ | _) <;> exact h

/-! ## The commands -/

/-- The header turn sets up the header's payload, or the whole input when the header is rejected (R91 to R93). -/
theorem State.runsUnits_header {s : State} {n : Nat} (hphase : s.phase = .busy 1#32 n) (hseq : s.engine.seq = .start)
    (hn : 4 ≤ n) : s.RunsUnits 1 { s with engine := s.engine.header s.cfg.hdrPolicy (headerSize s.inByte) n } :=
  .one fun rest => by
    rw [State.fetchUnit_of_start (s := { s with pending := rest }) hphase hseq, if_pos ⟨rfl, hn⟩]
    exact exec_hdr_of_busy (s := { s with pending := rest }) _ hphase

/-- With four bytes or more, taking the header is accepting its size. -/
theorem takesHeader_of_le (policy : HdrPolicy) (inB : Nat → Byte) {n : Nat} (hn : 4 ≤ n) :
    takesHeader policy inB n = headerAccept policy (headerSize inB).toNat n := by
  rw [takesHeader, hdrBytes, decide_eq_true hn, Bool.true_and]

/-- Unit turns of DECOMPRESS reach the working registers of its operation (R93). -/
theorem State.runsUnits_decompress {s : State} {n : Nat} (hphase : s.phase = .busy 1#32 n)
    (hseq : s.engine.seq = .start) (hn : n ≠ 0) :
    ∃ j m, s.RunsUnits j { s with engine := (decompressOp s.cfg.hdrPolicy s.inByte n s.engine).2, outBuf := m } := by
  rw [decompressOp_engine _ _ _ hn]
  by_cases hlong : 4 ≤ n
  · have hheader := State.runsUnits_header hphase hseq hlong
    have htakes := takesHeader_of_le s.cfg.hdrPolicy s.inByte hlong
    rw [htakes]
    by_cases haccept : headerAccept s.cfg.hdrPolicy (headerSize s.inByte).toNat n = true
    · rw [Engine.header, if_pos haccept] at hheader
      obtain ⟨j, m, hrun⟩ := State.runsUnits_decode hphase .header 4 (4 + (headerSize s.inByte).toNat)
      by_cases hempty : headerOutput s.inByte = []
      · rw [if_neg (fun h => h.2 hempty)]
        obtain ⟨p, hp⟩ := Engine.decode_stops s.inByte .header 4 (4 + (headerSize s.inByte).toNat) s.engine
        obtain ⟨j', m', hrun'⟩ := State.runsUnits_headerless (n := n)
          (s := { s with engine := Engine.decode s.inByte .header 4 (4 + (headerSize s.inByte).toNat) s.engine, outBuf := m })
          hphase fun rest => by
            rw [State.fetchUnit_of_stopped (s := { s with
              engine := Engine.decode s.inByte .header 4 (4 + (headerSize s.inByte).toNat) s.engine, outBuf := m,
              pending := rest }) hphase hp, if_pos]
            exact ⟨Engine.attempt_decode _ _ _ _ _, (Engine.decode_produced_inputBytes _ _ _ _ _).trans hempty⟩
        refine ⟨1 + j + j', m', ?_⟩
        rw [← Engine.decode_of_withCompressorOf .headerless 0 n
          (Engine.decode_withCompressorOf s.inByte .header 4 (4 + (headerSize s.inByte).toNat) s.engine)]
        exact (hheader.trans hrun).trans hrun'
      · rw [if_pos ⟨haccept, hempty⟩]
        exact ⟨1 + j, m, hheader.trans hrun⟩
    · rw [Engine.header, if_neg haccept] at hheader
      obtain ⟨j, m, hrun⟩ := State.runsUnits_decode hphase .headerless 0 n
      rw [if_neg (fun h => haccept h.1)]
      exact ⟨1 + j, m, hheader.trans hrun⟩
  · have hnot : ¬ (takesHeader s.cfg.hdrPolicy s.inByte n = true ∧ headerOutput s.inByte ≠ []) := fun h =>
      hlong (le_of_takesHeader h.1).1
    rw [if_neg hnot]
    exact State.runsUnits_headerless hphase fun rest => by
      rw [State.fetchUnit_of_start (s := { s with pending := rest }) hphase hseq, if_neg (fun h => hlong h.2),
        if_pos ⟨.inl rfl, hn⟩]

/-- Unit turns of DECOMPRESS_RAW reach the working registers of its operation (R94). -/
theorem State.runsUnits_decompressRaw {s : State} {n : Nat} (hphase : s.phase = .busy 2#32 n)
    (hseq : s.engine.seq = .start) (hn : n ≠ 0) :
    ∃ j m, s.RunsUnits j { s with engine := (decompressRawOp s.inByte n s.engine).2, outBuf := m } := by
  rw [decompressRawOp_engine _ _ hn]
  exact State.runsUnits_headerless hphase fun rest => by
    rw [State.fetchUnit_of_start (s := { s with pending := rest }) hphase hseq, if_neg (by simp), if_pos ⟨.inr rfl, hn⟩]

/-- What completing a command leaves does not depend on the working registers and OUT before it. -/
theorem State.finish_of_engine_outBuf (s : State) (e : Engine) (m : Memory) (r : Result × Engine) :
    ({ s with engine := e, outBuf := m }).finish r = s.finish r := by
  obtain ⟨res, e'⟩ := r
  cases res with
  | err k => rfl
  | ok bs p =>
    obtain hfits | hover := le_or_gt bs.length s.cfg.outCap
    · exact (State.finish_ok_of_fits (s := { s with engine := e, outBuf := m }) p e' hfits).trans
        (State.finish_ok_of_fits p e' hfits).symm
    · exact (State.finish_ok_of_overflow (s := { s with engine := e, outBuf := m }) p e' hover).trans
        (State.finish_ok_of_overflow p e' hover).symm

theorem decompressOp_of_withCompressorOf (policy : HdrPolicy) (inB : Nat → Byte) {n : Nat} (hn : n ≠ 0) {e e' : Engine}
    (h : e'.withCompressorOf e = e') : decompressOp policy inB n e' = decompressOp policy inB n e := by
  refine Prod.ext ?_ ?_
  · rw [decompressOp_result, decompressOp_result]
  · rw [decompressOp_engine _ _ _ hn, decompressOp_engine _ _ _ hn, Engine.decode_of_withCompressorOf _ _ _ h,
      Engine.decode_of_withCompressorOf _ _ _ h]

theorem decompressRawOp_of_withCompressorOf (inB : Nat → Byte) {n : Nat} (hn : n ≠ 0) {e e' : Engine}
    (h : e'.withCompressorOf e = e') : decompressRawOp inB n e' = decompressRawOp inB n e := by
  refine Prod.ext ?_ ?_
  · rw [decompressRawOp_result, decompressRawOp_result]
  · rw [decompressRawOp_engine _ _ hn, decompressRawOp_engine _ _ hn, Engine.decode_of_withCompressorOf _ _ _ h]

/-- The end of a decompression's operation is a stop at which no reading is left to try. -/
theorem decompressOp_engine_stopped (policy : HdrPolicy) (inB : Nat → Byte) {n : Nat} (e : Engine) (hn : n ≠ 0) :
    (∃ p, (decompressOp policy inB n e).2.seq = .stopped p) ∧
      ¬ ((decompressOp policy inB n e).2.attempt = .header ∧ (decompressOp policy inB n e).2.produced = []) := by
  rw [decompressOp_engine _ _ _ hn]
  split
  · next h =>
    refine ⟨Engine.decode_stops _ _ _ _ _, fun hempty => h.2 ?_⟩
    rw [headerOutput, ← Engine.decode_produced_inputBytes inB .header 4 (headerSize inB).toNat e]
    exact hempty.2
  · exact ⟨Engine.decode_stops _ _ _ _ _, fun hempty => by rw [Engine.attempt_decode] at hempty; cases hempty.1⟩

theorem decompressRawOp_engine_stopped (inB : Nat → Byte) {n : Nat} (e : Engine) (hn : n ≠ 0) :
    (∃ p, (decompressRawOp inB n e).2.seq = .stopped p) ∧
      ¬ ((decompressRawOp inB n e).2.attempt = .header ∧ (decompressRawOp inB n e).2.produced = []) := by
  rw [decompressRawOp_engine _ _ hn]
  exact ⟨Engine.decode_stops _ _ _ _ _, fun hempty => by rw [Engine.attempt_decode] at hempty; cases hempty.1⟩

/-- At such a stop the unit turn runs the command itself. -/
theorem step_unit_of_stopped {s : State} {code : Word} {n : Nat} (hphase : s.phase = .busy code n)
    (hstop : ∃ p, s.engine.seq = .stopped p) (hdone : ¬ (s.engine.attempt = .header ∧ s.engine.produced = []))
    (rest : List Event) :
    step { s with pending := .unit :: rest } = exec (decodeCommand code) { s with pending := rest } := by
  obtain ⟨p, hp⟩ := hstop
  rw [step_unit, State.fetchUnit_of_stopped (s := { s with pending := rest }) hphase hp, if_neg hdone]
  rfl

/-- Settles O56 (R83, R93, R94), command by command. -/
theorem unitStepsComputeTheCommand : Obligations.UnitStepsComputeTheCommand := by
  unfold Obligations.UnitStepsComputeTheCommand
  intro s code n rest hphase hseq hn hcode
  obtain rfl | rfl := hcode
  · obtain ⟨k, m, hrun⟩ := State.runsUnits_decompress hphase hseq hn
    obtain ⟨hstop, hdone⟩ := decompressOp_engine_stopped s.cfg.hdrPolicy s.inByte s.engine hn
    refine ⟨k, _, hrun rest, rfl, rfl, ?_⟩
    refine (step_unit_of_stopped (s := { s with
      engine := (decompressOp s.cfg.hdrPolicy s.inByte n s.engine).2, outBuf := m }) hphase hstop hdone rest).trans ?_
    refine (exec_decompress_of_busy (s := { s with
      engine := (decompressOp s.cfg.hdrPolicy s.inByte n s.engine).2, outBuf := m, pending := rest }) hphase).trans
        (.trans ?_ (exec_decompress_of_busy (s := { s with pending := rest }) hphase).symm)
    have hop := decompressOp_of_withCompressorOf s.cfg.hdrPolicy s.inByte hn
      (decompressOp_withCompressorOf s.cfg.hdrPolicy s.inByte n s.engine)
    exact congrArg _ ((State.finish_of_engine_outBuf { s with pending := rest } _ m _).trans (congrArg _ hop))
  · obtain ⟨k, m, hrun⟩ := State.runsUnits_decompressRaw hphase hseq hn
    obtain ⟨hstop, hdone⟩ := decompressRawOp_engine_stopped s.inByte s.engine hn
    refine ⟨k, _, hrun rest, rfl, rfl, ?_⟩
    refine (step_unit_of_stopped (s := { s with
      engine := (decompressRawOp s.inByte n s.engine).2, outBuf := m }) hphase hstop hdone rest).trans ?_
    refine (exec_decompressRaw_of_busy (s := { s with
      engine := (decompressRawOp s.inByte n s.engine).2, outBuf := m, pending := rest }) hphase).trans
        (.trans ?_ (exec_decompressRaw_of_busy (s := { s with pending := rest }) hphase).symm)
    have hop := decompressRawOp_of_withCompressorOf s.inByte hn (decompressRawOp_withCompressorOf s.inByte n s.engine)
    exact congrArg _ ((State.finish_of_engine_outBuf { s with pending := rest } _ m _).trans (congrArg _ hop))

end Sys2Proof.Machine
end

section
/-! The host sequence for COMPRESS (spec/70_reset_and_hazards.md R155): one step for each host write and one for the
engine. -/

namespace Sys2Proof.Machine

open Sys2Proof

/-- The 8-bit writes of `b` to the IN window from index `i` on. -/
def inWindowWrites (cfg : Config) (b : List Byte) (i : Nat) : List Event :=
  (b.zipIdx i).map fun c => Event.write (cfg.blockBase + 0x01000000 + c.2) .w8 (c.1.setWidth 32)

/-- One 8-bit write stores its byte (R128). -/
theorem step_inWindowWrite_byte {s : State} (hcfg : s.cfg.wf) (hidle : s.phase = .idle) {i : Nat} (hi : i < s.cfg.inCap)
    (c : Byte) (rest : List Event) :
    step { s with pending := .write (s.cfg.blockBase + 0x01000000 + i) .w8 (c.setWidth 32) :: rest } =
      .next { s with inBuf := s.inBuf.write i c, pending := rest } := by
  have hfits : windowFits s.cfg.inCap i .w8 = true := by
    simp only [windowFits, Width.bytes, Nat.mod_one, decide_true, Bool.true_and]
    exact decide_eq_true hi
  have haddr : (BitVec.ofNat 32 (inBase + i)).toNat = 0x01000000 + i := by
    have hcap := hcfg.2.1
    simp only [capMax, inBase] at *
    rw [BitVec.toNat_ofNat, Nat.mod_eq_of_lt (by omega)]
  have hstep := step_write_of_ok (s := s) (rest := rest) (decodeWrite_inWindow hcfg s.busy (c.setWidth 32) hfits)
  rw [haddr, ← Nat.add_assoc] at hstep
  have hbyte : (c.setWidth 32).extractLsb' 0 8 = c := by
    apply BitVec.eq_of_toNat_eq
    have hc := c.isLt
    simp only [BitVec.extractLsb'_toNat, BitVec.toNat_setWidth, Nat.shiftRight_zero]
    omega
  have hdata : dataBytes .w8 (c.setWidth 32) = [c] := congrArg (fun x => [x]) hbyte
  rw [hstep, exec_inWindowWrite_of_idle (s := { s with pending := rest }) i .w8 _ hidle, hdata]
  rfl

/-- The writes of a run of bytes store it. -/
theorem run_inWindowWrites {s : State} (hcfg : s.cfg.wf) (hidle : s.phase = .idle) (b : List Byte) (i : Nat)
    (hfit : i + b.length ≤ s.cfg.inCap) (rest : List Event) :
    Host.Core.run core b.length { s with pending := inWindowWrites s.cfg b i ++ rest } =
      .next { s with inBuf := s.inBuf.writeBytes i b, pending := rest } := by
  induction b generalizing s i with
  | nil => rfl
  | cons c cs ih =>
    rw [List.length_cons] at hfit
    have hstep := step_inWindowWrite_byte hcfg hidle (show i < s.cfg.inCap by omega) c
      (inWindowWrites s.cfg cs (i + 1) ++ rest)
    exact (Core.run_succ_of_step cs.length hstep).trans
      (ih (s := { s with inBuf := s.inBuf.write i c }) hcfg hidle (i + 1) (show i + 1 + cs.length ≤ s.cfg.inCap by omega))

/-- The IN_LEN write of a length that fits sets it (R130). -/
theorem step_inLenWrite_of_fits {s : State} (hidle : s.phase = .idle) {len : Nat} (hlen : len ≤ s.cfg.inCap)
    (hword : len < 4294967296) (rest : List Event) :
    step { s with pending := .write (s.cfg.blockBase + 0x00C) .w32 (BitVec.ofNat 32 len) :: rest } =
      .next { s with inLen := len, pending := rest } := by
  have hdecode : decodeAccess s.cfg s.busy (.write (BitVec.ofNat 32 Reg.inLen.offset) .w32 (BitVec.ofNat 32 len)) =
      .ok (.inLenWrite (BitVec.ofNat 32 len)) := decodeAccess_regWrite s.cfg s.busy .inLen _
  have hmin : min (BitVec.ofNat 32 len).toNat s.cfg.inCap = len := by
    rw [BitVec.toNat_ofNat, Nat.mod_eq_of_lt (by simpa using hword), Nat.min_eq_left hlen]
  refine (step_write_of_ok hdecode).trans ((exec_inLenWrite_of_idle (s := { s with pending := rest }) _ hidle).trans ?_)
  rw [hmin]

/-- The CMD write while IDLE accepts the command (R121). -/
theorem step_cmdWrite_of_idle {s : State} (hidle : s.phase = .idle) (v : Word) (rest : List Event) :
    step { s with pending := .write (s.cfg.blockBase + 0x004) .w32 v :: rest } =
      .next (({ s with pending := rest }).accept v) := by
  have hdecode : decodeAccess s.cfg s.busy (.write (BitVec.ofNat 32 Reg.cmd.offset) .w32 v) =
      .ok (.cmdWriteAccepted v) := by
    rw [s.busy_of_idle hidle]
    exact decodeAccess_regWrite s.cfg false .cmd v
  exact (step_write_of_ok hdecode).trans (exec_cmdWriteAccepted_of_idle (s := { s with pending := rest }) v hidle)

/-- The engine's turn completes an accepted COMPRESS. -/
theorem step_command_of_compress {s : State} {n : Nat} (hphase : s.phase = .busy 3#32 n) (rest : List Event) :
    step { s with pending := .command :: rest } =
      .next (({ s with pending := rest }).finish
        (compressOp s.inByte n s.cfg.maxDist (Config.freeTree s.draws) s.engine)) :=
  (step_of_run _ _ _ (fetch_command hphase)).trans (exec_compress_of_busy (s := { s with pending := rest }) hphase)

/-- The writes of IN_LEN and CMD and the engine's turn compress what IN holds. -/
theorem run_compress_sequence {s : State} (hidle : s.phase = .idle) {len : Nat} (hlen : len ≤ s.cfg.inCap)
    (hword : len < 4294967296) (rest : List Event) :
    Host.Core.run core 3 { s with pending := [.write (s.cfg.blockBase + 0x00C) .w32 (BitVec.ofNat 32 len),
      .write (s.cfg.blockBase + 0x004) .w32 3#32, .command] ++ rest } =
    .next ((({ s with inLen := len, pending := rest }).accept 3#32).finish
      (compressOp s.inByte len s.cfg.maxDist (Config.freeTree s.draws) (s.accept 3#32).engine)) :=
  (Core.run_succ_of_step 2 (step_inLenWrite_of_fits hidle hlen hword _)).trans
    ((Core.run_succ_of_step 1 (step_cmdWrite_of_idle (s := { s with inLen := len }) hidle 3#32 _)).trans
      (Core.run_succ_of_step 0
        (step_command_of_compress (s := ({ s with inLen := len }).accept 3#32) (n := len) rfl rest)))

/-- Settles O57 (R155): the bytes written are the bytes compressed. -/
theorem hostSequenceCompressesBuffer : Obligations.HostSequenceCompressesBuffer := by
  unfold Obligations.HostSequenceCompressesBuffer
  intro s b rest hcfg hidle hlen hpending
  have hwrites := run_inWindowWrites hcfg hidle b 0 (by rwa [Nat.zero_add])
    ([.write (s.cfg.blockBase + 0x00C) .w32 (BitVec.ofNat 32 b.length), .write (s.cfg.blockBase + 0x004) .w32 3#32,
      .command] ++ rest)
  have hstart : { s with pending := inWindowWrites s.cfg b 0 ++
      ([.write (s.cfg.blockBase + 0x00C) .w32 (BitVec.ofNat 32 b.length), .write (s.cfg.blockBase + 0x004) .w32 3#32,
        .command] ++ rest) } = s := by
    rw [inWindowWrites, ← List.append_assoc, ← hpending]
  rw [hstart] at hwrites
  have hword : b.length < 4294967296 := by
    have hle := hcfg.2.1
    simp only [capMax] at hle
    omega
  have hrun := run_compress_sequence (s := { s with inBuf := s.inBuf.writeBytes 0 b }) hidle hlen hword rest
  have hinput : inputBytes (s.inBuf.writeBytes 0 b).read 0 b.length = b := by
    refine eq_of_getD_eq (length_inputBytes _ _ _) fun k hk => ?_
    rw [getD_inputBytes _ _ _ hk, Memory.read_writeBytes, dif_pos (by omega), List.getD_eq_getElem _ _ hk]
    simp
  have hresult := compressOp_result (s.inBuf.writeBytes 0 b).read b.length s.cfg.maxDist (Config.freeTree s.draws)
    (s.accept 3#32).engine
  rw [hinput] at hresult
  have hends := State.endsWith_of_result hresult
    (s := ({ s with inBuf := s.inBuf.writeBytes 0 b, inLen := b.length, pending := rest }).accept 3#32)
  obtain ⟨hphase, hdone, -, hinLen, -, hpend⟩ := State.finish_frame
    (({ s with inBuf := s.inBuf.writeBytes 0 b, inLen := b.length, pending := rest }).accept 3#32)
    (compressOp (s.inBuf.writeBytes 0 b).read b.length s.cfg.maxDist (Config.freeTree s.draws) (s.accept 3#32).engine)
  refine ⟨_, (Core.run_add b.length 3 hwrites).trans hrun, hpend, hphase, hdone, hinLen, fun hfits => ?_, fun hover => ?_⟩
  · obtain ⟨ht, -, hbytes⟩ := hends.1 hfits
    have houtLen := congrArg State.outLen ht
    have hstatus := congrArg State.status ht
    refine ⟨(congrArg Status.err hstatus), (congrArg Status.path hstatus), houtLen, fun i hi => ?_⟩
    have hi' : i < (compressBytes s.cfg.maxDist b).length := hi.trans_eq houtLen
    exact (hbytes i hi').trans (List.getD_eq_getElem _ _ hi').symm
  · have hfailed := hends.2 hover
    exact ⟨congrArg (fun t => t.status.err) hfailed, congrArg (fun t => t.status.errCode) hfailed,
      congrArg State.outLen hfailed⟩

end Sys2Proof.Machine
end
